-- ==== Sys2Proof/Word.lean ====
section
/-! DEFINITION. The widths the spec names: a word is 32 bits, a half-word 16, a byte 8 (00_scope.md R10),
a register index 5 (30_encoding.md R62). -/

namespace Sys2Proof

/-- A 32-bit word: registers, addresses, instruction words (R7, R10). -/
abbrev Word := BitVec 32

/-- A 16-bit half-word (R10). -/
abbrev Half := BitVec 16

/-- An 8-bit byte (R10). -/
abbrev Byte := BitVec 8

/-- A register index, `x0` to `x31` (R15, R62). -/
abbrev RegIdx := BitVec 5

end Sys2Proof
end

