-- ==== Sys2Proof/Syntax.lean ====
section
/-! DEFINITION. The instructions as syntax: one constructor per row of spec/opcode_table.json, with the operands its
encoding carries (30_encoding.md R63 to R79). An immediate is kept at its encoded width; a branch offset and a JAL
offset are the byte offsets of R66 and R68, 13 and 21 bits wide with bit 0 included (`WellFormed` asks that it be 0). -/

namespace Sys2Proof

/-- The 45 instructions (00_scope.md R2). -/
inductive Instr where
  /-- ADD rd, rs1, rs2 (R115). -/
  | add (rd rs1 rs2 : RegIdx)
  /-- SUB rd, rs1, rs2 (R116). -/
  | sub (rd rs1 rs2 : RegIdx)
  /-- SLL rd, rs1, rs2 (R117). -/
  | sll (rd rs1 rs2 : RegIdx)
  /-- SLT rd, rs1, rs2 (R118). -/
  | slt (rd rs1 rs2 : RegIdx)
  /-- SLTU rd, rs1, rs2 (R119). -/
  | sltu (rd rs1 rs2 : RegIdx)
  /-- XOR rd, rs1, rs2 (R120). -/
  | xor (rd rs1 rs2 : RegIdx)
  /-- SRL rd, rs1, rs2 (R121). -/
  | srl (rd rs1 rs2 : RegIdx)
  /-- SRA rd, rs1, rs2 (R122). -/
  | sra (rd rs1 rs2 : RegIdx)
  /-- OR rd, rs1, rs2 (R123). -/
  | or (rd rs1 rs2 : RegIdx)
  /-- AND rd, rs1, rs2 (R124). -/
  | and (rd rs1 rs2 : RegIdx)
  /-- MUL rd, rs1, rs2 (R125). -/
  | mul (rd rs1 rs2 : RegIdx)
  /-- MULH rd, rs1, rs2 (R126). -/
  | mulh (rd rs1 rs2 : RegIdx)
  /-- MULHSU rd, rs1, rs2 (R127). -/
  | mulhsu (rd rs1 rs2 : RegIdx)
  /-- MULHU rd, rs1, rs2 (R128). -/
  | mulhu (rd rs1 rs2 : RegIdx)
  /-- DIV rd, rs1, rs2 (R129). -/
  | div (rd rs1 rs2 : RegIdx)
  /-- DIVU rd, rs1, rs2 (R130). -/
  | divu (rd rs1 rs2 : RegIdx)
  /-- REM rd, rs1, rs2 (R131). -/
  | rem (rd rs1 rs2 : RegIdx)
  /-- REMU rd, rs1, rs2 (R132). -/
  | remu (rd rs1 rs2 : RegIdx)
  /-- ADDI rd, rs1, imm (R134). -/
  | addi (rd rs1 : RegIdx) (imm : BitVec 12)
  /-- SLTI rd, rs1, imm (R135). -/
  | slti (rd rs1 : RegIdx) (imm : BitVec 12)
  /-- SLTIU rd, rs1, imm (R136). -/
  | sltiu (rd rs1 : RegIdx) (imm : BitVec 12)
  /-- XORI rd, rs1, imm (R137). -/
  | xori (rd rs1 : RegIdx) (imm : BitVec 12)
  /-- ORI rd, rs1, imm (R138). -/
  | ori (rd rs1 : RegIdx) (imm : BitVec 12)
  /-- ANDI rd, rs1, imm (R139). -/
  | andi (rd rs1 : RegIdx) (imm : BitVec 12)
  /-- SLLI rd, rs1, shamt (R140). -/
  | slli (rd rs1 : RegIdx) (shamt : BitVec 5)
  /-- SRLI rd, rs1, shamt (R141). -/
  | srli (rd rs1 : RegIdx) (shamt : BitVec 5)
  /-- SRAI rd, rs1, shamt (R142). -/
  | srai (rd rs1 : RegIdx) (shamt : BitVec 5)
  /-- LB rd, imm(rs1) (R147). -/
  | lb (rd rs1 : RegIdx) (imm : BitVec 12)
  /-- LH rd, imm(rs1) (R148). -/
  | lh (rd rs1 : RegIdx) (imm : BitVec 12)
  /-- LW rd, imm(rs1) (R149). -/
  | lw (rd rs1 : RegIdx) (imm : BitVec 12)
  /-- LBU rd, imm(rs1) (R150). -/
  | lbu (rd rs1 : RegIdx) (imm : BitVec 12)
  /-- LHU rd, imm(rs1) (R151). -/
  | lhu (rd rs1 : RegIdx) (imm : BitVec 12)
  /-- SB rs2, imm(rs1) (R152). -/
  | sb (rs1 rs2 : RegIdx) (imm : BitVec 12)
  /-- SH rs2, imm(rs1) (R153). -/
  | sh (rs1 rs2 : RegIdx) (imm : BitVec 12)
  /-- SW rs2, imm(rs1) (R154). -/
  | sw (rs1 rs2 : RegIdx) (imm : BitVec 12)
  /-- BEQ rs1, rs2, offset (R158). -/
  | beq (rs1 rs2 : RegIdx) (off : BitVec 13)
  /-- BNE rs1, rs2, offset (R159). -/
  | bne (rs1 rs2 : RegIdx) (off : BitVec 13)
  /-- BLT rs1, rs2, offset (R160). -/
  | blt (rs1 rs2 : RegIdx) (off : BitVec 13)
  /-- BGE rs1, rs2, offset (R161). -/
  | bge (rs1 rs2 : RegIdx) (off : BitVec 13)
  /-- BLTU rs1, rs2, offset (R162). -/
  | bltu (rs1 rs2 : RegIdx) (off : BitVec 13)
  /-- BGEU rs1, rs2, offset (R163). -/
  | bgeu (rs1 rs2 : RegIdx) (off : BitVec 13)
  /-- JAL rd, offset (R164). -/
  | jal (rd : RegIdx) (off : BitVec 21)
  /-- JALR rd, imm(rs1) (R165). -/
  | jalr (rd rs1 : RegIdx) (imm : BitVec 12)
  /-- LUI rd, imm20 (R168). -/
  | lui (rd : RegIdx) (imm : BitVec 20)
  /-- AUIPC rd, imm20 (R169). -/
  | auipc (rd : RegIdx) (imm : BitVec 20)
  deriving DecidableEq, Repr

end Sys2Proof
end

