-- ==== Sys2Proof/Decode.lean ====
section
/-! DEFINITION. The instruction decoder and, after it, the encoder, from the encoding tables of 30_encoding.md
(R61 to R80). Decoding is total: a word is an instruction or is rejected under a name (R81). -/

namespace Sys2Proof

/-! ### Fields (R62) -/

/-- `instr[6:0]` (R62). -/
def opcodeField (w : Word) : BitVec 7 := w.extractLsb' 0 7
/-- `instr[11:7]` (R62). -/
def rdField (w : Word) : RegIdx := w.extractLsb' 7 5
/-- `instr[14:12]` (R62). -/
def funct3Field (w : Word) : BitVec 3 := w.extractLsb' 12 3
/-- `instr[19:15]` (R62). -/
def rs1Field (w : Word) : RegIdx := w.extractLsb' 15 5
/-- `instr[24:20]` (R62). -/
def rs2Field (w : Word) : RegIdx := w.extractLsb' 20 5
/-- `instr[31:25]` (R62). -/
def funct7Field (w : Word) : BitVec 7 := w.extractLsb' 25 7

/-! ### Immediates as encoded (R64 to R68); `Machine/Operands.lean` extends them to 32 bits -/

/-- The 12 bits of an I-type immediate, `instr[31:20]` (R64). -/
def immIField (w : Word) : BitVec 12 := w.extractLsb' 20 12
/-- The 12 bits of an S-type immediate, `instr[31:25]` above `instr[11:7]` (R65). -/
def immSField (w : Word) : BitVec 12 := w.extractLsb' 25 7 ++ w.extractLsb' 7 5
/-- The 13-bit byte offset of a B-type word (R66). -/
def immBField (w : Word) : BitVec 13 :=
  w.extractLsb' 31 1 ++ w.extractLsb' 7 1 ++ w.extractLsb' 25 6 ++ w.extractLsb' 8 4 ++ 0#1
/-- The 20 bits of a U-type immediate, `instr[31:12]` (R67). -/
def immUField (w : Word) : BitVec 20 := w.extractLsb' 12 20
/-- The 21-bit byte offset of a J-type word (R68). -/
def immJField (w : Word) : BitVec 21 :=
  w.extractLsb' 31 1 ++ w.extractLsb' 12 8 ++ w.extractLsb' 20 1 ++ w.extractLsb' 21 10 ++ 0#1

/-! ### The decoder -/

/-- Why a word is no instruction. Each is the `IllegalOpcode` of 60_exceptions.md R209 when such a word is decoded. -/
inductive Reject where
  /-- `opcode` is none of the nine of R71 (R80). -/
  | opcode
  /-- A (`funct7`, `funct3`) pair that R72 does not list. -/
  | rType
  /-- A `funct3` or shift `funct7` that R73 does not list. -/
  | iAlu
  /-- A load `funct3` that R74 does not list. -/
  | load
  /-- A store `funct3` that R75 does not list. -/
  | store
  /-- A branch `funct3` that R76 does not list. -/
  | branch
  /-- A JALR `funct3` other than 000 (R78). -/
  | jalr
  deriving DecidableEq, Repr

/-- The R-type operations by `funct7` and `funct3` (R72). -/
def decodeRType (funct7 : BitVec 7) (funct3 : BitVec 3) (rd rs1 rs2 : RegIdx) : Except Reject Instr :=
  match funct7, funct3 with
  | 0b0000000#7, 0b000#3 => .ok (.add rd rs1 rs2)
  | 0b0100000#7, 0b000#3 => .ok (.sub rd rs1 rs2)
  | 0b0000000#7, 0b001#3 => .ok (.sll rd rs1 rs2)
  | 0b0000000#7, 0b010#3 => .ok (.slt rd rs1 rs2)
  | 0b0000000#7, 0b011#3 => .ok (.sltu rd rs1 rs2)
  | 0b0000000#7, 0b100#3 => .ok (.xor rd rs1 rs2)
  | 0b0000000#7, 0b101#3 => .ok (.srl rd rs1 rs2)
  | 0b0100000#7, 0b101#3 => .ok (.sra rd rs1 rs2)
  | 0b0000000#7, 0b110#3 => .ok (.or rd rs1 rs2)
  | 0b0000000#7, 0b111#3 => .ok (.and rd rs1 rs2)
  | 0b0000001#7, 0b000#3 => .ok (.mul rd rs1 rs2)
  | 0b0000001#7, 0b001#3 => .ok (.mulh rd rs1 rs2)
  | 0b0000001#7, 0b010#3 => .ok (.mulhsu rd rs1 rs2)
  | 0b0000001#7, 0b011#3 => .ok (.mulhu rd rs1 rs2)
  | 0b0000001#7, 0b100#3 => .ok (.div rd rs1 rs2)
  | 0b0000001#7, 0b101#3 => .ok (.divu rd rs1 rs2)
  | 0b0000001#7, 0b110#3 => .ok (.rem rd rs1 rs2)
  | 0b0000001#7, 0b111#3 => .ok (.remu rd rs1 rs2)
  | _, _ => .error .rType

/-- The immediate operations by `funct3`, the shifts also by `instr[31:25]`, the upper bits of the immediate (R73, R70). -/
def decodeIAlu (funct3 : BitVec 3) (rd rs1 : RegIdx) (imm : BitVec 12) : Except Reject Instr :=
  match funct3 with
  | 0b000#3 => .ok (.addi rd rs1 imm)
  | 0b010#3 => .ok (.slti rd rs1 imm)
  | 0b011#3 => .ok (.sltiu rd rs1 imm)
  | 0b100#3 => .ok (.xori rd rs1 imm)
  | 0b110#3 => .ok (.ori rd rs1 imm)
  | 0b111#3 => .ok (.andi rd rs1 imm)
  | 0b001#3 =>
    if imm.extractLsb' 5 7 = 0b0000000#7 then .ok (.slli rd rs1 (imm.extractLsb' 0 5)) else .error .iAlu
  | 0b101#3 =>
    if imm.extractLsb' 5 7 = 0b0000000#7 then .ok (.srli rd rs1 (imm.extractLsb' 0 5))
    else if imm.extractLsb' 5 7 = 0b0100000#7 then .ok (.srai rd rs1 (imm.extractLsb' 0 5))
    else .error .iAlu
  | _ => .error .iAlu

/-- The loads by `funct3` (R74). -/
def decodeLoad (funct3 : BitVec 3) (rd rs1 : RegIdx) (imm : BitVec 12) : Except Reject Instr :=
  match funct3 with
  | 0b000#3 => .ok (.lb rd rs1 imm)
  | 0b001#3 => .ok (.lh rd rs1 imm)
  | 0b010#3 => .ok (.lw rd rs1 imm)
  | 0b100#3 => .ok (.lbu rd rs1 imm)
  | 0b101#3 => .ok (.lhu rd rs1 imm)
  | _ => .error .load

/-- The stores by `funct3` (R75). -/
def decodeStore (funct3 : BitVec 3) (rs1 rs2 : RegIdx) (imm : BitVec 12) : Except Reject Instr :=
  match funct3 with
  | 0b000#3 => .ok (.sb rs1 rs2 imm)
  | 0b001#3 => .ok (.sh rs1 rs2 imm)
  | 0b010#3 => .ok (.sw rs1 rs2 imm)
  | _ => .error .store

/-- The branches by `funct3` (R76). -/
def decodeBranch (funct3 : BitVec 3) (rs1 rs2 : RegIdx) (off : BitVec 13) : Except Reject Instr :=
  match funct3 with
  | 0b000#3 => .ok (.beq rs1 rs2 off)
  | 0b001#3 => .ok (.bne rs1 rs2 off)
  | 0b100#3 => .ok (.blt rs1 rs2 off)
  | 0b101#3 => .ok (.bge rs1 rs2 off)
  | 0b110#3 => .ok (.bltu rs1 rs2 off)
  | 0b111#3 => .ok (.bgeu rs1 rs2 off)
  | _ => .error .branch

/-- The decoder: "pure, total" (R81), a function of the word alone (R89). The class is chosen by `opcode` (R71, R86);
JAL, LUI and AUIPC are legal whatever their other bits (R77, R79), JALR only with `funct3` 000 (R78). -/
def decode (w : Word) : Except Reject Instr :=
  match opcodeField w with
  | 0b0110011#7 => decodeRType (funct7Field w) (funct3Field w) (rdField w) (rs1Field w) (rs2Field w)
  | 0b0010011#7 => decodeIAlu (funct3Field w) (rdField w) (rs1Field w) (immIField w)
  | 0b0000011#7 => decodeLoad (funct3Field w) (rdField w) (rs1Field w) (immIField w)
  | 0b0100011#7 => decodeStore (funct3Field w) (rs1Field w) (rs2Field w) (immSField w)
  | 0b1100011#7 => decodeBranch (funct3Field w) (rs1Field w) (rs2Field w) (immBField w)
  | 0b1101111#7 => .ok (.jal (rdField w) (immJField w))
  | 0b1100111#7 =>
    if funct3Field w = 0b000#3 then .ok (.jalr (rdField w) (rs1Field w) (immIField w)) else .error .jalr
  | 0b0110111#7 => .ok (.lui (rdField w) (immUField w))
  | 0b0010111#7 => .ok (.auipc (rdField w) (immUField w))
  | _ => .error .opcode

/-- The instruction the decoder reads from an instruction whose bits are `w`, numbered as spec/opcode_table.json numbers
them. Every instruction is one 32-bit word (R61) fetched whole (20_memory.md R46), so `nbits` is always 32 and the bits
are the word. -/
def decodeTableWord (_nbits w : Nat) : Option Instr :=
  match decode (BitVec.ofNat 32 w) with
  | .ok i => some i
  | .error _ => none

/-! ### The encoder, from the same tables -/

/-- The R format (R63). -/
def encodeR (funct7 : BitVec 7) (rs2 rs1 : RegIdx) (funct3 : BitVec 3) (rd : RegIdx) (opcode : BitVec 7) : Word :=
  funct7 ++ rs2 ++ rs1 ++ funct3 ++ rd ++ opcode

/-- The I format (R63). -/
def encodeI (imm : BitVec 12) (rs1 : RegIdx) (funct3 : BitVec 3) (rd : RegIdx) (opcode : BitVec 7) : Word :=
  imm ++ rs1 ++ funct3 ++ rd ++ opcode

/-- The S format (R63). -/
def encodeS (imm : BitVec 12) (rs2 rs1 : RegIdx) (funct3 : BitVec 3) (opcode : BitVec 7) : Word :=
  imm.extractLsb' 5 7 ++ rs2 ++ rs1 ++ funct3 ++ imm.extractLsb' 0 5 ++ opcode

/-- The B format (R63); bit 0 of the offset has no place in the word. -/
def encodeB (off : BitVec 13) (rs2 rs1 : RegIdx) (funct3 : BitVec 3) (opcode : BitVec 7) : Word :=
  off.extractLsb' 12 1 ++ off.extractLsb' 5 6 ++ rs2 ++ rs1 ++ funct3 ++ off.extractLsb' 1 4 ++ off.extractLsb' 11 1
    ++ opcode

/-- The U format (R63). -/
def encodeU (imm : BitVec 20) (rd : RegIdx) (opcode : BitVec 7) : Word :=
  imm ++ rd ++ opcode

/-- The J format (R63); bit 0 of the offset has no place in the word. -/
def encodeJ (off : BitVec 21) (rd : RegIdx) (opcode : BitVec 7) : Word :=
  off.extractLsb' 20 1 ++ off.extractLsb' 1 10 ++ off.extractLsb' 11 1 ++ off.extractLsb' 12 8 ++ rd ++ opcode

/-- The word of an instruction (R71 to R79). -/
def encode : Instr → Word
  | .add rd rs1 rs2 => encodeR 0b0000000#7 rs2 rs1 0b000#3 rd 0b0110011#7
  | .sub rd rs1 rs2 => encodeR 0b0100000#7 rs2 rs1 0b000#3 rd 0b0110011#7
  | .sll rd rs1 rs2 => encodeR 0b0000000#7 rs2 rs1 0b001#3 rd 0b0110011#7
  | .slt rd rs1 rs2 => encodeR 0b0000000#7 rs2 rs1 0b010#3 rd 0b0110011#7
  | .sltu rd rs1 rs2 => encodeR 0b0000000#7 rs2 rs1 0b011#3 rd 0b0110011#7
  | .xor rd rs1 rs2 => encodeR 0b0000000#7 rs2 rs1 0b100#3 rd 0b0110011#7
  | .srl rd rs1 rs2 => encodeR 0b0000000#7 rs2 rs1 0b101#3 rd 0b0110011#7
  | .sra rd rs1 rs2 => encodeR 0b0100000#7 rs2 rs1 0b101#3 rd 0b0110011#7
  | .or rd rs1 rs2 => encodeR 0b0000000#7 rs2 rs1 0b110#3 rd 0b0110011#7
  | .and rd rs1 rs2 => encodeR 0b0000000#7 rs2 rs1 0b111#3 rd 0b0110011#7
  | .mul rd rs1 rs2 => encodeR 0b0000001#7 rs2 rs1 0b000#3 rd 0b0110011#7
  | .mulh rd rs1 rs2 => encodeR 0b0000001#7 rs2 rs1 0b001#3 rd 0b0110011#7
  | .mulhsu rd rs1 rs2 => encodeR 0b0000001#7 rs2 rs1 0b010#3 rd 0b0110011#7
  | .mulhu rd rs1 rs2 => encodeR 0b0000001#7 rs2 rs1 0b011#3 rd 0b0110011#7
  | .div rd rs1 rs2 => encodeR 0b0000001#7 rs2 rs1 0b100#3 rd 0b0110011#7
  | .divu rd rs1 rs2 => encodeR 0b0000001#7 rs2 rs1 0b101#3 rd 0b0110011#7
  | .rem rd rs1 rs2 => encodeR 0b0000001#7 rs2 rs1 0b110#3 rd 0b0110011#7
  | .remu rd rs1 rs2 => encodeR 0b0000001#7 rs2 rs1 0b111#3 rd 0b0110011#7
  | .addi rd rs1 imm => encodeI imm rs1 0b000#3 rd 0b0010011#7
  | .slti rd rs1 imm => encodeI imm rs1 0b010#3 rd 0b0010011#7
  | .sltiu rd rs1 imm => encodeI imm rs1 0b011#3 rd 0b0010011#7
  | .xori rd rs1 imm => encodeI imm rs1 0b100#3 rd 0b0010011#7
  | .ori rd rs1 imm => encodeI imm rs1 0b110#3 rd 0b0010011#7
  | .andi rd rs1 imm => encodeI imm rs1 0b111#3 rd 0b0010011#7
  | .slli rd rs1 shamt => encodeI (0b0000000#7 ++ shamt) rs1 0b001#3 rd 0b0010011#7
  | .srli rd rs1 shamt => encodeI (0b0000000#7 ++ shamt) rs1 0b101#3 rd 0b0010011#7
  | .srai rd rs1 shamt => encodeI (0b0100000#7 ++ shamt) rs1 0b101#3 rd 0b0010011#7
  | .lb rd rs1 imm => encodeI imm rs1 0b000#3 rd 0b0000011#7
  | .lh rd rs1 imm => encodeI imm rs1 0b001#3 rd 0b0000011#7
  | .lw rd rs1 imm => encodeI imm rs1 0b010#3 rd 0b0000011#7
  | .lbu rd rs1 imm => encodeI imm rs1 0b100#3 rd 0b0000011#7
  | .lhu rd rs1 imm => encodeI imm rs1 0b101#3 rd 0b0000011#7
  | .sb rs1 rs2 imm => encodeS imm rs2 rs1 0b000#3 0b0100011#7
  | .sh rs1 rs2 imm => encodeS imm rs2 rs1 0b001#3 0b0100011#7
  | .sw rs1 rs2 imm => encodeS imm rs2 rs1 0b010#3 0b0100011#7
  | .beq rs1 rs2 off => encodeB off rs2 rs1 0b000#3 0b1100011#7
  | .bne rs1 rs2 off => encodeB off rs2 rs1 0b001#3 0b1100011#7
  | .blt rs1 rs2 off => encodeB off rs2 rs1 0b100#3 0b1100011#7
  | .bge rs1 rs2 off => encodeB off rs2 rs1 0b101#3 0b1100011#7
  | .bltu rs1 rs2 off => encodeB off rs2 rs1 0b110#3 0b1100011#7
  | .bgeu rs1 rs2 off => encodeB off rs2 rs1 0b111#3 0b1100011#7
  | .jal rd off => encodeJ off rd 0b1101111#7
  | .jalr rd rs1 imm => encodeI imm rs1 0b000#3 rd 0b1100111#7
  | .lui rd imm => encodeU imm rd 0b0110111#7
  | .auipc rd imm => encodeU imm rd 0b0010111#7

end Sys2Proof
end

