-- ==== Sys2Proof/Config.lean ====
section
/-! DEFINITION. What is fixed for a run: the hazard policy (00_scope.md R7, 10_state.md R40) and the bound on a
program's length (R7). The spec leaves no value free (00_scope.md R9), so there is no opaque constant here. -/

namespace Sys2Proof

/-- The hazard policy, "fixed for a run" (R7, R40). `State` carries it as a field that no step changes, so a
statement about every state holds for both policies (DESIGN CHOICE, notes/assumptions/2.md). -/
inductive Policy where
  /-- Stall on every data hazard, resolve control transfers in execute (R185, R191). -/
  | noForwarding
  /-- Bypass from EX/MEM and MEM/WB, stall for a load-use hazard only, resolve in decode (R186, R191). -/
  | forwarding
  deriving DecidableEq, Repr

/-- The most words a program may have: `n <= 2^29` (R7, R227). -/
def maxProgramWords : Nat := 2 ^ 29

end Sys2Proof
end

