-- ==== Sys2Proof/Machine/State.lean ====
section
/-! DEFINITION. Everything the spec gives the machine, as plain data (10_state.md, 20_memory.md R43 to R45,
50_pipeline.md R200), and its value at reset (70_reset_and_hazards.md R226). -/

namespace Sys2Proof.Machine

/-! ### The control bundle (30_encoding.md R83, R88) -/

/-- The class of an instruction, in the order of its 4-bit code 0 to 9 (R83). -/
inductive Kind where
  | rAlu | iAlu | load | store | branch | jal | jalr | lui | auipc | none
  deriving DecidableEq, Repr

/-- The eighteen ALU operations, in the order of their 5-bit code 0 to 17 (R88). -/
inductive AluOp where
  | add | sub | sll | slt | sltu | xor | srl | sra | or | and
  | mul | mulh | mulhsu | mulhu | div | divu | rem | remu
  deriving DecidableEq, Repr

/-- The control signals of one instruction (R83). -/
structure Ctrl where
  kind : Kind
  regWrite : Bool
  memRead : Bool
  memWrite : Bool
  memToReg : Bool
  aluSrc : Bool
  aluOp : AluOp
  illegal : Bool
  usesRs1 : Bool
  usesRs2 : Bool
  deriving DecidableEq, Repr

/-- "all control signals 0" (10_state.md R30): `kind` code 0 and `aluOp` code 0 (DEDUCED,
notes/assumptions/9.md). -/
def Ctrl.zero : Ctrl where
  kind := .rAlu
  regWrite := false
  memRead := false
  memWrite := false
  memToReg := false
  aluSrc := false
  aluOp := .add
  illegal := false
  usesRs1 := false
  usesRs2 := false

/-! ### The pipeline latches (10_state.md R28 to R31) -/

/-- One pipeline latch; the four have one record type (R29). -/
structure Latch where
  valid : Bool
  pc : Word
  instr : Word
  opcode : BitVec 7
  rd : RegIdx
  funct3 : BitVec 3
  rs1 : RegIdx
  rs2 : RegIdx
  funct7 : BitVec 7
  imm : Word
  ctrl : Ctrl
  rs1Val : Word
  rs2Val : Word
  aluResult : Word
  memData : Word
  deriving DecidableEq, Repr

/-- "the latch value with `valid = 0` and every other field 0" (R30). -/
def Latch.bubble : Latch where
  valid := false
  pc := 0
  instr := 0
  opcode := 0
  rd := 0
  funct3 := 0
  rs1 := 0
  rs2 := 0
  funct7 := 0
  imm := 0
  ctrl := Ctrl.zero
  rs1Val := 0
  rs2Val := 0
  aluResult := 0
  memData := 0

/-! ### Run status and fault record (10_state.md R37) -/

/-- The kinds of fault that halt the core (60_exceptions.md R208). -/
inductive FaultKind where
  /-- Code 1: an illegal word in decode (R209). -/
  | illegalOpcode
  /-- Code 2: a branch, JAL or JALR target that is not a multiple of 4 (R210, R211). -/
  | misalignedBranchTarget
  deriving DecidableEq, Repr

/-- The run status (R37). -/
inductive RunStatus where
  | running
  | halted (kind : FaultKind) (faultPc faultWord : Word)
  | completed
  deriving DecidableEq, Repr

/-! ### The stage trace (50_pipeline.md R200) -/

/-- The modifier of an occupied slot (R200). -/
inductive SlotMod where
  | none | stalled | flushed
  deriving DecidableEq, Repr

/-- One slot of a trace row (R200). -/
inductive Slot where
  | empty
  | occ (addr : Word) (mod : SlotMod)
  deriving DecidableEq, Repr

/-- One trace row, the five stages of one cycle (R200). -/
structure TraceRow where
  fetch : Slot
  decode : Slot
  execute : Slot
  memory : Slot
  writeBack : Slot
  deriving DecidableEq, Repr

/-! ### The outcomes of a step that are no state -/

/-- The reasons a step can stop without a next state: there are none. "Nothing else faults" (60_exceptions.md R212), and
the two faults of a running core are a next state whose status is `halted` (R214; DEDUCED, notes/assumptions/6.md). An
empty type, so that no arm and no step can stop here; safe. -/
inductive Fault where
  deriving DecidableEq, Repr

/-- The reasons an instruction can be refused. -/
inductive Refusal where
  /-- Raised by an arm of `exec` for an instruction that has no meaning yet; safe. No arm raises it now. -/
  | notModelled (mnemonic : String)
  deriving DecidableEq, Repr

/-! ### The state -/

/-- The data memory (20_memory.md R43): address and byte pairs, addresses strictly rising, no pair with the byte 0 that
an unlisted address reads as (R44). `Memory.wf` of Machine/Ops.lean says so (DESIGN CHOICE, notes/assumptions/15.md). -/
abbrev Memory := List Host.Cell

/-- The whole state of the core (10_state.md; INVENTORY.md lists each field with its rule). -/
structure State where
  /-- The register file, 32 cells (R16); cell 0 is never written (R17). -/
  regs : Vector Word 32
  /-- The address of the next word to fetch (R21). -/
  pc : Word
  /-- IF/ID (R28). -/
  ifid : Latch
  /-- ID/EX (R28). -/
  idex : Latch
  /-- EX/MEM (R28). -/
  exmem : Latch
  /-- MEM/WB (R28). -/
  memwb : Latch
  /-- The busy counters, 2 bits each (R33). -/
  busy : Vector (BitVec 2) 32
  /-- The data memory (R42). -/
  mem : Memory
  /-- The instruction memory: word `k` at byte address `4k` (20_memory.md R45). -/
  prog : List Word
  /-- The hazard policy, a parameter no cycle changes (R40). -/
  policy : Policy
  /-- The run status (R37). -/
  status : RunStatus
  /-- The cycles taken (R39), of no stated width (DESIGN CHOICE, notes/assumptions/7.md). -/
  cycle : Nat
  /-- One row per cycle taken, oldest first (50_pipeline.md R200; DESIGN CHOICE, notes/assumptions/8.md). -/
  trace : List TraceRow
  deriving DecidableEq, Repr

/-- The state after a reset with the given policy and instruction memory (70_reset_and_hazards.md R225, R226). -/
def State.resetWith (policy : Policy) (prog : List Word) : State where
  regs := Vector.replicate 32 0
  pc := 0
  ifid := Latch.bubble
  idex := Latch.bubble
  exmem := Latch.bubble
  memwb := Latch.bubble
  busy := Vector.replicate 32 0
  mem := []
  prog := prog
  policy := policy
  status := .running
  cycle := 0
  trace := []

/-- The machine right after reset, before any program is loaded (DESIGN CHOICE, notes/assumptions/2.md and 3.md). -/
def State.reset : State := State.resetWith .forwarding []

end Sys2Proof.Machine
end

