-- ==== Sys2Proof/Machine/Flags.lean ====
section
/-! DEFINITION. The core has no status flags, condition codes or predicate registers (10_state.md R26): a comparison
gives 0 or 1 in a general register or a branch decision. This file holds the two orders those use and the branch
comparator (45_control_transfer.md R156). -/

namespace Sys2Proof.Machine

/-- `sint(a) < sint(b)` (00_scope.md R11). -/
def lessSigned (a b : Word) : Bool := decide (a.toInt < b.toInt)

/-- `uint(a) < uint(b)` (R11). -/
def lessUnsigned (a b : Word) : Bool := decide (a.toNat < b.toNat)

/-- "comparisons produce 0 or 1" (R26, 41_alu_core.md R97, R98). -/
def flagWord (c : Bool) : Word := if c then 1 else 0

/-- The six branch conditions (R156). -/
inductive BranchCond where
  | eq | ne | lt | ge | ltu | geu
  deriving DecidableEq, Repr

/-- The branch comparator (R156). -/
def BranchCond.holds (c : BranchCond) (a b : Word) : Bool :=
  match c with
  | .eq => decide (a = b)
  | .ne => !decide (a = b)
  | .lt => lessSigned a b
  | .ge => !lessSigned a b
  | .ltu => lessUnsigned a b
  | .geu => !lessUnsigned a b

/-- The condition a branch's `funct3` selects (R156, 30_encoding.md R76); 010 and 011 are illegal. -/
def branchCond? (funct3 : BitVec 3) : Option BranchCond :=
  match funct3 with
  | 0b000#3 => some .eq
  | 0b001#3 => some .ne
  | 0b100#3 => some .lt
  | 0b101#3 => some .ge
  | 0b110#3 => some .ltu
  | 0b111#3 => some .geu
  | _ => none

end Sys2Proof.Machine
end

