-- ==== Sys2Proof/Machine/Alu.lean ====
section
/-! DEFINITION. The ALU: `ALU(op, a, b)` for the eighteen operations (41_alu_core.md R92 to R111). It reads and writes no
state, has no flag output and never traps (R92). Multiply and divide are computed exactly on integers, then cut. -/

namespace Sys2Proof.Machine

/-- A shift amount, the low five bits of `b`: "shift amounts are masked to 5 bits" (R96). -/
def shiftAmount (b : Word) : Nat := (b.extractLsb' 0 5).toNat

/-- ADD (R94). -/
def aluAdd (a b : Word) : Word := a + b
/-- SUB (R95). -/
def aluSub (a b : Word) : Word := a - b
/-- SLL (R96). -/
def aluSll (a b : Word) : Word := a <<< shiftAmount b
/-- SLT (R97). -/
def aluSlt (a b : Word) : Word := flagWord (lessSigned a b)
/-- SLTU (R98). -/
def aluSltu (a b : Word) : Word := flagWord (lessUnsigned a b)
/-- XOR (R99). -/
def aluXor (a b : Word) : Word := a ^^^ b
/-- SRL (R100). -/
def aluSrl (a b : Word) : Word := a >>> shiftAmount b
/-- SRA (R101). -/
def aluSra (a b : Word) : Word := a.sshiftRight (shiftAmount b)
/-- OR (R102). -/
def aluOr (a b : Word) : Word := a ||| b
/-- AND (R103). -/
def aluAnd (a b : Word) : Word := a &&& b
/-- MUL (R104). -/
def aluMul (a b : Word) : Word := BitVec.ofInt 32 (a.toInt * b.toInt)
/-- MULH: the shift is floor division by 2^32 (R105). -/
def aluMulh (a b : Word) : Word := BitVec.ofInt 32 ((a.toInt * b.toInt) / 2 ^ 32)
/-- MULHSU: `a` signed, `b` unsigned (R106). -/
def aluMulhsu (a b : Word) : Word := BitVec.ofInt 32 ((a.toInt * (b.toNat : Int)) / 2 ^ 32)
/-- MULHU (R107). -/
def aluMulhu (a b : Word) : Word := BitVec.ofNat 32 ((a.toNat * b.toNat) / 2 ^ 32)
/-- DIV: rounding toward zero, -1 for a zero divisor, -2^31 for the overflow case (R108). -/
def aluDiv (a b : Word) : Word :=
  if b = 0 then 0xFFFFFFFF
  else if a = 0x80000000 ∧ b = 0xFFFFFFFF then 0x80000000
  else BitVec.ofInt 32 (a.toInt.sign * b.toInt.sign * ((a.toInt.natAbs / b.toInt.natAbs : Nat) : Int))
/-- DIVU (R109). -/
def aluDivu (a b : Word) : Word :=
  if b = 0 then 0xFFFFFFFF else BitVec.ofNat 32 (a.toNat / b.toNat)
/-- REM: the sign of the dividend (R110). -/
def aluRem (a b : Word) : Word :=
  if b = 0 then a
  else if a = 0x80000000 ∧ b = 0xFFFFFFFF then 0
  else BitVec.ofInt 32 (a.toInt - b.toInt * (aluDiv a b).toInt)
/-- REMU (R111). -/
def aluRemu (a b : Word) : Word :=
  if b = 0 then a else BitVec.ofNat 32 (a.toNat % b.toNat)

/-- `ALU(op, a, b)` (R92). -/
def alu (op : AluOp) (a b : Word) : Word :=
  match op with
  | .add => aluAdd a b
  | .sub => aluSub a b
  | .sll => aluSll a b
  | .slt => aluSlt a b
  | .sltu => aluSltu a b
  | .xor => aluXor a b
  | .srl => aluSrl a b
  | .sra => aluSra a b
  | .or => aluOr a b
  | .and => aluAnd a b
  | .mul => aluMul a b
  | .mulh => aluMulh a b
  | .mulhsu => aluMulhsu a b
  | .mulhu => aluMulhu a b
  | .div => aluDiv a b
  | .divu => aluDivu a b
  | .rem => aluRem a b
  | .remu => aluRemu a b

/-- The 5-bit code of an operation (30_encoding.md R88). -/
def AluOp.code : AluOp → BitVec 5
  | .add => 0 | .sub => 1 | .sll => 2 | .slt => 3 | .sltu => 4 | .xor => 5 | .srl => 6 | .sra => 7 | .or => 8
  | .and => 9 | .mul => 10 | .mulh => 11 | .mulhsu => 12 | .mulhu => 13 | .div => 14 | .divu => 15 | .rem => 16
  | .remu => 17

end Sys2Proof.Machine
end

