-- ==== Sys2Proof/Machine/Ops.lean ====
section
/-! DEFINITION. The named operations over registers, busy counters, memory and the run status. Every stage of the
pipeline and every instruction's meaning goes through these. -/

namespace Sys2Proof.Machine

/-! ### The register file (10_state.md R17) -/

/-- `x[i]`: a read of index 0 returns 0 (R17). -/
def readReg (rf : Vector Word 32) (i : RegIdx) : Word :=
  if i = 0 then 0 else rf[i.toNat]'(i.isLt)

/-- `x[i] <- v`: a write to index 0 is a no-op (R17). -/
def writeReg (rf : Vector Word 32) (i : RegIdx) (v : Word) : Vector Word 32 :=
  if i = 0 then rf else rf.set i.toNat v i.isLt

/-! ### The busy counters (10_state.md R33, 50_pipeline.md R175) -/

/-- `busy[r]`. -/
def busyOf (busy : Vector (BitVec 2) 32) (r : RegIdx) : BitVec 2 := busy[r.toNat]'(r.isLt)

/-- One pending write more (R175); two-bit arithmetic, which the count of R34 never overflows (DESIGN CHOICE,
notes/assumptions/10.md). -/
def markBusy (busy : Vector (BitVec 2) 32) (r : RegIdx) : Vector (BitVec 2) 32 :=
  busy.set r.toNat (busyOf busy r + 1) r.isLt

/-- One pending write less (R175). -/
def clearBusy (busy : Vector (BitVec 2) 32) (r : RegIdx) : Vector (BitVec 2) 32 :=
  busy.set r.toNat (busyOf busy r - 1) r.isLt

/-! ### The data memory, byte by byte (20_memory.md R43, R44) -/

/-- The canonical form: addresses strictly rising and inside the 2^32 bytes, no listed byte 0. -/
abbrev Memory.wf (m : Memory) : Prop :=
  m.Pairwise (fun x y => x.1 < y.1) ∧ ∀ c ∈ m, c.1 < 2 ^ 32 ∧ c.2 ≠ 0

/-- The byte at an address; a byte never written reads 0 (R44). -/
def byteAt : Memory → Nat → Byte
  | [], _ => 0
  | (k, b) :: rest, a => if k = a then b else byteAt rest a

/-- One byte written; writing 0 removes the entry, so that equal memories are equal lists. -/
def setByte : Memory → Nat → Byte → Memory
  | [], a, v => if v = 0 then [] else [(a, v)]
  | (k, b) :: rest, a, v =>
    if a < k then (if v = 0 then (k, b) :: rest else (a, v) :: (k, b) :: rest)
    else if a = k then (if v = 0 then rest else (a, v) :: rest)
    else (k, b) :: setByte rest a v

/-! ### `MemRead` and `MemWrite` (20_memory.md R47, R48): little-endian, addresses modulo 2^32, no alignment (R50) -/

/-- The access widths, 1, 2 or 4 bytes (R52). -/
inductive Width where
  | byte | half | word
  deriving DecidableEq, Repr

/-- `n` of `MemRead(addr, n)` and `MemWrite(addr, n, v)` (R47, R48). -/
def Width.bytes : Width → Nat
  | .byte => 1
  | .half => 2
  | .word => 4

/-- `MemRead(a, 1)` (R47). -/
def memRead8 (m : Memory) (a : Word) : Byte := byteAt m a.toNat

/-- `MemRead(a, 2)` (R47). -/
def memRead16 (m : Memory) (a : Word) : Half := memRead8 m (a + 1) ++ memRead8 m a

/-- `MemRead(a, 4)` (R47). -/
def memRead32 (m : Memory) (a : Word) : Word :=
  memRead8 m (a + 3) ++ memRead8 m (a + 2) ++ memRead8 m (a + 1) ++ memRead8 m a

/-- `MemWrite(a, 1, v)` (R48). -/
def memWrite8 (m : Memory) (a : Word) (v : Byte) : Memory := setByte m a.toNat v

/-- `MemWrite(a, n, v)`: the low `8n` bits of `v`, the lowest byte at the lowest address (R48). -/
def memWrite (m : Memory) (a : Word) (n : Width) (v : Word) : Memory :=
  match n with
  | .byte => memWrite8 m a (v.extractLsb' 0 8)
  | .half => memWrite8 (memWrite8 m a (v.extractLsb' 0 8)) (a + 1) (v.extractLsb' 8 8)
  | .word =>
    memWrite8 (memWrite8 (memWrite8 (memWrite8 m a (v.extractLsb' 0 8)) (a + 1) (v.extractLsb' 8 8))
      (a + 2) (v.extractLsb' 16 8)) (a + 3) (v.extractLsb' 24 8)

/-- The five loads (44_loads_stores.md R144). -/
inductive LoadOp where
  | lb | lh | lw | lbu | lhu
  deriving DecidableEq, Repr

/-- What a load reads at `ea`: width and extension (R144). -/
def LoadOp.value (op : LoadOp) (m : Memory) (ea : Word) : Word :=
  match op with
  | .lb => (memRead8 m ea).signExtend 32
  | .lh => (memRead16 m ea).signExtend 32
  | .lw => memRead32 m ea
  | .lbu => (memRead8 m ea).setWidth 32
  | .lhu => (memRead16 m ea).setWidth 32

/-- The load a `funct3` selects (R144, 30_encoding.md R74); the other three values are illegal. -/
def loadOp? (funct3 : BitVec 3) : Option LoadOp :=
  match funct3 with
  | 0b000#3 => some .lb
  | 0b001#3 => some .lh
  | 0b010#3 => some .lw
  | 0b100#3 => some .lbu
  | 0b101#3 => some .lhu
  | _ => none

/-- The width a store's `funct3` selects (R145, 30_encoding.md R75); the other five values are illegal. -/
def storeWidth? (funct3 : BitVec 3) : Option Width :=
  match funct3 with
  | 0b000#3 => some .byte
  | 0b001#3 => some .half
  | 0b010#3 => some .word
  | _ => none

/-! ### The instruction memory (20_memory.md R45) -/

/-- A list of words with the word at index `k` replaced, and zero words added if it is too short. -/
def setWord : List Word → Nat → Word → List Word
  | [], 0, w => [w]
  | [], k + 1, w => 0 :: setWord [] k w
  | _ :: rest, 0, w => w :: rest
  | x :: rest, k + 1, w => x :: setWord rest k w

/-! ### Taking an exception (60_exceptions.md R207, R214)

The one exception entry of this core: the status becomes `Halted(kind, faultPc, faultWord)` with the faulting
instruction's address and word (R214 item 5). No register saves the `pc` or a status, no mode changes and no handler is
entered (R207). There is no return from it: `Halted` is left only by a new `loadProgram` (R216), which is
`loadProgram` of Machine/HostInterface.lean. -/

/-- `raise <Kind>(pc, word)` (00_scope.md R12, R214 item 5). -/
def raise (kind : FaultKind) (pc word : Word) (s : State) : State :=
  { s with status := .halted kind pc word }

/-! ### What an instruction's meaning in isolation is made of (00_scope.md R12, R13) -/

/-- An instruction runs only while the status is `Running` (10_state.md R37); otherwise nothing changes
(60_exceptions.md R216; DEDUCED, notes/assumptions/1.md). -/
def whenRunning (s t : State) : Host.Outcome State Fault Refusal :=
  match s.status with
  | .running => .next t
  | _ => .next s

/-- `x[i]` in a state (R12). -/
def State.x (s : State) (i : RegIdx) : Word := readReg s.regs i

/-- `x[rd] <- v` (R12). -/
def State.setX (s : State) (rd : RegIdx) (v : Word) : State := { s with regs := writeReg s.regs rd v }

/-- `npc <- t` (R12). -/
def State.goto (s : State) (t : Word) : State := { s with pc := t }

/-- "every instruction not stating one has `npc = pc + 4`" (R12). -/
def State.advance (s : State) : State := s.goto (s.pc + 4)

/-- `MemWrite(a, n, v)` in a state (R12). -/
def State.store (s : State) (a : Word) (n : Width) (v : Word) : State := { s with mem := memWrite s.mem a n v }

end Sys2Proof.Machine
end

