-- ==== Sys2Proof/Machine/Operands.lean ====
section
/-! DEFINITION. Every operand form: the immediates extended to 32 bits (30_encoding.md R64 to R70), the effective
address (44_loads_stores.md R143), the targets of control transfers (45_control_transfer.md R157, R164, R165), and the
two bypass networks of the pipeline (50_pipeline.md R178, R189). -/

namespace Sys2Proof.Machine

/-! ### Immediates -/

/-- `immI` (R64). -/
def immI (imm : BitVec 12) : Word := imm.signExtend 32
/-- `immS` (R65). -/
def immS (imm : BitVec 12) : Word := imm.signExtend 32
/-- `immB` (R66). -/
def immB (off : BitVec 13) : Word := off.signExtend 32
/-- `immU` (R67). -/
def immU (imm : BitVec 20) : Word := imm ++ 0#12
/-- `immJ` (R68). -/
def immJ (off : BitVec 21) : Word := off.signExtend 32
/-- `immI` of an immediate shift: `instr[31:25]` above the shift amount (R70). -/
def immShift (funct7 : BitVec 7) (shamt : BitVec 5) : Word := immI (funct7 ++ shamt)

/-! ### Addresses and targets -/

/-- `ea = x[rs1] + imm` modulo 2^32 (R143). -/
def effectiveAddress (base imm : Word) : Word := base + imm

/-- `pc + immB` and `pc + immJ` (R157, R164). -/
def relativeTarget (pc imm : Word) : Word := pc + imm

/-- `(x[rs1] + immI) & 0xFFFFFFFE` (R165). -/
def jalrTarget (base imm : Word) : Word := (base + imm) &&& 0xFFFFFFFE

/-- Not a multiple of 4: bits 1:0 are not both 0 (60_exceptions.md R210, R211). -/
def misaligned (v : Word) : Bool := v.extractLsb' 0 2 != 0#2

/-! ### The value a latch commits (50_pipeline.md R173) -/

/-- The latch holds an instruction that writes a register other than x0 (R173). -/
def Latch.writes (L : Latch) : Bool := L.valid && L.ctrl.regWrite && L.rd != 0

/-- `memToReg ? memData : aluResult` (R173). -/
def Latch.result (L : Latch) : Word := if L.ctrl.memToReg then L.memData else L.aluResult

/-! ### Bypass networks -/

/-- The execute-stage bypass `Fwd(r, v)`: EX/MEM's result first, then MEM/WB's, else the value read (R178). -/
def forwardEx (exmem memwb : Latch) (r : RegIdx) (v : Word) : Word :=
  if exmem.writes && exmem.rd == r then exmem.aluResult
  else if memwb.writes && memwb.rd == r then memwb.result
  else v

/-- The decode-stage bypass `Bypass(r)`, over the values this cycle's execute and memory stages produce; else the
register file after this cycle's write-back (R189). -/
def bypassDecode (nextExmem nextMemwb : Latch) (rf1 : Vector Word 32) (r : RegIdx) : Word :=
  if nextExmem.writes && nextExmem.rd == r then nextExmem.aluResult
  else if nextMemwb.writes && nextMemwb.rd == r then nextMemwb.result
  else readReg rf1 r

end Sys2Proof.Machine
end

