-- ==== Sys2Proof/Machine/ControlTransfer.lean ====
section
/-! DEFINITION. The branches, JAL and JALR in isolation (45_control_transfer.md R155 to R166). There is no delay slot
(R155). The word of a fault is the instruction's own, `encode i` (DEDUCED, notes/assumptions/11.md). -/

namespace Sys2Proof.Machine

/-- The common pseudocode of the six branches (R157): an offset that is not a multiple of 4 raises
`MisalignedBranchTarget` with the branch's address and word, taken or not; otherwise `npc` is `pc + immB` or `pc + 4`. -/
def execBranch (c : BranchCond) (rs1 rs2 : RegIdx) (off : BitVec 13) (word : Word) (s : State) :
    Host.Outcome State Fault Refusal :=
  whenRunning s
    (if misaligned (immB off) then raise .misalignedBranchTarget s.pc word s
     else if c.holds (s.x rs1) (s.x rs2) then s.goto (relativeTarget s.pc (immB off))
     else s.advance)

/-- BEQ (R158): taken when `x[rs1] = x[rs2]`. -/
def execBeq (rs1 rs2 : RegIdx) (off : BitVec 13) (s : State) : Host.Outcome State Fault Refusal :=
  execBranch .eq rs1 rs2 off (encode (.beq rs1 rs2 off)) s

/-- BNE (R159): taken when `x[rs1] != x[rs2]`. -/
def execBne (rs1 rs2 : RegIdx) (off : BitVec 13) (s : State) : Host.Outcome State Fault Refusal :=
  execBranch .ne rs1 rs2 off (encode (.bne rs1 rs2 off)) s

/-- BLT (R160): taken when `sint(x[rs1]) < sint(x[rs2])`. -/
def execBlt (rs1 rs2 : RegIdx) (off : BitVec 13) (s : State) : Host.Outcome State Fault Refusal :=
  execBranch .lt rs1 rs2 off (encode (.blt rs1 rs2 off)) s

/-- BGE (R161): taken when `sint(x[rs1]) >= sint(x[rs2])`. -/
def execBge (rs1 rs2 : RegIdx) (off : BitVec 13) (s : State) : Host.Outcome State Fault Refusal :=
  execBranch .ge rs1 rs2 off (encode (.bge rs1 rs2 off)) s

/-- BLTU (R162): taken when `uint(x[rs1]) < uint(x[rs2])`. -/
def execBltu (rs1 rs2 : RegIdx) (off : BitVec 13) (s : State) : Host.Outcome State Fault Refusal :=
  execBranch .ltu rs1 rs2 off (encode (.bltu rs1 rs2 off)) s

/-- BGEU (R163): taken when `uint(x[rs1]) >= uint(x[rs2])`. -/
def execBgeu (rs1 rs2 : RegIdx) (off : BitVec 13) (s : State) : Host.Outcome State Fault Refusal :=
  execBranch .geu rs1 rs2 off (encode (.bgeu rs1 rs2 off)) s

/-- JAL (R164): link `pc + 4` into `x[rd]`, go to `pc + immJ`; an offset that is not a multiple of 4 raises. -/
def execJal (rd : RegIdx) (off : BitVec 21) (s : State) : Host.Outcome State Fault Refusal :=
  whenRunning s
    (if misaligned (immJ off) then raise .misalignedBranchTarget s.pc (encode (.jal rd off)) s
     else (s.setX rd (s.pc + 4)).goto (relativeTarget s.pc (immJ off)))

/-- JALR (R165): link `pc + 4` into `x[rd]`, go to `(x[rs1] + immI) & 0xFFFFFFFE`, formed from the old `x[rs1]`; a target
with bit 1 set raises. -/
def execJalr (rd rs1 : RegIdx) (imm : BitVec 12) (s : State) : Host.Outcome State Fault Refusal :=
  whenRunning s
    (if misaligned (jalrTarget (s.x rs1) (immI imm)) then
      raise .misalignedBranchTarget s.pc (encode (.jalr rd rs1 imm)) s
     else (s.setX rd (s.pc + 4)).goto (jalrTarget (s.x rs1) (immI imm)))


end Sys2Proof.Machine
end

