-- ==== Sys2Proof/Machine/LoadStore.lean ====
section
/-! DEFINITION. The loads and stores in isolation (44_loads_stores.md R143 to R154). -/

namespace Sys2Proof.Machine

/-- A load: `x[rd]` takes what `op` reads at `x[rs1] + immI`; `npc = pc + 4` (R143, R146). The address is formed from the
old `x[rs1]`; no alignment is required and nothing is raised. -/
def execLoad (op : LoadOp) (rd rs1 : RegIdx) (imm : BitVec 12) (s : State) : Host.Outcome State Fault Refusal :=
  whenRunning s (s.setX rd (op.value s.mem (effectiveAddress (s.x rs1) (immI imm)))).advance

/-- A store: the low bytes of `x[rs2]` go to `x[rs1] + immS`; `npc = pc + 4` (R143, R145, R146). -/
def execStore (n : Width) (rs1 rs2 : RegIdx) (imm : BitVec 12) (s : State) : Host.Outcome State Fault Refusal :=
  whenRunning s (s.store (effectiveAddress (s.x rs1) (immS imm)) n (s.x rs2)).advance

/-- LB (R147): `x[rd] <- sext_32(MemRead(x[rs1] + immI, 1))`. -/
def execLb (rd rs1 : RegIdx) (imm : BitVec 12) (s : State) : Host.Outcome State Fault Refusal :=
  execLoad .lb rd rs1 imm s

/-- LH (R148): `x[rd] <- sext_32(MemRead(x[rs1] + immI, 2))`. -/
def execLh (rd rs1 : RegIdx) (imm : BitVec 12) (s : State) : Host.Outcome State Fault Refusal :=
  execLoad .lh rd rs1 imm s

/-- LW (R149): `x[rd] <- MemRead(x[rs1] + immI, 4)`. -/
def execLw (rd rs1 : RegIdx) (imm : BitVec 12) (s : State) : Host.Outcome State Fault Refusal :=
  execLoad .lw rd rs1 imm s

/-- LBU (R150): `x[rd] <- zext_32(MemRead(x[rs1] + immI, 1))`. -/
def execLbu (rd rs1 : RegIdx) (imm : BitVec 12) (s : State) : Host.Outcome State Fault Refusal :=
  execLoad .lbu rd rs1 imm s

/-- LHU (R151): `x[rd] <- zext_32(MemRead(x[rs1] + immI, 2))`. -/
def execLhu (rd rs1 : RegIdx) (imm : BitVec 12) (s : State) : Host.Outcome State Fault Refusal :=
  execLoad .lhu rd rs1 imm s

/-- SB (R152): `MemWrite(x[rs1] + immS, 1, x[rs2])`. -/
def execSb (rs1 rs2 : RegIdx) (imm : BitVec 12) (s : State) : Host.Outcome State Fault Refusal :=
  execStore .byte rs1 rs2 imm s

/-- SH (R153): `MemWrite(x[rs1] + immS, 2, x[rs2])`. -/
def execSh (rs1 rs2 : RegIdx) (imm : BitVec 12) (s : State) : Host.Outcome State Fault Refusal :=
  execStore .half rs1 rs2 imm s

/-- SW (R154): `MemWrite(x[rs1] + immS, 4, x[rs2])`. -/
def execSw (rs1 rs2 : RegIdx) (imm : BitVec 12) (s : State) : Host.Outcome State Fault Refusal :=
  execStore .word rs1 rs2 imm s


end Sys2Proof.Machine
end

