-- ==== Sys2Proof/Machine/RegImm.lean ====
section
/-! DEFINITION. The register-immediate ALU instructions in isolation (43_immediate_ops.md R133 to R142). -/

namespace Sys2Proof.Machine

/-- Read `x[rs1]`, write `ALU(op, x[rs1], operand2)` to `x[rd]`, go on at `pc + 4` (R133). -/
def execRegImm (op : AluOp) (rd rs1 : RegIdx) (operand2 : Word) (s : State) : Host.Outcome State Fault Refusal :=
  whenRunning s (s.setX rd (alu op (s.x rs1) operand2)).advance

/-- ADDI (R134): `x[rd] <- x[rs1] + immI`. -/
def execAddi (rd rs1 : RegIdx) (imm : BitVec 12) (s : State) : Host.Outcome State Fault Refusal :=
  execRegImm .add rd rs1 (immI imm) s

/-- SLTI (R135): `x[rd] <- (sint(x[rs1]) < sint(immI)) ? 1 : 0`. -/
def execSlti (rd rs1 : RegIdx) (imm : BitVec 12) (s : State) : Host.Outcome State Fault Refusal :=
  execRegImm .slt rd rs1 (immI imm) s

/-- SLTIU (R136): `x[rd] <- (uint(x[rs1]) < uint(immI)) ? 1 : 0`. -/
def execSltiu (rd rs1 : RegIdx) (imm : BitVec 12) (s : State) : Host.Outcome State Fault Refusal :=
  execRegImm .sltu rd rs1 (immI imm) s

/-- XORI (R137): `x[rd] <- x[rs1] ^ immI`. -/
def execXori (rd rs1 : RegIdx) (imm : BitVec 12) (s : State) : Host.Outcome State Fault Refusal :=
  execRegImm .xor rd rs1 (immI imm) s

/-- ORI (R138): `x[rd] <- x[rs1] | immI`. -/
def execOri (rd rs1 : RegIdx) (imm : BitVec 12) (s : State) : Host.Outcome State Fault Refusal :=
  execRegImm .or rd rs1 (immI imm) s

/-- ANDI (R139): `x[rd] <- x[rs1] & immI`. -/
def execAndi (rd rs1 : RegIdx) (imm : BitVec 12) (s : State) : Host.Outcome State Fault Refusal :=
  execRegImm .and rd rs1 (immI imm) s

/-- SLLI (R140): `x[rd] <- x[rs1] << uint(shamt)`. -/
def execSlli (rd rs1 : RegIdx) (shamt : BitVec 5) (s : State) : Host.Outcome State Fault Refusal :=
  execRegImm .sll rd rs1 (shamt.setWidth 32) s

/-- SRLI (R141): `x[rd] <- x[rs1] >>u uint(shamt)`. -/
def execSrli (rd rs1 : RegIdx) (shamt : BitVec 5) (s : State) : Host.Outcome State Fault Refusal :=
  execRegImm .srl rd rs1 (shamt.setWidth 32) s

/-- SRAI (R142): `x[rd] <- x[rs1] >>s uint(shamt)`. -/
def execSrai (rd rs1 : RegIdx) (shamt : BitVec 5) (s : State) : Host.Outcome State Fault Refusal :=
  execRegImm .sra rd rs1 (shamt.setWidth 32) s


end Sys2Proof.Machine
end

