-- ==== Sys2Proof/Machine/RegReg.lean ====
section
/-! DEFINITION. The register-register ALU instructions in isolation (42_register_ops.md R114 to R132). -/

namespace Sys2Proof.Machine

/-- Read both sources, write `ALU(op, x[rs1], x[rs2])` to `x[rd]`, go on at `pc + 4` (R114). Both sources are read before
the write. -/
def execRegReg (op : AluOp) (rd rs1 rs2 : RegIdx) (s : State) : Host.Outcome State Fault Refusal :=
  whenRunning s (s.setX rd (alu op (s.x rs1) (s.x rs2))).advance

/-- ADD (R115): `x[rd] <- x[rs1] + x[rs2]`. -/
def execAdd (rd rs1 rs2 : RegIdx) (s : State) : Host.Outcome State Fault Refusal :=
  execRegReg .add rd rs1 rs2 s

/-- SUB (R116): `x[rd] <- x[rs1] - x[rs2]`. -/
def execSub (rd rs1 rs2 : RegIdx) (s : State) : Host.Outcome State Fault Refusal :=
  execRegReg .sub rd rs1 rs2 s

/-- SLL (R117): `x[rd] <- x[rs1] << uint(x[rs2][4:0])`. -/
def execSll (rd rs1 rs2 : RegIdx) (s : State) : Host.Outcome State Fault Refusal :=
  execRegReg .sll rd rs1 rs2 s

/-- SLT (R118): `x[rd] <- (sint(x[rs1]) < sint(x[rs2])) ? 1 : 0`. -/
def execSlt (rd rs1 rs2 : RegIdx) (s : State) : Host.Outcome State Fault Refusal :=
  execRegReg .slt rd rs1 rs2 s

/-- SLTU (R119): `x[rd] <- (uint(x[rs1]) < uint(x[rs2])) ? 1 : 0`. -/
def execSltu (rd rs1 rs2 : RegIdx) (s : State) : Host.Outcome State Fault Refusal :=
  execRegReg .sltu rd rs1 rs2 s

/-- XOR (R120): `x[rd] <- x[rs1] ^ x[rs2]`. -/
def execXor (rd rs1 rs2 : RegIdx) (s : State) : Host.Outcome State Fault Refusal :=
  execRegReg .xor rd rs1 rs2 s

/-- SRL (R121): `x[rd] <- x[rs1] >>u uint(x[rs2][4:0])`. -/
def execSrl (rd rs1 rs2 : RegIdx) (s : State) : Host.Outcome State Fault Refusal :=
  execRegReg .srl rd rs1 rs2 s

/-- SRA (R122): `x[rd] <- x[rs1] >>s uint(x[rs2][4:0])`. -/
def execSra (rd rs1 rs2 : RegIdx) (s : State) : Host.Outcome State Fault Refusal :=
  execRegReg .sra rd rs1 rs2 s

/-- OR (R123): `x[rd] <- x[rs1] | x[rs2]`. -/
def execOr (rd rs1 rs2 : RegIdx) (s : State) : Host.Outcome State Fault Refusal :=
  execRegReg .or rd rs1 rs2 s

/-- AND (R124): `x[rd] <- x[rs1] & x[rs2]`. -/
def execAnd (rd rs1 rs2 : RegIdx) (s : State) : Host.Outcome State Fault Refusal :=
  execRegReg .and rd rs1 rs2 s

/-- MUL (R125): the low word of `sint(x[rs1]) * sint(x[rs2])`. -/
def execMul (rd rs1 rs2 : RegIdx) (s : State) : Host.Outcome State Fault Refusal :=
  execRegReg .mul rd rs1 rs2 s

/-- MULH (R126): the high word of `sint(x[rs1]) * sint(x[rs2])`. -/
def execMulh (rd rs1 rs2 : RegIdx) (s : State) : Host.Outcome State Fault Refusal :=
  execRegReg .mulh rd rs1 rs2 s

/-- MULHSU (R127): the high word of `sint(x[rs1]) * uint(x[rs2])`. -/
def execMulhsu (rd rs1 rs2 : RegIdx) (s : State) : Host.Outcome State Fault Refusal :=
  execRegReg .mulhsu rd rs1 rs2 s

/-- MULHU (R128): the high word of `uint(x[rs1]) * uint(x[rs2])`. -/
def execMulhu (rd rs1 rs2 : RegIdx) (s : State) : Host.Outcome State Fault Refusal :=
  execRegReg .mulhu rd rs1 rs2 s

/-- DIV (R129): signed quotient, no trap. -/
def execDiv (rd rs1 rs2 : RegIdx) (s : State) : Host.Outcome State Fault Refusal :=
  execRegReg .div rd rs1 rs2 s

/-- DIVU (R130): unsigned quotient, no trap. -/
def execDivu (rd rs1 rs2 : RegIdx) (s : State) : Host.Outcome State Fault Refusal :=
  execRegReg .divu rd rs1 rs2 s

/-- REM (R131): signed remainder, no trap. -/
def execRem (rd rs1 rs2 : RegIdx) (s : State) : Host.Outcome State Fault Refusal :=
  execRegReg .rem rd rs1 rs2 s

/-- REMU (R132): unsigned remainder, no trap. -/
def execRemu (rd rs1 rs2 : RegIdx) (s : State) : Host.Outcome State Fault Refusal :=
  execRegReg .remu rd rs1 rs2 s


end Sys2Proof.Machine
end

