-- ==== Sys2Proof/Machine/UpperImmediate.lean ====
section
/-! DEFINITION. LUI and AUIPC in isolation (46_upper_immediate.md R167 to R169). -/

namespace Sys2Proof.Machine

/-- LUI (R168): `x[rd] <- immU`. -/
def execLui (rd : RegIdx) (imm : BitVec 20) (s : State) : Host.Outcome State Fault Refusal :=
  whenRunning s (s.setX rd (immU imm)).advance

/-- AUIPC (R169): `x[rd] <- pc + immU` modulo 2^32, `pc` the instruction's own address. -/
def execAuipc (rd : RegIdx) (imm : BitVec 20) (s : State) : Host.Outcome State Fault Refusal :=
  whenRunning s (s.setX rd (s.pc + immU imm)).advance


end Sys2Proof.Machine
end

