-- ==== Sys2Proof/Machine/Control.lean ====
section
/-! DEFINITION. The decoder's output for one word beside the fields: the control bundle and the `imm` field (30_encoding.md R69, R83 to R88). -/

namespace Sys2Proof.Machine

/-- The class of an instruction (R71, R86). -/
def kindOf : Instr → Kind
  | .add _ _ _ => .rAlu
  | .sub _ _ _ => .rAlu
  | .sll _ _ _ => .rAlu
  | .slt _ _ _ => .rAlu
  | .sltu _ _ _ => .rAlu
  | .xor _ _ _ => .rAlu
  | .srl _ _ _ => .rAlu
  | .sra _ _ _ => .rAlu
  | .or _ _ _ => .rAlu
  | .and _ _ _ => .rAlu
  | .mul _ _ _ => .rAlu
  | .mulh _ _ _ => .rAlu
  | .mulhsu _ _ _ => .rAlu
  | .mulhu _ _ _ => .rAlu
  | .div _ _ _ => .rAlu
  | .divu _ _ _ => .rAlu
  | .rem _ _ _ => .rAlu
  | .remu _ _ _ => .rAlu
  | .addi _ _ _ => .iAlu
  | .slti _ _ _ => .iAlu
  | .sltiu _ _ _ => .iAlu
  | .xori _ _ _ => .iAlu
  | .ori _ _ _ => .iAlu
  | .andi _ _ _ => .iAlu
  | .slli _ _ _ => .iAlu
  | .srli _ _ _ => .iAlu
  | .srai _ _ _ => .iAlu
  | .lb _ _ _ => .load
  | .lh _ _ _ => .load
  | .lw _ _ _ => .load
  | .lbu _ _ _ => .load
  | .lhu _ _ _ => .load
  | .sb _ _ _ => .store
  | .sh _ _ _ => .store
  | .sw _ _ _ => .store
  | .beq _ _ _ => .branch
  | .bne _ _ _ => .branch
  | .blt _ _ _ => .branch
  | .bge _ _ _ => .branch
  | .bltu _ _ _ => .branch
  | .bgeu _ _ _ => .branch
  | .jal _ _ => .jal
  | .jalr _ _ _ => .jalr
  | .lui _ _ => .lui
  | .auipc _ _ => .auipc

/-- The ALU operation of an instruction (R72, R73, R84). -/
def aluOpOf : Instr → AluOp
  | .add _ _ _ => .add
  | .sub _ _ _ => .sub
  | .sll _ _ _ => .sll
  | .slt _ _ _ => .slt
  | .sltu _ _ _ => .sltu
  | .xor _ _ _ => .xor
  | .srl _ _ _ => .srl
  | .sra _ _ _ => .sra
  | .or _ _ _ => .or
  | .and _ _ _ => .and
  | .mul _ _ _ => .mul
  | .mulh _ _ _ => .mulh
  | .mulhsu _ _ _ => .mulhsu
  | .mulhu _ _ _ => .mulhu
  | .div _ _ _ => .div
  | .divu _ _ _ => .divu
  | .rem _ _ _ => .rem
  | .remu _ _ _ => .remu
  | .addi _ _ _ => .add
  | .slti _ _ _ => .slt
  | .sltiu _ _ _ => .sltu
  | .xori _ _ _ => .xor
  | .ori _ _ _ => .or
  | .andi _ _ _ => .and
  | .slli _ _ _ => .sll
  | .srli _ _ _ => .srl
  | .srai _ _ _ => .sra
  | .lb _ _ _ => .add
  | .lh _ _ _ => .add
  | .lw _ _ _ => .add
  | .lbu _ _ _ => .add
  | .lhu _ _ _ => .add
  | .sb _ _ _ => .add
  | .sh _ _ _ => .add
  | .sw _ _ _ => .add
  | .beq _ _ _ => .sub
  | .bne _ _ _ => .sub
  | .blt _ _ _ => .sub
  | .bge _ _ _ => .sub
  | .bltu _ _ _ => .sub
  | .bgeu _ _ _ => .sub
  | .jal _ _ => .add
  | .jalr _ _ _ => .add
  | .lui _ _ => .add
  | .auipc _ _ => .add

/-- The `imm` field of an instruction, by its class (R69, R70). -/
def immOf : Instr → Word
  | .add _ _ _ => 0
  | .sub _ _ _ => 0
  | .sll _ _ _ => 0
  | .slt _ _ _ => 0
  | .sltu _ _ _ => 0
  | .xor _ _ _ => 0
  | .srl _ _ _ => 0
  | .sra _ _ _ => 0
  | .or _ _ _ => 0
  | .and _ _ _ => 0
  | .mul _ _ _ => 0
  | .mulh _ _ _ => 0
  | .mulhsu _ _ _ => 0
  | .mulhu _ _ _ => 0
  | .div _ _ _ => 0
  | .divu _ _ _ => 0
  | .rem _ _ _ => 0
  | .remu _ _ _ => 0
  | .addi _ _ imm => immI imm
  | .slti _ _ imm => immI imm
  | .sltiu _ _ imm => immI imm
  | .xori _ _ imm => immI imm
  | .ori _ _ imm => immI imm
  | .andi _ _ imm => immI imm
  | .slli _ _ shamt => immShift 0b0000000#7 shamt
  | .srli _ _ shamt => immShift 0b0000000#7 shamt
  | .srai _ _ shamt => immShift 0b0100000#7 shamt
  | .lb _ _ imm => immI imm
  | .lh _ _ imm => immI imm
  | .lw _ _ imm => immI imm
  | .lbu _ _ imm => immI imm
  | .lhu _ _ imm => immI imm
  | .sb _ _ imm => immS imm
  | .sh _ _ imm => immS imm
  | .sw _ _ imm => immS imm
  | .beq _ _ off => immB off
  | .bne _ _ off => immB off
  | .blt _ _ off => immB off
  | .bge _ _ off => immB off
  | .bltu _ _ off => immB off
  | .bgeu _ _ off => immB off
  | .jal _ off => immJ off
  | .jalr _ _ imm => immI imm
  | .lui _ imm => immU imm
  | .auipc _ imm => immU imm

/-- The control bundle of a class, the table of R84; `usesRs1` and `usesRs2` are the source-use bits of R85. -/
def classCtrl (kind : Kind) (op : AluOp) : Ctrl :=
  match kind with
  | .rAlu => { Ctrl.zero with kind := .rAlu, regWrite := true, aluOp := op, usesRs1 := true, usesRs2 := true }
  | .iAlu => { Ctrl.zero with kind := .iAlu, regWrite := true, aluSrc := true, aluOp := op, usesRs1 := true }
  | .load =>
    { Ctrl.zero with
      kind := .load, regWrite := true, memRead := true, memToReg := true, aluSrc := true, aluOp := op, usesRs1 := true }
  | .store =>
    { Ctrl.zero with kind := .store, memWrite := true, aluSrc := true, aluOp := op, usesRs1 := true, usesRs2 := true }
  | .branch => { Ctrl.zero with kind := .branch, aluOp := op, usesRs1 := true, usesRs2 := true }
  | .jal => { Ctrl.zero with kind := .jal, regWrite := true, aluOp := op }
  | .jalr => { Ctrl.zero with kind := .jalr, regWrite := true, aluSrc := true, aluOp := op, usesRs1 := true }
  | .lui => { Ctrl.zero with kind := .lui, regWrite := true, aluSrc := true, aluOp := op }
  | .auipc => { Ctrl.zero with kind := .auipc, regWrite := true, aluSrc := true, aluOp := op }
  | .none => { Ctrl.zero with kind := .none, illegal := true }

/-- The control bundle of an instruction (R83, R84). -/
def controlOf (i : Instr) : Ctrl := classCtrl (kindOf i) (aluOpOf i)

/-- The control bundle of a word: that of its instruction, or the illegal bundle of R87. -/
def controlOfWord (w : Word) : Ctrl :=
  match decode w with
  | .ok i => controlOf i
  | .error _ => classCtrl .none .add

/-- The `imm` field of a word: that of its instruction, 0 for an illegal word (R69, R87). -/
def immOfWord (w : Word) : Word :=
  match decode w with
  | .ok i => immOf i
  | .error _ => 0

/-- The 4-bit code of a class (R83). -/
def Kind.code : Kind → BitVec 4
  | .rAlu => 0 | .iAlu => 1 | .load => 2 | .store => 3 | .branch => 4 | .jal => 5 | .jalr => 6 | .lui => 7
  | .auipc => 8 | .none => 9


end Sys2Proof.Machine
end

