-- ==== Sys2Proof/Machine/Stages.lean ====
section
/-! DEFINITION. What each pipeline stage computes from latch values (50_pipeline.md R173 to R192). Each function is a
stage's combinational logic; Machine/Cycle.lean puts them together into one clock cycle. -/

namespace Sys2Proof.Machine

/-! ### Write-back (R173, R175) -/

/-- The register file after a latch has committed (R173). -/
def commitLatch (rf : Vector Word 32) (L : Latch) : Vector Word 32 :=
  if L.writes then writeReg rf L.rd L.result else rf

/-- The busy counters after a latch has committed: the marker of the register it wrote is released (R175). -/
def releaseLatch (busy : Vector (BitVec 2) 32) (L : Latch) : Vector (BitVec 2) 32 :=
  if L.writes then clearBusy busy L.rd else busy

/-- The busy counters after a latch has entered ID/EX: its destination is marked (R175). -/
def markLatch (busy : Vector (BitVec 2) 32) (L : Latch) : Vector (BitVec 2) 32 :=
  if L.writes then markBusy busy L.rd else busy

/-! ### Memory (R176) -/

/-- `LoadValue`: what a load in EX/MEM reads; 0 for a latch that is no load (R172, R176); 0 for a
`funct3` no load has (DESIGN CHOICE, notes/assumptions/10.md). -/
def loadData (m : Memory) (L : Latch) : Word :=
  if L.valid && L.ctrl.memRead then
    match loadOp? L.funct3 with
    | some op => op.value m L.aluResult
    | none => 0
  else 0

/-- `MEMWB'` (R172, R176). -/
def memoryStage (m : Memory) (L : Latch) : Latch := { L with memData := loadData m L }

/-- The data memory after the store of EX/MEM, if it is one (R176); unchanged for a `funct3` no store has (DESIGN CHOICE,
notes/assumptions/10.md). -/
def storeLatch (m : Memory) (L : Latch) : Memory :=
  if L.valid && L.ctrl.memWrite then
    match storeWidth? L.funct3 with
    | some n => memWrite m L.aluResult n L.rs2Val
    | none => m
  else m

/-! ### Execute (R177, R180; 41_alu_core.md R113) -/

/-- ALU operand 2: `aluSrc ? imm : b` (R177). -/
def aluOperand2 (L : Latch) (b : Word) : Word := if L.ctrl.aluSrc then L.imm else b

/-- The result multiplexer (41_alu_core.md R113). -/
def exResult (L : Latch) (a b : Word) : Word :=
  match L.ctrl.kind with
  | .lui => L.imm
  | .auipc => L.pc + L.imm
  | .jal => L.pc + 4
  | .jalr => L.pc + 4
  | .rAlu => alu L.ctrl.aluOp a (aluOperand2 L b)
  | .iAlu => alu L.ctrl.aluOp a (aluOperand2 L b)
  | .load => alu L.ctrl.aluOp a (aluOperand2 L b)
  | .store => alu L.ctrl.aluOp a (aluOperand2 L b)
  | .branch => alu L.ctrl.aluOp a (aluOperand2 L b)
  | .none => alu L.ctrl.aluOp a (aluOperand2 L b)

/-- `EXMEM'` from ID/EX and the operands execute uses (R180). -/
def executeStage (L : Latch) (a b : Word) : Latch :=
  if L.valid then { L with rs1Val := a, rs2Val := b, aluResult := exResult L a b } else Latch.bubble

/-! ### Resolution of control transfers (R191, R192) -/

/-- What `Resolve` answers: nothing, a redirect target, or a fault (R192). -/
inductive Resolution where
  | stay
  | redirect (target : Word)
  | fault (kind : FaultKind) (pc word : Word)
  deriving DecidableEq, Repr

/-- The latch holds a branch, JAL or JALR (R181, R190). -/
def Latch.isTransfer (L : Latch) : Bool :=
  match L.ctrl.kind with
  | .branch => true
  | .jal => true
  | .jalr => true
  | .rAlu => false
  | .iAlu => false
  | .load => false
  | .store => false
  | .lui => false
  | .auipc => false
  | .none => false

/-- `Resolve(L, a, b)` (R192); a latch of another class, or a branch with a `funct3` no branch has, resolves nothing
(DESIGN CHOICE, notes/assumptions/10.md). -/
def resolve (L : Latch) (a b : Word) : Resolution :=
  match L.ctrl.kind with
  | .branch =>
    match branchCond? L.funct3 with
    | some c => if c.holds a b then .redirect (relativeTarget L.pc L.imm) else .stay
    | none => .stay
  | .jal => .redirect (relativeTarget L.pc L.imm)
  | .jalr =>
    if misaligned (jalrTarget a L.imm) then .fault .misalignedBranchTarget L.pc L.instr
    else .redirect (jalrTarget a L.imm)
  | .rAlu => .stay
  | .iAlu => .stay
  | .load => .stay
  | .store => .stay
  | .lui => .stay
  | .auipc => .stay
  | .none => .stay

/-! ### Decode (R182 to R188) -/

/-- The latch value decode makes of the word in IF/ID with operands read from `rf1`, the register file after this cycle's
write-back (R182, R188; fields 30_encoding.md R62). -/
def decodeStage (L : Latch) (rf1 : Vector Word 32) : Latch where
  valid := true
  pc := L.pc
  instr := L.instr
  opcode := opcodeField L.instr
  rd := rdField L.instr
  funct3 := funct3Field L.instr
  rs1 := rs1Field L.instr
  rs2 := rs2Field L.instr
  funct7 := funct7Field L.instr
  imm := immOfWord L.instr
  ctrl := controlOfWord L.instr
  rs1Val := readReg rf1 (rs1Field L.instr)
  rs2Val := readReg rf1 (rs2Field L.instr)
  aluResult := 0
  memData := 0

/-- The fault decode raises from the word alone, before any operand is known: an illegal word (60_exceptions.md R209), or a
branch or JAL whose immediate is not a multiple of 4 (R210); R183. -/
def decodeFault (D : Latch) : Option FaultKind :=
  if D.ctrl.illegal then some .illegalOpcode
  else if (D.ctrl.kind == .branch || D.ctrl.kind == .jal) && misaligned D.imm then some .misalignedBranchTarget
  else none

/-- The `NoForwarding` hazard: a used source other than x0 has a pending write after this cycle's release (R185). -/
def busyHazard (busy1 : Vector (BitVec 2) 32) (D : Latch) : Bool :=
  (D.ctrl.usesRs1 && D.rs1 != 0 && busyOf busy1 D.rs1 != 0) || (D.ctrl.usesRs2 && D.rs2 != 0 && busyOf busy1 D.rs2 != 0)

/-- The `Forwarding` hazard: the instruction in ID/EX is a load into a used source (R186). -/
def loadUseHazard (idex D : Latch) : Bool :=
  idex.valid && idex.ctrl.memRead && idex.rd != 0 &&
    ((D.ctrl.usesRs1 && idex.rd == D.rs1) || (D.ctrl.usesRs2 && idex.rd == D.rs2))

/-! ### Fetch (R196) -/

/-- What fetch places in IF/ID (10_state.md R31, 50_pipeline.md R196). -/
def fetchedLatch (pc word : Word) : Latch := { Latch.bubble with valid := true, pc := pc, instr := word }

end Sys2Proof.Machine
end

