-- ==== Sys2Proof/Machine/Cycle.lean ====
section
/-! DEFINITION. One clock cycle of the whole core (50_pipeline.md R172): every definition takes the state at the start of
the cycle, and the names are those of R172, in its order. The halting cycle is 60_exceptions.md R214. -/

namespace Sys2Proof.Machine

/-! ### Write-back and memory -/

/-- `RF1`: the register file after this cycle's write-back (R173). -/
def State.rf1 (s : State) : Vector Word 32 := commitLatch s.regs s.memwb

/-- `busy1`: the counters after this cycle's release (R175). -/
def State.busy1 (s : State) : Vector (BitVec 2) 32 := releaseLatch s.busy s.memwb

/-- `MEMWB'` (R176). -/
def State.nextMemwb (s : State) : Latch := memoryStage s.mem s.exmem

/-- The data memory at the end of the cycle (R176). -/
def State.nextMem (s : State) : Memory := storeLatch s.mem s.exmem

/-! ### Execute -/

/-- The operand for `rs1` execute uses: through the bypass under `Forwarding` if it is used (R177). -/
def State.exA (s : State) : Word :=
  match s.policy with
  | .noForwarding => s.idex.rs1Val
  | .forwarding =>
    if s.idex.ctrl.usesRs1 then forwardEx s.exmem s.memwb s.idex.rs1 s.idex.rs1Val else s.idex.rs1Val

/-- The operand for `rs2` execute uses (R177). -/
def State.exB (s : State) : Word :=
  match s.policy with
  | .noForwarding => s.idex.rs2Val
  | .forwarding =>
    if s.idex.ctrl.usesRs2 then forwardEx s.exmem s.memwb s.idex.rs2 s.idex.rs2Val else s.idex.rs2Val

/-- `EXMEM'` (R180). -/
def State.nextExmem (s : State) : Latch := executeStage s.idex s.exA s.exB

/-- `exRedir, exFault`: under `NoForwarding` a transfer in ID/EX resolves (R181). -/
def State.exResolution (s : State) : Resolution :=
  match s.policy with
  | .noForwarding => if s.idex.valid && s.idex.isTransfer then resolve s.idex s.exA s.exB else .stay
  | .forwarding => .stay

/-- `squash`: a redirect from execute squashes the instruction in decode (R194). -/
def State.squash (s : State) : Bool :=
  match s.exResolution with
  | .redirect _ => true
  | .stay => false
  | .fault _ _ _ => false

/-! ### Decode -/

/-- `D`, with the operands read: what IF/ID becomes if it issues (R182, R188). -/
def State.decoded (s : State) : Latch := decodeStage s.ifid s.rf1

/-- `idFault`: the instruction in decode, not squashed, faults (R183). -/
def State.idFault (s : State) : Option FaultKind :=
  if s.ifid.valid && !s.squash then decodeFault s.decoded else none

/-- `Hazard(D)`, by the policy (R185, R186). -/
def State.hasHazard (s : State) : Bool :=
  match s.policy with
  | .noForwarding => busyHazard s.busy1 s.decoded
  | .forwarding => loadUseHazard s.idex s.decoded

/-- `hazard`: the instruction in decode stalls (R187). -/
def State.stalls (s : State) : Bool := s.ifid.valid && !s.squash && s.idFault.isNone && s.hasHazard

/-- `issue`: the instruction in decode leaves into ID/EX (R188). -/
def State.issues (s : State) : Bool := s.ifid.valid && !s.squash && s.idFault.isNone && !s.hasHazard

/-- `idRedir, idFault2`: under `Forwarding` a transfer that issues resolves with the decode bypass (R190). -/
def State.idResolution (s : State) : Resolution :=
  match s.policy with
  | .noForwarding => .stay
  | .forwarding =>
    if s.issues && s.decoded.isTransfer then
      resolve s.decoded (bypassDecode s.nextExmem s.nextMemwb s.rf1 s.decoded.rs1)
        (bypassDecode s.nextExmem s.nextMemwb s.rf1 s.decoded.rs2)
    else .stay

/-- `redirect`: from execute, else from decode (R172, R193). -/
def State.redirect (s : State) : Option Word :=
  match s.exResolution, s.idResolution with
  | .redirect t, _ => some t
  | _, .redirect t => some t
  | _, _ => none

/-- `fault`: the execute stage's first, else the decode stage's (R172; 60_exceptions.md R213), with the offending
instruction's address and word. -/
def State.faultOf (s : State) : Option (FaultKind × Word × Word) :=
  match s.exResolution, s.idFault, s.idResolution with
  | .fault k p w, _, _ => some (k, p, w)
  | _, some k, _ => some (k, s.ifid.pc, s.ifid.instr)
  | _, _, .fault k p w => some (k, p, w)
  | _, _, _ => none

/-! ### Fetch and the end of the cycle -/

/-- `inb(a)`: `uint(a) < 4n` (R196). -/
def State.inBounds (s : State) (a : Word) : Bool := decide (a.toNat < 4 * s.prog.length)

/-- `PROG[uint(a)/4]` (20_memory.md R46); 0 outside the program, where nothing is fetched (DESIGN CHOICE,
notes/assumptions/12.md). -/
def State.progWord (s : State) (a : Word) : Word := s.prog.getD (a.toNat / 4) 0

/-- `IFID'` (R172, R194, R187, R196). -/
def State.nextIfid (s : State) : Latch :=
  match s.redirect with
  | some _ => Latch.bubble
  | none =>
    if s.stalls then s.ifid
    else if s.inBounds s.pc then fetchedLatch s.pc (s.progWord s.pc)
    else Latch.bubble

/-- `pc'` (R197). -/
def State.nextPc (s : State) : Word :=
  match s.redirect with
  | some t => t
  | none => if s.stalls then s.pc else if s.inBounds s.pc then s.pc + 4 else s.pc

/-- `IDEX'`: the issuing instruction, else a bubble (R187, R188, R194). -/
def State.nextIdex (s : State) : Latch := if s.issues then s.decoded else Latch.bubble

/-- `busy'` (R175). -/
def State.nextBusy (s : State) : Vector (BitVec 2) 32 := markLatch s.busy1 s.nextIdex

/-! ### The trace row (R200) -/

/-- An occupied slot if the latch holds an instruction (R200). -/
def Latch.slot (L : Latch) (mod : SlotMod) : Slot := if L.valid then .occ L.pc mod else .empty

/-- The row of this cycle, with the modifiers of its fetch and decode slots given (R200). -/
def State.traceRow (s : State) (fetchMod decodeMod : SlotMod) : TraceRow where
  fetch := if s.inBounds s.pc then .occ s.pc fetchMod else .empty
  decode := s.ifid.slot decodeMod
  execute := s.idex.slot .none
  memory := s.exmem.slot .none
  writeBack := s.memwb.slot .none

/-- The fetch slot's modifier: flushed on a redirect, else stalled on a stall (R200). -/
def State.fetchMod (s : State) : SlotMod :=
  if s.redirect.isSome then .flushed else if s.stalls then .stalled else .none

/-- The decode slot's modifier: flushed if squashed, else stalled if it stalls (R200). -/
def State.decodeMod (s : State) : SlotMod :=
  if s.squash then .flushed else if s.stalls then .stalled else .none

/-! ### The two kinds of cycle -/

/-- All four latches are bubbles and `pc` is out of bounds: the completion condition (R199); a bubble is told by `valid`
(DEDUCED, notes/assumptions/14.md). -/
def State.drainedOut (s : State) : Bool :=
  !s.ifid.valid && !s.idex.valid && !s.exmem.valid && !s.memwb.valid && !s.inBounds s.pc

/-- The status becomes `Completed` when the state a cycle produced is drained (R199). -/
def State.completeIfDrained (s : State) : State := if s.drainedOut then { s with status := .completed } else s

/-- A cycle that does not halt (R172). -/
def State.flowCycle (s : State) : State :=
  State.completeIfDrained
    { s with
      regs := s.rf1
      pc := s.nextPc
      ifid := s.nextIfid
      idex := s.nextIdex
      exmem := s.nextExmem
      memwb := s.nextMemwb
      busy := s.nextBusy
      mem := s.nextMem
      cycle := s.cycle + 1
      trace := s.trace ++ [s.traceRow s.fetchMod s.decodeMod] }

/-- The halting cycle (60_exceptions.md R214): the write-back and the store take place, `pc` and the latches keep their
values and no busy counter is marked, the cycle is counted and traced (every modifier `none`, R200), and the fault is
raised. -/
def State.haltCycle (s : State) (kind : FaultKind) (pc word : Word) : State :=
  raise kind pc word
    { s with
      regs := s.rf1
      busy := s.busy1
      mem := s.nextMem
      cycle := s.cycle + 1
      trace := s.trace ++ [s.traceRow .none .none] }

/-- One clock cycle (R170, R172). -/
def State.clockCycle (s : State) : State :=
  match s.faultOf with
  | some (kind, pc, word) => s.haltCycle kind pc word
  | none => s.flowCycle

/-- One cycle if the status is `Running`, else nothing (10_state.md R37, R228; DEDUCED, notes/assumptions/5.md). -/
def State.tick (s : State) : State :=
  match s.status with
  | .running => s.clockCycle
  | .halted _ _ _ => s
  | .completed => s

end Sys2Proof.Machine
end

