-- ==== Sys2Proof/Machine/HostInterface.lean ====
section
/-! DEFINITION. The host's calls (70_reset_and_hazards.md R225 to R229) and the codes it reads (60_exceptions.md R208,
R215). The mnemonic texts of a program stay with the host and are not state (10_state.md R29, 30_encoding.md R90). -/

namespace Sys2Proof.Machine

/-- Why `loadProgram` refuses (R227). -/
inductive LoadError where
  /-- `EmptyProgram`: "no instructions loaded". -/
  | emptyProgram
  /-- More than 2^29 entries: "refused" (R227), with no error kind named for it (60_exceptions.md R208), so this name is the
  model's (DESIGN CHOICE, notes/assumptions/16.md). -/
  | tooLong
  deriving DecidableEq, Repr

/-- `loadProgram(entries)`: refused if empty or too long, else the core is reset with the words as its instruction memory
(R225, R227). It is also the only way out of `Halted` and `Completed` (60_exceptions.md R216). -/
def loadProgram (policy : Policy) (words : List Word) : Except LoadError State :=
  if words = [] then .error .emptyProgram
  else if maxProgramWords < words.length then .error .tooLong
  else .ok (State.resetWith policy words)

/-- Cycles one by one while the status is `Running`, at most `n` of them: the number taken, and the state (R228). -/
def runCycles : Nat → State → Nat × State
  | 0, s => (0, s)
  | n + 1, s =>
    match s.status with
    | .running => ((runCycles n s.clockCycle).1 + 1, (runCycles n s.clockCycle).2)
    | .halted _ _ _ => (0, s)
    | .completed => (0, s)

/-- `run(maxCycles: u32)` (R228). -/
def run (maxCycles : Word) (s : State) : Nat × RunStatus × State :=
  ((runCycles maxCycles.toNat s).1, (runCycles maxCycles.toNat s).2.status, (runCycles maxCycles.toNat s).2)

/-- `readRegister(index) -> i32`, refused outside 0..31 (R229). -/
def readRegister (s : State) (index : Nat) : Option Int :=
  if index < 32 then some (readReg s.regs (BitVec.ofNat 5 index)).toInt else none

/-- `readMemoryWord(address) -> i32`, at any byte address (R229). -/
def readMemoryWord (s : State) (address : Word) : Int := (memRead32 s.mem address).toInt

/-- The numeric fault codes (60_exceptions.md R208). -/
def FaultKind.code : FaultKind → Nat
  | .illegalOpcode => 1
  | .misalignedBranchTarget => 2

/-- The entry of the loaded program whose text a fault report names, `faultPc / 4` (60_exceptions.md R215). -/
def RunStatus.faultEntry : RunStatus → Option Nat
  | .halted _ pc _ => some (pc.toNat / 4)
  | .running => none
  | .completed => none

/-- The five stages, the columns of a trace row (50_pipeline.md R200). -/
inductive Stage where
  | fetch | decode | execute | memory | writeBack
  deriving DecidableEq, Repr

/-- The slots of a row with the stage each stands for, from IF to WB. -/
def TraceRow.slots (r : TraceRow) : List (Stage × Slot) :=
  [(.fetch, r.fetch), (.decode, r.decode), (.execute, r.execute), (.memory, r.memory), (.writeBack, r.writeBack)]

/-- The slot as an entry of a cell, if it is occupied by address `a`. -/
def cellEntry (a : Word) (p : Stage × Slot) : Option (Stage × SlotMod) :=
  match p.2 with
  | .occ b m => if b = a then some (p.1, m) else none
  | .empty => none

/-- The trace cell of instruction index `k` in cycle `c`: the slots of row `c` whose address is `4k`; empty when there is
none (50_pipeline.md R201). Listed from IF to WB (DESIGN CHOICE, notes/assumptions/13.md). -/
def State.traceCell (s : State) (k c : Nat) : List (Stage × SlotMod) :=
  match s.trace[c]? with
  | some row => row.slots.filterMap (cellEntry (BitVec.ofNat 32 (4 * k)))
  | none => []

end Sys2Proof.Machine
end

