-- ==== Sys2Proof/Machine/Step.lean ====
section
/-! DEFINITION. One step of the machine is one clock cycle (00_scope.md R8, 50_pipeline.md R170), taken only in `Running`
(10_state.md R37); a `Halted` or `Completed` core holds its state (70_reset_and_hazards.md R228). -/

namespace Sys2Proof.Machine

/-- One step: `tick` of Machine/Cycle.lean. It always answers a next state (60_exceptions.md R212, R214). -/
def step (s : State) : Host.Outcome State Fault Refusal := .next s.tick

/-- `s` with the word `w` as the next instruction the core runs: in the instruction memory at `pc` and, as fetched from
there, in IF/ID, with nothing ahead of it in the pipeline, so that the very next step decodes it
(DESIGN CHOICE, notes/assumptions/4.md). An instruction is one 32-bit word (30_encoding.md R61). -/
def State.withFetchWord (s : State) (_nbits w : Nat) : State :=
  { s with
    prog := setWord s.prog (s.pc.toNat / 4) (BitVec.ofNat 32 w)
    ifid := fetchedLatch s.pc (BitVec.ofNat 32 w)
    pc := s.pc + 4
    idex := Latch.bubble
    exmem := Latch.bubble
    memwb := Latch.bubble
    busy := Vector.replicate 32 0
    status := .running }

end Sys2Proof.Machine
end

