-- ==== Sys2Proof/Machine/ProgramOrder.lean ====
section
/-! DEFINITION. The state of a running pipeline read in program order (00_scope.md R13, 50_pipeline.md R203): what
registers, memory and program counter are once every instruction that has left decode has finished, using the stage
functions of the cycle itself. It is the state in which `exec` of the next instruction to leave decode makes sense. -/

namespace Sys2Proof.Machine

/-- The register file once MEM/WB and EX/MEM have finished. -/
def State.rf2 (s : State) : Vector Word 32 := commitLatch s.rf1 s.nextMemwb

/-- A JALR in ID/EX whose target faults in execute; it has no effect (60_exceptions.md R214). -/
def State.exFaults (s : State) : Bool :=
  match s.exResolution with
  | .fault _ _ _ => true
  | .stay => false
  | .redirect _ => false

/-- The instruction in ID/EX as it will reach MEM/WB two cycles on, a bubble if it faults. -/
def State.idexDone (s : State) : Latch :=
  if s.exFaults then Latch.bubble else memoryStage s.nextMem s.nextExmem

/-- The register file once ID/EX has finished too. -/
def State.rf3 (s : State) : Vector Word 32 := commitLatch s.rf2 s.idexDone

/-- The data memory once EX/MEM and ID/EX have finished. -/
def State.mem3 (s : State) : Memory := if s.exFaults then s.nextMem else storeLatch s.nextMem s.nextExmem

/-- The address of the next instruction in program order: the target of a transfer that redirects from execute, the
faulting JALR itself, else the instruction in decode, else the next to fetch. -/
def State.programPc (s : State) : Word :=
  match s.exResolution with
  | .redirect t => t
  | .fault _ p _ => p
  | .stay => if s.ifid.valid then s.ifid.pc else s.pc

/-- The state in program order. -/
def State.drained (s : State) : State := { s with regs := s.rf3, mem := s.mem3, pc := s.programPc }

/-- The part of the state instructions compute: registers, memory and program counter. -/
def State.arch (s : State) : Vector Word 32 × Memory × Word := (s.regs, s.mem, s.pc)

/-! ### One instruction alone, and sequential execution -/

/-- The next program counter a latch gives when it resolves with operands `a` and `b`: the target of a redirect, else the
address after it (00_scope.md R12, 50_pipeline.md R192). -/
def Latch.npc (L : Latch) (a b : Word) : Word :=
  match resolve L a b with
  | .redirect t => t
  | .stay => L.pc + 4
  | .fault _ _ _ => L.pc

/-- A decoded latch carried through execute, memory and write-back with nothing else in the pipeline: the operands are
those decode read, and a JALR whose target faults halts with no other effect. -/
def State.finishAlone (s : State) (D : Latch) : State :=
  match resolve D D.rs1Val D.rs2Val with
  | .fault k p w => raise k p w s
  | .stay =>
    { s with
      regs := commitLatch s.regs (memoryStage s.mem (executeStage D D.rs1Val D.rs2Val))
      mem := storeLatch s.mem (executeStage D D.rs1Val D.rs2Val)
      pc := D.npc D.rs1Val D.rs2Val }
  | .redirect _ =>
    { s with
      regs := commitLatch s.regs (memoryStage s.mem (executeStage D D.rs1Val D.rs2Val))
      mem := storeLatch s.mem (executeStage D D.rs1Val D.rs2Val)
      pc := D.npc D.rs1Val D.rs2Val }

/-- The word at `pc` carried alone through decode, execute, memory and write-back, each stage the function the clock
cycle uses. -/
def State.runAlone (s : State) (word : Word) : State :=
  match decodeFault (decodeStage (fetchedLatch s.pc word) s.regs) with
  | some k => raise k s.pc word s
  | none => s.finishAlone (decodeStage (fetchedLatch s.pc word) s.regs)

/-- One step of sequential execution (00_scope.md R13): while `Running` and in bounds, the word at `pc` is decoded and
`exec` runs it; an illegal word halts (60_exceptions.md R209). Outside the program nothing runs (R196). -/
def State.sequentialStep (s : State) : State :=
  match s.status with
  | .running =>
    if s.inBounds s.pc then
      match decode (s.progWord s.pc) with
      | .ok i =>
        match exec i s with
        | .next t => t
        | .fault _ => s
        | .refused _ => s
      | .error _ => raise .illegalOpcode s.pc (s.progWord s.pc) s
    else s
  | .halted _ _ _ => s
  | .completed => s

/-- `n` steps of sequential execution. -/
def State.sequentialRun : Nat → State → State
  | 0, s => s
  | n + 1, s => State.sequentialRun n s.sequentialStep

/-- The pipeline state `t` and the state `u` of sequential execution agree: the same program, the same registers, memory
and program counter in program order, and a status that means the same. A pipeline that has completed is where sequential
execution has left the program; sequential execution has no status of its own for that. -/
def State.Refines (t u : State) : Prop :=
  t.drained.arch = u.arch ∧ t.prog = u.prog ∧
    match t.status with
    | .running => u.status = .running
    | .completed => u.status = .running ∧ t.drainedOut = true
    | .halted kind pc word => u.status = .halted kind pc word

end Sys2Proof.Machine
end

