-- ==== Sys2Proof/Machine/Invariant.lean ====
section
/-! DEFINITION. What holds of every state a run reaches: the invariants the spec states (10_state.md R23, R30, R31, R33,
R34, R39; 20_memory.md R43, R46) and the canonical form of the data memory. -/

namespace Sys2Proof.Machine

/-- The latch holds the word of the instruction memory at its own, aligned address (20_memory.md R46, R51). -/
abbrev State.fetchedAt (s : State) (L : Latch) : Prop :=
  misaligned L.pc = false ∧ s.inBounds L.pc = true ∧ L.instr = s.progWord L.pc

/-- The decoded fields, `imm` and `ctrl` are those of the latch's own word, which decode accepted (10_state.md R31). -/
abbrev Latch.decodedFromWord (L : Latch) : Prop :=
  L.opcode = opcodeField L.instr ∧ L.rd = rdField L.instr ∧ L.funct3 = funct3Field L.instr ∧
  L.rs1 = rs1Field L.instr ∧ L.rs2 = rs2Field L.instr ∧ L.funct7 = funct7Field L.instr ∧
  L.imm = immOfWord L.instr ∧ L.ctrl = controlOfWord L.instr ∧ decodeFault L = none

/-- IF/ID is a bubble or a fetched word, the one before `pc` (10_state.md R31, 50_pipeline.md R196). -/
abbrev State.ifidOk (s : State) : Prop :=
  s.ifid = Latch.bubble ∨
    (s.ifid = fetchedLatch s.ifid.pc s.ifid.instr ∧ s.fetchedAt s.ifid ∧ s.pc = s.ifid.pc + 4)

/-- A latch past decode is a bubble or a fetched and decoded instruction (10_state.md R30, R31). -/
abbrev State.laterOk (s : State) (L : Latch) : Prop :=
  L = Latch.bubble ∨ (L.valid = true ∧ s.fetchedAt L ∧ L.decodedFromWord)

/-- The fields a latch's writer does not fill are 0 (10_state.md R31). -/
abbrev State.unfilledZero (s : State) : Prop :=
  s.idex.aluResult = 0 ∧ s.idex.memData = 0 ∧ s.exmem.memData = 0 ∧
  (s.memwb.ctrl.memRead = false → s.memwb.memData = 0)

/-- One if the latch has a pending write to `r`. -/
def Latch.pendingOn (L : Latch) (r : RegIdx) : Nat := if L.writes && L.rd == r then 1 else 0

/-- The number of latches past decode with a pending write to `r` (10_state.md R34). -/
def State.pending (s : State) (r : RegIdx) : Nat :=
  s.idex.pendingOn r + s.exmem.pendingOn r + s.memwb.pendingOn r

/-- The counters are exact (10_state.md R34). -/
abbrev State.busyExact (s : State) : Prop := ∀ r : RegIdx, (busyOf s.busy r).toNat = s.pending r

/-- The invariant of every reachable state. R34 speaks of "the start of every cycle", so of a `Running` core. -/
abbrev State.Coherent (s : State) : Prop :=
  s.mem.wf ∧ s.regs[0] = 0 ∧ misaligned s.pc = false ∧ s.prog.length ≤ maxProgramWords ∧
  s.ifidOk ∧ s.laterOk s.idex ∧ s.laterOk s.exmem ∧ s.laterOk s.memwb ∧ s.unfilledZero ∧
  (s.status = .running → s.busyExact) ∧ s.trace.length = s.cycle

/-- Execute has, for each source the instruction in ID/EX reads, the value of program order: "the value written by the
most recent older instruction in program order that writes that register" (50_pipeline.md R203). -/
abbrev State.operandsReady (s : State) : Prop :=
  s.idex.valid = true →
    (s.idex.ctrl.usesRs1 = true → s.exA = readReg s.rf2 s.idex.rs1) ∧
    (s.idex.ctrl.usesRs2 = true → s.exB = readReg s.rf2 s.idex.rs2)

end Sys2Proof.Machine
end

