-- ==== Sys2Proof/Certificates/Slice0/Obligations.lean ====
section
/-! DEFINITION. The statements for the provers, and the plain words they are made of. The values, words and bit places in
them are written out from the spec's rules, not taken from the model's own definitions, wherever a rule gives them. -/

namespace Sys2Proof.Claims
open Sys2Proof Sys2Proof.Machine

/-! ### Frames -/

/-- Every byte of the data memory reads as before. -/
def MemorySame (s t : State) : Prop := ∀ a : Word, memRead8 t.mem a = memRead8 s.mem a

/-- Every register reads as before, and cell 0 is untouched. -/
def RegsSame (s t : State) : Prop := (∀ r, t.x r = s.x r) ∧ t.regs[0] = s.regs[0]

/-- The latches, the busy counters, the program, the policy, the cycle count and the trace are as before. -/
def PipelineSame (s t : State) : Prop :=
  t.ifid = s.ifid ∧ t.idex = s.idex ∧ t.exmem = s.exmem ∧ t.memwb = s.memwb ∧ t.busy = s.busy ∧ t.prog = s.prog ∧
    t.policy = s.policy ∧ t.cycle = s.cycle ∧ t.trace = s.trace

/-- `x[rd] <- v; npc <- npc`, and nothing else: `rd` reads `v` unless it is x0, which reads 0; every other register, every
byte of memory, the status and the pipeline are as before. -/
def WritesReg (s t : State) (rd : RegIdx) (v npc : Word) : Prop :=
  (rd ≠ 0 → t.x rd = v) ∧ t.x 0 = 0 ∧ (∀ r, r ≠ rd → t.x r = s.x r) ∧ t.regs[0] = s.regs[0] ∧ t.pc = npc ∧
    MemorySame s t ∧ t.status = .running ∧ PipelineSame s t

/-- `MemWrite(a, n, v); npc = pc + 4`, and nothing else. Byte `k` of `v` is read back at `a + k` for `k < n`, in every
canonical memory; every byte at distance `n` or more from `a` (modulo 2^32) reads as before, in any memory. -/
def StoresBytes (s t : State) (a : Word) (n : Nat) (v : Word) : Prop :=
  (s.mem.wf → t.mem.wf ∧ ∀ k, k < n → memRead8 t.mem (a + BitVec.ofNat 32 k) = v.extractLsb' (8 * k) 8) ∧
    (∀ b : Word, n ≤ (b - a).toNat → memRead8 t.mem b = memRead8 s.mem b) ∧
    RegsSame s t ∧ t.pc = s.pc + 4 ∧ t.status = .running ∧ PipelineSame s t

/-- `npc <- npc`, and nothing else. -/
def Jumps (s t : State) (npc : Word) : Prop :=
  t.pc = npc ∧ RegsSame s t ∧ MemorySame s t ∧ t.status = .running ∧ PipelineSame s t

/-- `raise kind(pc, word)`, and nothing else. -/
def Raises (s t : State) (kind : FaultKind) (word : Word) : Prop :=
  t.status = .halted kind s.pc word ∧ t.pc = s.pc ∧ RegsSame s t ∧ MemorySame s t ∧ PipelineSame s t

/-! ### One row of an instruction table: the word decodes to the instruction, which completes with the result given -/

/-- An R-type row: `funct7`, `funct3`, the instruction, and the value of `x[rd]` from `x[rs1]` and `x[rs2]`. -/
def RegRegRow (f7 : BitVec 7) (f3 : BitVec 3) (i : RegIdx → RegIdx → RegIdx → Instr) (val : Word → Word → Word) :
    Prop :=
  ∀ rd rs1 rs2 : RegIdx, decode (f7 ++ rs2 ++ rs1 ++ f3 ++ rd ++ 0b0110011#7) = .ok (i rd rs1 rs2) ∧
    ∀ s : State, s.status = .running →
      ∃ t, exec (i rd rs1 rs2) s = .next t ∧ WritesReg s t rd (val (s.x rs1) (s.x rs2)) (s.pc + 4)

/-- An I-type ALU row: `funct3`, the instruction, and the value of `x[rd]` from `x[rs1]` and `immI`. -/
def RegImmRow (f3 : BitVec 3) (i : RegIdx → RegIdx → BitVec 12 → Instr) (val : Word → Word → Word) : Prop :=
  ∀ (rd rs1 : RegIdx) (imm : BitVec 12), decode (imm ++ rs1 ++ f3 ++ rd ++ 0b0010011#7) = .ok (i rd rs1 imm) ∧
    ∀ s : State, s.status = .running →
      ∃ t, exec (i rd rs1 imm) s = .next t ∧ WritesReg s t rd (val (s.x rs1) (imm.signExtend 32)) (s.pc + 4)

/-- An immediate shift's row: `instr[31:25]`, `funct3`, the instruction, and the value from `x[rs1]` and the amount. -/
def ShiftImmRow (f7 : BitVec 7) (f3 : BitVec 3) (i : RegIdx → RegIdx → BitVec 5 → Instr) (val : Word → Nat → Word) :
    Prop :=
  ∀ rd rs1 shamt : BitVec 5, decode (f7 ++ shamt ++ rs1 ++ f3 ++ rd ++ 0b0010011#7) = .ok (i rd rs1 shamt) ∧
    ∀ s : State, s.status = .running →
      ∃ t, exec (i rd rs1 shamt) s = .next t ∧ WritesReg s t rd (val (s.x rs1) shamt.toNat) (s.pc + 4)

/-- A load's row: `funct3`, the instruction, and the value read at the effective address. -/
def LoadRow (f3 : BitVec 3) (i : RegIdx → RegIdx → BitVec 12 → Instr) (val : Memory → Word → Word) : Prop :=
  ∀ (rd rs1 : RegIdx) (imm : BitVec 12), decode (imm ++ rs1 ++ f3 ++ rd ++ 0b0000011#7) = .ok (i rd rs1 imm) ∧
    ∀ s : State, s.status = .running →
      ∃ t, exec (i rd rs1 imm) s = .next t ∧ WritesReg s t rd (val s.mem (s.x rs1 + imm.signExtend 32)) (s.pc + 4)

/-- A store's row: `funct3`, the instruction, and the number of bytes of `x[rs2]` stored at the effective address. -/
def StoreRow (f3 : BitVec 3) (i : RegIdx → RegIdx → BitVec 12 → Instr) (n : Nat) : Prop :=
  ∀ (rs1 rs2 : RegIdx) (hi : BitVec 7) (lo : BitVec 5),
    decode (hi ++ rs2 ++ rs1 ++ f3 ++ lo ++ 0b0100011#7) = .ok (i rs1 rs2 (hi ++ lo)) ∧
    ∀ s : State, s.status = .running →
      ∃ t, exec (i rs1 rs2 (hi ++ lo)) s = .next t ∧
        StoresBytes s t (s.x rs1 + (hi ++ lo).signExtend 32) n (s.x rs2)

/-- The offset of a B-type word from its four fields: bit 12, bit 11, bits 10:5, bits 4:1, and a 0 below. -/
def branchOffset (b12 b11 : BitVec 1) (b10 : BitVec 6) (b4 : BitVec 4) : BitVec 13 := b12 ++ b11 ++ b10 ++ b4 ++ 0#1

/-- The B-type word with those fields. -/
def branchWord (f3 : BitVec 3) (rs1 rs2 : RegIdx) (b12 b11 : BitVec 1) (b10 : BitVec 6) (b4 : BitVec 4) : Word :=
  b12 ++ b10 ++ rs2 ++ rs1 ++ f3 ++ b4 ++ b11 ++ 0b1100011#7

/-- A branch's row: `funct3`, the instruction, and its condition. An offset that is a multiple of 4 completes, taken or
not; another raises `MisalignedBranchTarget` with the branch's address and word, taken or not. -/
def BranchRow (f3 : BitVec 3) (i : RegIdx → RegIdx → BitVec 13 → Instr) (cond : Word → Word → Prop) : Prop :=
  ∀ (rs1 rs2 : RegIdx) (b12 b11 : BitVec 1) (b10 : BitVec 6) (b4 : BitVec 4),
    decode (branchWord f3 rs1 rs2 b12 b11 b10 b4) = .ok (i rs1 rs2 (branchOffset b12 b11 b10 b4)) ∧
    ∀ s : State, s.status = .running →
      (((branchOffset b12 b11 b10 b4).signExtend 32).toNat % 4 = 0 →
        ∃ t, exec (i rs1 rs2 (branchOffset b12 b11 b10 b4)) s = .next t ∧
          (cond (s.x rs1) (s.x rs2) → Jumps s t (s.pc + (branchOffset b12 b11 b10 b4).signExtend 32)) ∧
          (¬cond (s.x rs1) (s.x rs2) → Jumps s t (s.pc + 4))) ∧
      (((branchOffset b12 b11 b10 b4).signExtend 32).toNat % 4 ≠ 0 →
        ∃ t, exec (i rs1 rs2 (branchOffset b12 b11 b10 b4)) s = .next t ∧
          Raises s t .misalignedBranchTarget (branchWord f3 rs1 rs2 b12 b11 b10 b4))

/-! ### Encodings -/

/-- The mask and the match of each instruction's row of spec/opcode_table.json. -/
def tableRow : Instr → Word × Word
  | .add _ _ _ => (0xFE00707F, 0x00000033)
  | .sub _ _ _ => (0xFE00707F, 0x40000033)
  | .sll _ _ _ => (0xFE00707F, 0x00001033)
  | .slt _ _ _ => (0xFE00707F, 0x00002033)
  | .sltu _ _ _ => (0xFE00707F, 0x00003033)
  | .xor _ _ _ => (0xFE00707F, 0x00004033)
  | .srl _ _ _ => (0xFE00707F, 0x00005033)
  | .sra _ _ _ => (0xFE00707F, 0x40005033)
  | .or _ _ _ => (0xFE00707F, 0x00006033)
  | .and _ _ _ => (0xFE00707F, 0x00007033)
  | .mul _ _ _ => (0xFE00707F, 0x02000033)
  | .mulh _ _ _ => (0xFE00707F, 0x02001033)
  | .mulhsu _ _ _ => (0xFE00707F, 0x02002033)
  | .mulhu _ _ _ => (0xFE00707F, 0x02003033)
  | .div _ _ _ => (0xFE00707F, 0x02004033)
  | .divu _ _ _ => (0xFE00707F, 0x02005033)
  | .rem _ _ _ => (0xFE00707F, 0x02006033)
  | .remu _ _ _ => (0xFE00707F, 0x02007033)
  | .addi _ _ _ => (0x0000707F, 0x00000013)
  | .slti _ _ _ => (0x0000707F, 0x00002013)
  | .sltiu _ _ _ => (0x0000707F, 0x00003013)
  | .xori _ _ _ => (0x0000707F, 0x00004013)
  | .ori _ _ _ => (0x0000707F, 0x00006013)
  | .andi _ _ _ => (0x0000707F, 0x00007013)
  | .slli _ _ _ => (0xFE00707F, 0x00001013)
  | .srli _ _ _ => (0xFE00707F, 0x00005013)
  | .srai _ _ _ => (0xFE00707F, 0x40005013)
  | .lb _ _ _ => (0x0000707F, 0x00000003)
  | .lh _ _ _ => (0x0000707F, 0x00001003)
  | .lw _ _ _ => (0x0000707F, 0x00002003)
  | .lbu _ _ _ => (0x0000707F, 0x00004003)
  | .lhu _ _ _ => (0x0000707F, 0x00005003)
  | .sb _ _ _ => (0x0000707F, 0x00000023)
  | .sh _ _ _ => (0x0000707F, 0x00001023)
  | .sw _ _ _ => (0x0000707F, 0x00002023)
  | .beq _ _ _ => (0x0000707F, 0x00000063)
  | .bne _ _ _ => (0x0000707F, 0x00001063)
  | .blt _ _ _ => (0x0000707F, 0x00004063)
  | .bge _ _ _ => (0x0000707F, 0x00005063)
  | .bltu _ _ _ => (0x0000707F, 0x00006063)
  | .bgeu _ _ _ => (0x0000707F, 0x00007063)
  | .jal _ _ => (0x0000007F, 0x0000006F)
  | .jalr _ _ _ => (0x0000707F, 0x00000067)
  | .lui _ _ => (0x0000007F, 0x00000037)
  | .auipc _ _ => (0x0000007F, 0x00000017)

/-- The class each of the nine opcodes selects (R71); `none` for every other opcode. -/
def classOfOpcode (op : BitVec 7) : Kind :=
  match op with
  | 0b0110011#7 => .rAlu
  | 0b0010011#7 => .iAlu
  | 0b0000011#7 => .load
  | 0b0100011#7 => .store
  | 0b1100011#7 => .branch
  | 0b1101111#7 => .jal
  | 0b1100111#7 => .jalr
  | 0b0110111#7 => .lui
  | 0b0010111#7 => .auipc
  | _ => .none

/-- The operation of an R-type ALU word by `funct7` and `funct3` (R72). -/
def rTypeOp : List (BitVec 7 × BitVec 3 × AluOp) :=
  [(0b0000000, 0b000, .add), (0b0100000, 0b000, .sub), (0b0000000, 0b001, .sll), (0b0000000, 0b010, .slt),
    (0b0000000, 0b011, .sltu), (0b0000000, 0b100, .xor), (0b0000000, 0b101, .srl), (0b0100000, 0b101, .sra),
    (0b0000000, 0b110, .or), (0b0000000, 0b111, .and), (0b0000001, 0b000, .mul), (0b0000001, 0b001, .mulh),
    (0b0000001, 0b010, .mulhsu), (0b0000001, 0b011, .mulhu), (0b0000001, 0b100, .div), (0b0000001, 0b101, .divu),
    (0b0000001, 0b110, .rem), (0b0000001, 0b111, .remu)]

/-- The operation of an I-type ALU word that is no shift, by `funct3` (R73). -/
def iTypeOp : List (BitVec 3 × AluOp) :=
  [(0b000, .add), (0b010, .slt), (0b011, .sltu), (0b100, .xor), (0b110, .or), (0b111, .and)]

/-- The operation of an immediate shift, by `instr[31:25]` and `funct3` (R73). -/
def shiftImmOp : List (BitVec 7 × BitVec 3 × AluOp) :=
  [(0b0000000, 0b001, .sll), (0b0000000, 0b101, .srl), (0b0100000, 0b101, .sra)]

/-- One row of the table of R84 without its `aluOp` column. -/
def Signals (c : Ctrl) (regWrite memRead memWrite memToReg aluSrc usesRs1 usesRs2 : Bool) : Prop :=
  c.regWrite = regWrite ∧ c.memRead = memRead ∧ c.memWrite = memWrite ∧ c.memToReg = memToReg ∧ c.aluSrc = aluSrc ∧
    c.usesRs1 = usesRs1 ∧ c.usesRs2 = usesRs2

/-! ### Pipeline -/

/-- The latch will write a register other than x0: valid, `regWrite`, `rd` not 0. -/
abbrev WillWrite (L : Latch) : Prop := L.valid = true ∧ L.ctrl.regWrite = true ∧ L.rd ≠ 0

/-- The branch condition of a `funct3` (R156); 010 and 011 are no branch. -/
def Cond (f3 : BitVec 3) (a b : Word) : Prop :=
  (f3 = 0b000#3 ∧ a = b) ∨ (f3 = 0b001#3 ∧ a ≠ b) ∨ (f3 = 0b100#3 ∧ a.toInt < b.toInt) ∨
    (f3 = 0b101#3 ∧ b.toInt ≤ a.toInt) ∨ (f3 = 0b110#3 ∧ a.toNat < b.toNat) ∨ (f3 = 0b111#3 ∧ b.toNat ≤ a.toNat)

/-- What MEM/WB commits: `memToReg ? memData : aluResult`. -/
def wbVal (L : Latch) : Word := if L.ctrl.memToReg = true then L.memData else L.aluResult

/-- The bypass multiplexer over two latches, the first with priority, and the value without a match. -/
def IsBypass (first second : Latch) (r : RegIdx) (v out : Word) : Prop :=
  (WillWrite first ∧ first.rd = r → out = first.aluResult) ∧
  (¬(WillWrite first ∧ first.rd = r) → WillWrite second ∧ second.rd = r → out = wbVal second) ∧
  (¬(WillWrite first ∧ first.rd = r) → ¬(WillWrite second ∧ second.rd = r) → out = v)

/-- `r` is a source register, other than x0, the instruction in decode reads. -/
def ReadsSource (s : State) (r : RegIdx) : Prop :=
  r ≠ 0 ∧ ((s.decoded.ctrl.usesRs1 = true ∧ r = s.ifid.instr.extractLsb' 15 5) ∨
    (s.decoded.ctrl.usesRs2 = true ∧ r = s.ifid.instr.extractLsb' 20 5))

/-- The core runs and this cycle raises no fault. -/
def Flows (s : State) : Prop := s.status = .running ∧ s.faultOf = none

/-- The address is outside the program of `n` words: `4n` or more. -/
def Outside (s : State) (a : Word) : Prop := 4 * s.prog.length ≤ a.toNat

/-- The slot a latch occupies. -/
def slotOf (L : Latch) (m : SlotMod) : Slot := if L.valid = true then .occ L.pc m else .empty

end Sys2Proof.Claims

open Sys2Proof Sys2Proof.Machine Sys2Proof.Claims

/-! ### Encoding (30_encoding.md) -/

/-- Decode and encode agree: decoding the word of a well-formed instruction gives that instruction, with every operand at
every value (R89 with R63 to R79). -/
def Obligations.DecodeOfEncodeIsTheInstruction : Prop :=
  ∀ i : Instr, i.wellFormed = true → decode (encode i) = .ok i

/-- Encode and decode agree: a legal word is the word of the instruction it decodes to, which is well formed. -/
def Obligations.EncodeOfDecodeIsTheWord : Prop :=
  ∀ (w : Word) (i : Instr), decode w = .ok i → encode i = w ∧ i.wellFormed = true

/-- The decoder accepts exactly the 45 rows of spec/opcode_table.json: a legal word matches its instruction's row, and a
word that matches a row decodes to an instruction of that row. -/
def Obligations.DecoderAcceptsExactlyTheOpcodeTable : Prop :=
  (∀ (w : Word) (i : Instr), decode w = .ok i → w &&& (tableRow i).1 = (tableRow i).2) ∧
    ∀ (w : Word) (j : Instr), w &&& (tableRow j).1 = (tableRow j).2 →
      ∃ i, decode w = .ok i ∧ tableRow i = tableRow j

/-- Words written out in the spec's examples, one or two of each class, decode to the instructions they stand for, and
words the spec calls illegal (FENCE, ECALL, EBREAK, zero, all ones) decode to none. -/
def Obligations.WordsOfTheSpecDecode : Prop :=
  decode 0x002081B3 = .ok (.add 3 1 2) ∧ decode 0x407302B3 = .ok (.sub 5 6 7) ∧
    decode 0x027302B3 = .ok (.mul 5 6 7) ∧ decode 0x020342B3 = .ok (.div 5 6 0) ∧
    decode 0x00500093 = .ok (.addi 1 0 5) ∧ decode 0x40135293 = .ok (.srai 5 6 1) ∧
    decode 0x00002203 = .ok (.lw 4 0 0) ∧ decode 0x00034283 = .ok (.lbu 5 6 0) ∧
    decode 0xFE732E23 = .ok (.sw 6 7 (-4)) ∧ decode 0x007300A3 = .ok (.sb 6 7 1) ∧
    decode 0x00208463 = .ok (.beq 1 2 8) ∧ decode 0xFE20FCE3 = .ok (.bgeu 1 2 (-8)) ∧
    decode 0x008000EF = .ok (.jal 1 8) ∧ decode 0x003300E7 = .ok (.jalr 1 6 3) ∧
    decode 0x123452B7 = .ok (.lui 5 0x12345) ∧ decode 0x00001297 = .ok (.auipc 5 1) ∧
    decode 0x0000000F = .error .opcode ∧ decode 0x00000073 = .error .opcode ∧
    decode 0x00100073 = .error .opcode ∧ decode 0x00000000 = .error .opcode ∧ decode 0xFFFFFFFF = .error .opcode

/-- R86: for every legal word `illegal` is 0 and exactly one of the nine classes applies, the one its opcode alone
selects; the nine opcodes are distinct. -/
def Obligations.LegalWordHasTheClassOfItsOpcode : Prop :=
  (∀ (w : Word) (i : Instr), decode w = .ok i →
    (controlOfWord w).illegal = false ∧ (controlOfWord w).kind ≠ .none ∧
      (controlOfWord w).kind = classOfOpcode (w.extractLsb' 0 7)) ∧
  ∀ op op' : BitVec 7, classOfOpcode op ≠ .none → classOfOpcode op = classOfOpcode op' → op = op'

/-- The control table of R84 with the immediates of R69 and the operations of R72 and R73, and the illegal bundle of R87.
The values are the spec's own reading (its decisions D9, D17, D18). -/
def Obligations.ControlSignalsFollowTheTable : Prop :=
  ∀ w : Word,
    (∀ e, decode w = .error e → controlOfWord w = { Ctrl.zero with kind := .none, illegal := true } ∧ immOfWord w = 0) ∧
    ∀ i, decode w = .ok i →
      (w.extractLsb' 0 7 = 0b0110011#7 → Signals (controlOfWord w) true false false false false true true ∧
        (w.extractLsb' 25 7, w.extractLsb' 12 3, (controlOfWord w).aluOp) ∈ rTypeOp ∧ immOfWord w = 0) ∧
      (w.extractLsb' 0 7 = 0b0010011#7 → Signals (controlOfWord w) true false false false true true false ∧
        ((w.extractLsb' 12 3, (controlOfWord w).aluOp) ∈ iTypeOp ∨
          (w.extractLsb' 25 7, w.extractLsb' 12 3, (controlOfWord w).aluOp) ∈ shiftImmOp) ∧
        immOfWord w = (w.extractLsb' 20 12).signExtend 32) ∧
      (w.extractLsb' 0 7 = 0b0000011#7 → Signals (controlOfWord w) true true false true true true false ∧
        (controlOfWord w).aluOp = .add ∧ immOfWord w = (w.extractLsb' 20 12).signExtend 32) ∧
      (w.extractLsb' 0 7 = 0b0100011#7 → Signals (controlOfWord w) false false true false true true true ∧
        (controlOfWord w).aluOp = .add ∧ immOfWord w = (w.extractLsb' 25 7 ++ w.extractLsb' 7 5).signExtend 32) ∧
      (w.extractLsb' 0 7 = 0b1100011#7 → Signals (controlOfWord w) false false false false false true true ∧
        (controlOfWord w).aluOp = .sub ∧
        immOfWord w = (branchOffset (w.extractLsb' 31 1) (w.extractLsb' 7 1) (w.extractLsb' 25 6)
          (w.extractLsb' 8 4)).signExtend 32) ∧
      (w.extractLsb' 0 7 = 0b1101111#7 → Signals (controlOfWord w) true false false false false false false ∧
        (controlOfWord w).aluOp = .add ∧
        immOfWord w = (w.extractLsb' 31 1 ++ w.extractLsb' 12 8 ++ w.extractLsb' 20 1 ++ w.extractLsb' 21 10
          ++ 0#1).signExtend 32) ∧
      (w.extractLsb' 0 7 = 0b1100111#7 → Signals (controlOfWord w) true false false false true true false ∧
        (controlOfWord w).aluOp = .add ∧ immOfWord w = (w.extractLsb' 20 12).signExtend 32) ∧
      (w.extractLsb' 0 7 = 0b0110111#7 ∨ w.extractLsb' 0 7 = 0b0010111#7 →
        Signals (controlOfWord w) true false false false true false false ∧
        (controlOfWord w).aluOp = .add ∧ immOfWord w = w.extractLsb' 12 20 ++ 0#12)

/-! ### Instructions in isolation (41_alu_core.md to 46_upper_immediate.md) -/

/-- R115 to R124: the ten register-register operations, each with its word, its result, its frame and its completion on
every running core; and the word R120 calls illegal. -/
def Obligations.RegisterOperationsWriteTheirResult : Prop :=
  RegRegRow 0b0000000#7 0b000#3 .add (fun a b => a + b) ∧
  RegRegRow 0b0100000#7 0b000#3 .sub (fun a b => a - b) ∧
  RegRegRow 0b0000000#7 0b001#3 .sll (fun a b => a <<< (b.extractLsb' 0 5).toNat) ∧
  RegRegRow 0b0000000#7 0b010#3 .slt (fun a b => if a.toInt < b.toInt then 1 else 0) ∧
  RegRegRow 0b0000000#7 0b011#3 .sltu (fun a b => if a.toNat < b.toNat then 1 else 0) ∧
  RegRegRow 0b0000000#7 0b100#3 .xor (fun a b => a ^^^ b) ∧
  RegRegRow 0b0000000#7 0b101#3 .srl (fun a b => a >>> (b.extractLsb' 0 5).toNat) ∧
  RegRegRow 0b0100000#7 0b101#3 .sra (fun a b => a.sshiftRight (b.extractLsb' 0 5).toNat) ∧
  RegRegRow 0b0000000#7 0b110#3 .or (fun a b => a ||| b) ∧
  RegRegRow 0b0000000#7 0b111#3 .and (fun a b => a &&& b) ∧
  ∀ rd rs1 rs2 : RegIdx, ∃ e, decode (0b0100000#7 ++ rs2 ++ rs1 ++ 0b100#3 ++ rd ++ 0b0110011#7) = .error e

/-- R125 to R128: the four multiplications, from the exact integer product. -/
def Obligations.MultiplicationsWriteTheirResult : Prop :=
  RegRegRow 0b0000001#7 0b000#3 .mul (fun a b => BitVec.ofInt 32 (a.toInt * b.toInt)) ∧
  RegRegRow 0b0000001#7 0b001#3 .mulh (fun a b => BitVec.ofInt 32 (a.toInt * b.toInt / 2 ^ 32)) ∧
  RegRegRow 0b0000001#7 0b010#3 .mulhsu (fun a b => BitVec.ofInt 32 (a.toInt * (b.toNat : Int) / 2 ^ 32)) ∧
  RegRegRow 0b0000001#7 0b011#3 .mulhu (fun a b => BitVec.ofInt 32 ((a.toNat : Int) * (b.toNat : Int) / 2 ^ 32))

/-- R130, R132 (with R109, R111): unsigned quotient and remainder; a zero divisor gives all ones and the dividend, and
does not trap. -/
def Obligations.UnsignedDivisionsWriteTheirResult : Prop :=
  RegRegRow 0b0000001#7 0b101#3 .divu
    (fun a b => if b = 0 then 0xFFFFFFFF else BitVec.ofNat 32 (a.toNat / b.toNat)) ∧
  RegRegRow 0b0000001#7 0b111#3 .remu (fun a b => if b = 0 then a else BitVec.ofNat 32 (a.toNat % b.toNat))

/-- Signed quotient and remainder (R129, R131 with R108, R110): rounding toward zero, the remainder with the sign of the
dividend. A zero divisor gives all ones and the dividend; the overflow case gives -2^31 and 0, which is the spec's own
decision D22. No division traps. -/
def Obligations.SignedDivisionsWriteTheirResult : Prop :=
  RegRegRow 0b0000001#7 0b100#3 .div
    (fun a b => if b = 0 then 0xFFFFFFFF else if a = 0x80000000 ∧ b = 0xFFFFFFFF then 0x80000000
      else BitVec.ofInt 32 (a.toInt.tdiv b.toInt)) ∧
  RegRegRow 0b0000001#7 0b110#3 .rem
    (fun a b => if b = 0 then a else if a = 0x80000000 ∧ b = 0xFFFFFFFF then 0
      else BitVec.ofInt 32 (a.toInt.tmod b.toInt))

/-- R112, an identity the spec derives: dividend = divisor * quotient + remainder, signed and unsigned, with a remainder
smaller than the divisor, outside the corners; with a zero divisor the identity holds modulo 2^32. -/
def Obligations.QuotientAndRemainderMakeTheDividend : Prop :=
  ∀ a b : Word,
    (b ≠ 0 → ¬(a = 0x80000000 ∧ b = 0xFFFFFFFF) →
      a.toInt = b.toInt * (alu .div a b).toInt + (alu .rem a b).toInt ∧
        (alu .rem a b).toInt.natAbs < b.toInt.natAbs) ∧
    (b ≠ 0 → a.toNat = b.toNat * (alu .divu a b).toNat + (alu .remu a b).toNat ∧ (alu .remu a b).toNat < b.toNat) ∧
    (b = 0 → alu .rem a b = a ∧ alu .remu a b = a ∧ a = b * alu .div a b + alu .rem a b ∧
      a = b * alu .divu a b + alu .remu a b)

/-- High and low words together are the exact 64-bit product, for each signedness (the products of R104 to R107 "cut"):
a consequence of those rules. -/
def Obligations.HighAndLowWordsMakeTheProduct : Prop :=
  ∀ a b : Word,
    (alu .mulh a b ++ alu .mul a b : BitVec 64) = a.signExtend 64 * b.signExtend 64 ∧
    (alu .mulhsu a b ++ alu .mul a b : BitVec 64) = a.signExtend 64 * b.setWidth 64 ∧
    (alu .mulhu a b ++ alu .mul a b : BitVec 64) = a.setWidth 64 * b.setWidth 64

/-- R134 to R142: the nine register-immediate operations, the immediate sign-extended, the shift amount five bits; the
`imm` field of SRAI, and the shift words R140 to R142 call illegal. -/
def Obligations.ImmediateOperationsWriteTheirResult : Prop :=
  RegImmRow 0b000#3 .addi (fun a b => a + b) ∧
  RegImmRow 0b010#3 .slti (fun a b => if a.toInt < b.toInt then 1 else 0) ∧
  RegImmRow 0b011#3 .sltiu (fun a b => if a.toNat < b.toNat then 1 else 0) ∧
  RegImmRow 0b100#3 .xori (fun a b => a ^^^ b) ∧
  RegImmRow 0b110#3 .ori (fun a b => a ||| b) ∧
  RegImmRow 0b111#3 .andi (fun a b => a &&& b) ∧
  ShiftImmRow 0b0000000#7 0b001#3 .slli (fun a n => a <<< n) ∧
  ShiftImmRow 0b0000000#7 0b101#3 .srli (fun a n => a >>> n) ∧
  ShiftImmRow 0b0100000#7 0b101#3 .srai (fun a n => a.sshiftRight n) ∧
  ∀ (f7 : BitVec 7) (rd rs1 shamt : BitVec 5),
    immOfWord (0b0100000#7 ++ shamt ++ rs1 ++ 0b101#3 ++ rd ++ 0b0010011#7) = 0x400 + shamt.setWidth 32 ∧
    (f7 ≠ 0b0000000#7 → ∃ e, decode (f7 ++ shamt ++ rs1 ++ 0b001#3 ++ rd ++ 0b0010011#7) = .error e) ∧
    (f7 ≠ 0b0000000#7 → f7 ≠ 0b0100000#7 → ∃ e, decode (f7 ++ shamt ++ rs1 ++ 0b101#3 ++ rd ++ 0b0010011#7) = .error e)

/-- R147 to R151: the five loads, little-endian, at any address and with no alignment; the old base register is used. -/
def Obligations.LoadsWriteTheValueRead : Prop :=
  LoadRow 0b000#3 .lb (fun m a => (memRead8 m a).signExtend 32) ∧
  LoadRow 0b001#3 .lh (fun m a => (memRead8 m (a + 1) ++ memRead8 m a).signExtend 32) ∧
  LoadRow 0b010#3 .lw (fun m a => memRead8 m (a + 3) ++ memRead8 m (a + 2) ++ memRead8 m (a + 1) ++ memRead8 m a) ∧
  LoadRow 0b100#3 .lbu (fun m a => (memRead8 m a).setWidth 32) ∧
  LoadRow 0b101#3 .lhu (fun m a => (memRead8 m (a + 1) ++ memRead8 m a).setWidth 32)

/-- R152 to R154: the three stores, at any address and with no alignment, and no other byte. -/
def Obligations.StoresWriteTheirBytes : Prop :=
  StoreRow 0b000#3 .sb 1 ∧ StoreRow 0b001#3 .sh 2 ∧ StoreRow 0b010#3 .sw 4

/-- R158 to R163: the six branches, taken, not taken, and with an offset that is not a multiple of 4. -/
def Obligations.BranchesGoToTheirTarget : Prop :=
  BranchRow 0b000#3 .beq (fun a b => a = b) ∧
  BranchRow 0b001#3 .bne (fun a b => a ≠ b) ∧
  BranchRow 0b100#3 .blt (fun a b => a.toInt < b.toInt) ∧
  BranchRow 0b101#3 .bge (fun a b => b.toInt ≤ a.toInt) ∧
  BranchRow 0b110#3 .bltu (fun a b => a.toNat < b.toNat) ∧
  BranchRow 0b111#3 .bgeu (fun a b => b.toNat ≤ a.toNat)

/-- R164: JAL links `pc + 4` and goes to `pc + immJ`; an offset that is not a multiple of 4 raises
`MisalignedBranchTarget` and links nothing. -/
def Obligations.JalLinksAndJumps : Prop :=
  ∀ (rd : RegIdx) (b20 b11 : BitVec 1) (b19 : BitVec 8) (b10 : BitVec 10),
    decode (b20 ++ b10 ++ b11 ++ b19 ++ rd ++ 0b1101111#7) = .ok (.jal rd (b20 ++ b19 ++ b11 ++ b10 ++ 0#1)) ∧
    ∀ s : State, s.status = .running →
      (((b20 ++ b19 ++ b11 ++ b10 ++ 0#1).signExtend 32).toNat % 4 = 0 →
        ∃ t, exec (.jal rd (b20 ++ b19 ++ b11 ++ b10 ++ 0#1)) s = .next t ∧
          WritesReg s t rd (s.pc + 4) (s.pc + (b20 ++ b19 ++ b11 ++ b10 ++ 0#1).signExtend 32)) ∧
      (((b20 ++ b19 ++ b11 ++ b10 ++ 0#1).signExtend 32).toNat % 4 ≠ 0 →
        ∃ t, exec (.jal rd (b20 ++ b19 ++ b11 ++ b10 ++ 0#1)) s = .next t ∧
          Raises s t .misalignedBranchTarget (b20 ++ b10 ++ b11 ++ b19 ++ rd ++ 0b1101111#7))

/-- JALR (R165): links `pc + 4` and goes to `x[rs1] + immI` with bit 0 cleared, from the old `x[rs1]`; if that has bit 1
set it raises `MisalignedBranchTarget` and links nothing, which is the spec's own decision D15. -/
def Obligations.JalrLinksAndJumps : Prop :=
  ∀ (rd rs1 : RegIdx) (imm : BitVec 12),
    decode (imm ++ rs1 ++ 0b000#3 ++ rd ++ 0b1100111#7) = .ok (.jalr rd rs1 imm) ∧
    ∀ s : State, s.status = .running →
      ((s.x rs1 + imm.signExtend 32).getLsbD 1 = false →
        ∃ t, exec (.jalr rd rs1 imm) s = .next t ∧
          WritesReg s t rd (s.pc + 4) ((s.x rs1 + imm.signExtend 32) &&& 0xFFFFFFFE)) ∧
      ((s.x rs1 + imm.signExtend 32).getLsbD 1 = true →
        ∃ t, exec (.jalr rd rs1 imm) s = .next t ∧
          Raises s t .misalignedBranchTarget (imm ++ rs1 ++ 0b000#3 ++ rd ++ 0b1100111#7))

/-- R168, R169: LUI and AUIPC. -/
def Obligations.UpperImmediatesWriteTheirResult : Prop :=
  ∀ (rd : RegIdx) (imm : BitVec 20),
    decode (imm ++ rd ++ 0b0110111#7) = .ok (.lui rd imm) ∧
    decode (imm ++ rd ++ 0b0010111#7) = .ok (.auipc rd imm) ∧
    ∀ s : State, s.status = .running →
      (∃ t, exec (.lui rd imm) s = .next t ∧ WritesReg s t rd (imm ++ 0#12) (s.pc + 4)) ∧
      ∃ t, exec (.auipc rd imm) s = .next t ∧ WritesReg s t rd (s.pc + (imm ++ 0#12)) (s.pc + 4)

/-! ### Registers and memory (10_state.md, 20_memory.md) -/

/-- R17: index 0 reads 0 and a write to it is a no-op; every other register reads what was last written to it and is
untouched by a write to another. -/
def Obligations.RegisterZeroIsHardwired : Prop :=
  ∀ (rf : Vector Word 32) (i j : RegIdx) (v : Word),
    readReg rf 0 = 0 ∧ writeReg rf 0 v = rf ∧ (i ≠ 0 → readReg rf i = rf[i.toNat]'(i.isLt)) ∧
      (i ≠ 0 → readReg (writeReg rf i v) i = v) ∧ (j ≠ i → readReg (writeReg rf i v) j = readReg rf j) ∧
      (writeReg rf i v)[0] = rf[0]

/-- R47: byte `i` of `MemRead(addr, n)`, for `n` = 1, 2, 4, is the memory byte at `addr + i` modulo 2^32: little-endian,
at any address, also across 0xFFFFFFFF. -/
def Obligations.MemReadIsLittleEndian : Prop :=
  ∀ (m : Memory) (a : Word),
    memRead8 m a = byteAt m a.toNat ∧
    (∀ i, i < 2 → (memRead16 m a).extractLsb' (8 * i) 8 = byteAt m ((a.toNat + i) % 2 ^ 32)) ∧
    ∀ i, i < 4 → (memRead32 m a).extractLsb' (8 * i) 8 = byteAt m ((a.toNat + i) % 2 ^ 32)

/-- R48: `MemWrite(addr, n, v)`, for `n` = 1, 2, 4, writes byte `i` of `v` at `addr + i` modulo 2^32 and changes no other
byte. The memory is canonical, which every memory a run reaches is. -/
def Obligations.MemWriteChangesOnlyItsBytes : Prop :=
  ∀ (m : Memory) (a v : Word), m.wf →
    (∀ b : Nat, b < 2 ^ 32 → byteAt (memWrite m a .byte v) b =
      if b = a.toNat then v.extractLsb' 0 8 else byteAt m b) ∧
    (∀ b : Nat, b < 2 ^ 32 → byteAt (memWrite m a .half v) b =
      if b = a.toNat then v.extractLsb' 0 8 else if b = (a.toNat + 1) % 2 ^ 32 then v.extractLsb' 8 8
      else byteAt m b) ∧
    ∀ b : Nat, b < 2 ^ 32 → byteAt (memWrite m a .word v) b =
      if b = a.toNat then v.extractLsb' 0 8 else if b = (a.toNat + 1) % 2 ^ 32 then v.extractLsb' 8 8
      else if b = (a.toNat + 2) % 2 ^ 32 then v.extractLsb' 16 8
      else if b = (a.toNat + 3) % 2 ^ 32 then v.extractLsb' 24 8 else byteAt m b

/-- The canonical form of the data memory, a convention of the model, is kept by every store, every instruction and every
cycle, and makes memories with equal bytes equal. -/
def Obligations.MemoryKeepsItsCanonicalForm : Prop :=
  (∀ (m : Memory) (a : Word) (n : Width) (v : Word), m.wf → (memWrite m a n v).wf) ∧
  (∀ (i : Instr) (s t : State), s.mem.wf → exec i s = .next t → t.mem.wf) ∧
  (∀ s t : State, s.mem.wf → step s = .next t → t.mem.wf) ∧
  ∀ m n : Memory, m.wf → n.wf → (∀ a : Word, memRead8 m a = memRead8 n a) → m = n

/-! ### The clock cycle (50_pipeline.md) -/

/-- A step is one clock cycle (R8, R39): a running core takes exactly one, counts it and traces it; the program, which no
store reaches (R59), the policy and register cell 0 stay; a core that is not running holds its state, as the model answers
it (notes/assumptions/5.md). -/
def Obligations.StepTakesOneCycle : Prop :=
  ∀ s : State, ∃ t, step s = .next t ∧ t.prog = s.prog ∧ t.policy = s.policy ∧ t.regs[0] = s.regs[0] ∧
    (s.status ≠ .running → t = s) ∧
    (s.status = .running → t.cycle = s.cycle + 1 ∧ ∃ row, t.trace = s.trace ++ [row])

/-- R173: write-back writes `memToReg ? memData : aluResult` to the `rd` of MEM/WB if it is valid, writes and is not x0,
and nothing otherwise, in every cycle a running core takes, also a halting one; it releases that register's busy marker,
and decode reads the registers as they are after that write. -/
def Obligations.WriteBackCommitsAndDecodeSeesIt : Prop :=
  ∀ s : State, s.status = .running → ∃ t, step s = .next t ∧
    (WillWrite s.memwb → t.x s.memwb.rd = wbVal s.memwb ∧ (∀ r, r ≠ s.memwb.rd → t.x r = s.x r) ∧
      busyOf s.busy1 s.memwb.rd = busyOf s.busy s.memwb.rd - 1) ∧
    (¬WillWrite s.memwb → t.regs = s.regs) ∧
    s.decoded.rs1Val = t.x (s.ifid.instr.extractLsb' 15 5) ∧ s.decoded.rs2Val = t.x (s.ifid.instr.extractLsb' 20 5)

/-- R176: a load in EX/MEM reads at its `aluResult` with the width and extension of its `funct3`, a store writes the low
bytes of its `rs2Val` there; MEM/WB becomes EX/MEM with `memData` set, 0 for no load. Stores take place in a halting cycle
too. The `funct3` values are the spec's general knowledge (R144, R145). -/
def Obligations.MemoryStageLoadsAndStores : Prop :=
  ∀ s : State, s.status = .running → ∃ t, step s = .next t ∧
    (¬(s.exmem.valid = true ∧ s.exmem.ctrl.memWrite = true) → t.mem = s.mem) ∧
    (s.exmem.valid = true → s.exmem.ctrl.memWrite = true →
      (s.exmem.funct3 = 0b000#3 → t.mem = memWrite s.mem s.exmem.aluResult .byte s.exmem.rs2Val) ∧
      (s.exmem.funct3 = 0b001#3 → t.mem = memWrite s.mem s.exmem.aluResult .half s.exmem.rs2Val) ∧
      (s.exmem.funct3 = 0b010#3 → t.mem = memWrite s.mem s.exmem.aluResult .word s.exmem.rs2Val)) ∧
    (s.faultOf = none →
      t.memwb = { s.exmem with memData := t.memwb.memData } ∧
      (¬(s.exmem.valid = true ∧ s.exmem.ctrl.memRead = true) → t.memwb.memData = 0) ∧
      (s.exmem.valid = true → s.exmem.ctrl.memRead = true →
        (s.exmem.funct3 = 0b000#3 → t.memwb.memData = (memRead8 s.mem s.exmem.aluResult).signExtend 32) ∧
        (s.exmem.funct3 = 0b001#3 → t.memwb.memData = (memRead16 s.mem s.exmem.aluResult).signExtend 32) ∧
        (s.exmem.funct3 = 0b010#3 → t.memwb.memData = memRead32 s.mem s.exmem.aluResult) ∧
        (s.exmem.funct3 = 0b100#3 → t.memwb.memData = (memRead8 s.mem s.exmem.aluResult).setWidth 32) ∧
        (s.exmem.funct3 = 0b101#3 → t.memwb.memData = (memRead16 s.mem s.exmem.aluResult).setWidth 32)))

/-- The operands execute uses (R177, R178): as decode read them under `NoForwarding`; under `Forwarding` a used source
goes through the bypass, EX/MEM first, then MEM/WB. That a latch with `rd` 0 never forwards is the spec's own decision
D25. -/
def Obligations.ExecuteTakesItsOperandsThroughTheBypass : Prop :=
  ∀ s : State,
    (s.policy = .noForwarding → s.exA = s.idex.rs1Val ∧ s.exB = s.idex.rs2Val) ∧
    (s.policy = .forwarding →
      (s.idex.ctrl.usesRs1 = true → IsBypass s.exmem s.memwb s.idex.rs1 s.idex.rs1Val s.exA) ∧
      (s.idex.ctrl.usesRs1 = false → s.exA = s.idex.rs1Val) ∧
      (s.idex.ctrl.usesRs2 = true → IsBypass s.exmem s.memwb s.idex.rs2 s.idex.rs2Val s.exB) ∧
      (s.idex.ctrl.usesRs2 = false → s.exB = s.idex.rs2Val))

/-- R180 with R113: EX/MEM becomes ID/EX with the operands used and the result: the immediate for LUI, `pc + imm` for
AUIPC, `pc + 4` for JAL and JALR, else the ALU's on `a` and `aluSrc ? imm : b`; a bubble gives a bubble. One cycle for
every operation. -/
def Obligations.ExecuteStageMakesTheResult : Prop :=
  ∀ s : State, Flows s → ∃ t, step s = .next t ∧
    (s.idex.valid = false → t.exmem = Latch.bubble) ∧
    (s.idex.valid = true →
      t.exmem = { s.idex with rs1Val := s.exA, rs2Val := s.exB, aluResult := t.exmem.aluResult } ∧
      (s.idex.ctrl.kind = .lui → t.exmem.aluResult = s.idex.imm) ∧
      (s.idex.ctrl.kind = .auipc → t.exmem.aluResult = s.idex.pc + s.idex.imm) ∧
      (s.idex.ctrl.kind = .jal ∨ s.idex.ctrl.kind = .jalr → t.exmem.aluResult = s.idex.pc + 4) ∧
      (s.idex.ctrl.kind ∉ [.lui, .auipc, .jal, .jalr] → t.exmem.aluResult =
        alu s.idex.ctrl.aluOp s.exA (if s.idex.ctrl.aluSrc = true then s.idex.imm else s.exB)))

/-- R192: what `Resolve(L, a, b)` answers for a branch (by the condition of its `funct3`), a JAL and a JALR.
The `funct3` values are the spec's general knowledge (R156). -/
def Obligations.ResolveAnswersTargetOrFault : Prop :=
  ∀ (L : Latch) (a b : Word),
    (L.ctrl.kind = .branch → L.funct3 ≠ 0b010#3 → L.funct3 ≠ 0b011#3 →
      (Cond L.funct3 a b → resolve L a b = .redirect (L.pc + L.imm)) ∧
      (¬Cond L.funct3 a b → resolve L a b = .stay)) ∧
    (L.ctrl.kind = .jal → resolve L a b = .redirect (L.pc + L.imm)) ∧
    (L.ctrl.kind = .jalr →
      (((a + L.imm) &&& 0xFFFFFFFE).getLsbD 1 = true →
        resolve L a b = .fault .misalignedBranchTarget L.pc L.instr) ∧
      (((a + L.imm) &&& 0xFFFFFFFE).getLsbD 1 = false → resolve L a b = .redirect ((a + L.imm) &&& 0xFFFFFFFE)))

/-- Where a transfer resolves (R181, R189, R190, R191): under `NoForwarding` a valid branch, JAL or JALR in ID/EX, on the
operands of execute; under `Forwarding` one that issues from decode, on the bypass over this cycle's results. The policy
decides by the spec's own decisions D7 and D8. -/
def Obligations.TransfersResolveWhereThePolicySays : Prop :=
  ∀ s : State,
    (s.policy = .noForwarding → s.idResolution = .stay ∧
      (s.idex.valid = true → s.idex.ctrl.kind ∈ [.branch, .jal, .jalr] →
        s.exResolution = resolve s.idex s.idex.rs1Val s.idex.rs2Val) ∧
      (s.idex.valid = false ∨ s.idex.ctrl.kind ∉ [.branch, .jal, .jalr] → s.exResolution = .stay)) ∧
    (s.policy = .forwarding → s.exResolution = .stay ∧
      (s.issues = true → s.decoded.ctrl.kind ∈ [.branch, .jal, .jalr] →
        ∃ a b, IsBypass s.nextExmem s.nextMemwb (s.ifid.instr.extractLsb' 15 5)
            (readReg s.rf1 (s.ifid.instr.extractLsb' 15 5)) a ∧
          IsBypass s.nextExmem s.nextMemwb (s.ifid.instr.extractLsb' 20 5)
            (readReg s.rf1 (s.ifid.instr.extractLsb' 20 5)) b ∧ s.idResolution = resolve s.decoded a b) ∧
      (s.issues = false ∨ s.decoded.ctrl.kind ∉ [.branch, .jal, .jalr] → s.idResolution = .stay))

/-- R185: under `NoForwarding` the instruction in decode stalls when a source it uses, other than x0, has a busy counter
above 0 after this cycle's release, and only then. -/
def Obligations.NoForwardingStallsOnABusySource : Prop :=
  ∀ s : State, s.policy = .noForwarding → s.ifid.valid = true → s.squash = false → s.idFault = none →
    (s.stalls = true ↔ ∃ r, ReadsSource s r ∧
      0 < (if WillWrite s.memwb ∧ r = s.memwb.rd then busyOf s.busy r - 1 else busyOf s.busy r).toNat)

/-- Under `Forwarding` the instruction in decode stalls exactly when a load in ID/EX writes a source it uses (R186, the
spec's own decision D25). -/
def Obligations.ForwardingStallsOnALoadUseOnly : Prop :=
  ∀ s : State, s.policy = .forwarding → s.ifid.valid = true → s.idFault = none →
    (s.stalls = true ↔ s.idex.valid = true ∧ s.idex.ctrl.memRead = true ∧ ReadsSource s s.idex.rd)

/-- R187: a stall puts a bubble into ID/EX, keeps IF/ID and `pc`, marks nothing busy and resolves nothing in decode. -/
def Obligations.StallHoldsDecodeAndFetch : Prop :=
  ∀ s : State, Flows s → s.stalls = true → ∃ t, step s = .next t ∧
    t.idex = Latch.bubble ∧ t.ifid = s.ifid ∧ t.pc = s.pc ∧ s.idResolution = .stay ∧
    ∀ r, busyOf t.busy r = if WillWrite s.memwb ∧ r = s.memwb.rd then busyOf s.busy r - 1 else busyOf s.busy r

/-- R188: what issues into ID/EX, field by field, with the registers as they are after this cycle's write-back; a bubble in
IF/ID gives a bubble. -/
def Obligations.IssueFillsIdEx : Prop :=
  ∀ s : State, Flows s → ∃ t, step s = .next t ∧
    (s.ifid.valid = false → t.idex = Latch.bubble) ∧
    (s.ifid.valid = true → s.stalls = false → s.squash = false →
      t.idex =
        { valid := true, pc := s.ifid.pc, instr := s.ifid.instr, opcode := s.ifid.instr.extractLsb' 0 7,
          rd := s.ifid.instr.extractLsb' 7 5, funct3 := s.ifid.instr.extractLsb' 12 3,
          rs1 := s.ifid.instr.extractLsb' 15 5, rs2 := s.ifid.instr.extractLsb' 20 5,
          funct7 := s.ifid.instr.extractLsb' 25 7, imm := immOfWord s.ifid.instr,
          ctrl := controlOfWord s.ifid.instr, rs1Val := t.x (s.ifid.instr.extractLsb' 15 5),
          rs2Val := t.x (s.ifid.instr.extractLsb' 20 5), aluResult := 0, memData := 0 })

/-- R193: a redirect sets `pc` to the target, and at most one stage resolves in a cycle. -/
def Obligations.RedirectSetsThePc : Prop :=
  (∀ s : State, Flows s → ∀ target, s.exResolution = .redirect target ∨ s.idResolution = .redirect target →
    ∃ t, step s = .next t ∧ t.pc = target) ∧
  ∀ s : State, s.exResolution = .stay ∨ s.idResolution = .stay

/-- The flush of a redirect (R194, R195): IF/ID becomes a bubble; under `NoForwarding` ID/EX too, even over a stall, with
nothing marked busy and no decode fault raised; under `Forwarding` the transfer itself issues. The spec's own decisions D12
and D20. -/
def Obligations.RedirectFlushesTheYounger : Prop :=
  ∀ s : State, Flows s → s.redirect ≠ none → ∃ t, step s = .next t ∧ t.ifid = Latch.bubble ∧
    (s.policy = .noForwarding → t.idex = Latch.bubble ∧ t.busy = s.busy1 ∧ s.idFault = none ∧ s.stalls = false) ∧
    (s.policy = .forwarding → t.idex = s.decoded)

/-- Fetch and the next `pc` without a redirect (R196, R197): held on a stall; the word at `pc` and `pc + 4` inside the
program; a bubble and `pc` held outside it. The spec's own decision D27. -/
def Obligations.FetchFollowsThePc : Prop :=
  ∀ s : State, Flows s → s.redirect = none → ∃ t, step s = .next t ∧
    (s.stalls = true → t.ifid = s.ifid ∧ t.pc = s.pc) ∧
    (s.stalls = false → ∀ w, s.prog[s.pc.toNat / 4]? = some w → t.pc = s.pc + 4 ∧
      t.ifid = { Latch.bubble with valid := true, pc := s.pc, instr := w }) ∧
    (s.stalls = false → Outside s s.pc → t.pc = s.pc ∧ t.ifid = Latch.bubble)

/-- The busy counters over one cycle that does not halt (R175): one less for the register written back, one more for the
register of the instruction that enters ID/EX, unchanged in net if they are the same. The spec's own decision D10. -/
def Obligations.BusyCountersMarkAndRelease : Prop :=
  ∀ s : State, Flows s → ∃ t, step s = .next t ∧ ∀ r,
    (WillWrite s.memwb ∧ s.memwb.rd = r → ¬(WillWrite t.idex ∧ t.idex.rd = r) →
      busyOf t.busy r = busyOf s.busy r - 1) ∧
    (¬(WillWrite s.memwb ∧ s.memwb.rd = r) → WillWrite t.idex ∧ t.idex.rd = r →
      busyOf t.busy r = busyOf s.busy r + 1) ∧
    (((WillWrite s.memwb ∧ s.memwb.rd = r) ↔ (WillWrite t.idex ∧ t.idex.rd = r)) → busyOf t.busy r = busyOf s.busy r)

/-- The trace row of a cycle (R200): the five slots and their modifiers, all `none` in a halting cycle. The spec's own
decision D21; the list of rows is the model's (notes/assumptions/8.md). -/
def Obligations.EveryCycleAppendsItsTraceRow : Prop :=
  ∀ s : State, s.status = .running → ∃ t, step s = .next t ∧ ∃ fetchMod decodeMod : SlotMod,
    t.trace = s.trace ++ [{ fetch := if s.pc.toNat < 4 * s.prog.length then .occ s.pc fetchMod else .empty,
                            decode := slotOf s.ifid decodeMod, execute := slotOf s.idex .none,
                            memory := slotOf s.exmem .none, writeBack := slotOf s.memwb .none }] ∧
    (s.faultOf ≠ none → fetchMod = .none ∧ decodeMod = .none) ∧
    (s.faultOf = none →
      (s.redirect ≠ none → fetchMod = .flushed) ∧
      (s.redirect = none → s.stalls = true → fetchMod = .stalled) ∧
      (s.redirect = none → s.stalls = false → fetchMod = .none) ∧
      (s.squash = true → decodeMod = .flushed) ∧
      (s.squash = false → s.stalls = true → decodeMod = .stalled) ∧
      (s.squash = false → s.stalls = false → decodeMod = .none))

/-- Completion (R199): at the end of a cycle that does not halt the status is `Completed` if all four latches are bubbles
and `pc` is outside the program, else `Running`. The spec's own decision D32; a bubble is told by its `valid` bit
(notes/assumptions/14.md). -/
def Obligations.CompletesWhenDrained : Prop :=
  ∀ s : State, Flows s → ∃ t, step s = .next t ∧ (t.status = .completed ∨ t.status = .running) ∧
    (t.status = .completed ↔
      t.ifid.valid = false ∧ t.idex.valid = false ∧ t.exmem.valid = false ∧ t.memwb.valid = false ∧ Outside t t.pc)

/-! ### Faults (60_exceptions.md) -/

/-- What halts a running core (R209 to R213), in order of priority: a JALR with a misaligned target in execute
(`NoForwarding`); an instruction in decode, not squashed, that is illegal or a branch or JAL with a misaligned immediate;
a JALR with a misaligned target that issues from decode (`Forwarding`). Nothing else does. The spec's own decisions D12,
D14 and D15. -/
def Obligations.HaltsOnTheseFaultsOnly : Prop :=
  ∀ s : State, s.status = .running → ∃ t, step s = .next t ∧
    (∀ p w, s.exResolution = .fault .misalignedBranchTarget p w → t.status = .halted .misalignedBranchTarget p w) ∧
    ((∀ k p w, s.exResolution ≠ .fault k p w) → s.ifid.valid = true → s.squash = false →
      ((∃ e, decode s.ifid.instr = .error e) → t.status = .halted .illegalOpcode s.ifid.pc s.ifid.instr) ∧
      (∀ i, decode s.ifid.instr = .ok i → (controlOfWord s.ifid.instr).kind ∈ [.branch, .jal] →
        (immOfWord s.ifid.instr).toNat % 4 ≠ 0 →
        t.status = .halted .misalignedBranchTarget s.ifid.pc s.ifid.instr)) ∧
    (∀ k p w, s.idResolution = .fault k p w → t.status = .halted k p w) ∧
    (∀ k p w, t.status = .halted k p w →
      (s.exResolution = .fault k p w ∧ s.policy = .noForwarding ∧ s.idex.ctrl.kind = .jalr ∧
        k = .misalignedBranchTarget ∧ p = s.idex.pc ∧ w = s.idex.instr) ∨
      (s.ifid.valid = true ∧ s.squash = false ∧ p = s.ifid.pc ∧ w = s.ifid.instr ∧
        ((k = .illegalOpcode ∧ ∃ e, decode w = .error e) ∨
          (k = .misalignedBranchTarget ∧ (controlOfWord w).kind ∈ [.branch, .jal] ∧ (immOfWord w).toNat % 4 ≠ 0) ∨
          (k = .misalignedBranchTarget ∧ s.policy = .forwarding ∧ s.issues = true ∧
            (controlOfWord w).kind = .jalr ∧ s.idResolution = .fault k p w))))

/-- The halting cycle (R214): the write-back and the store of this cycle take place; `pc` and the latches keep their
values and nothing is marked busy; the cycle is counted; the status becomes `Halted`. The spec's own decisions D13 and
D33. -/
def Obligations.HaltingCycleFinishesOnlyWriteBackAndStore : Prop :=
  ∀ (s : State) (k : FaultKind) (p w : Word), s.status = .running → s.faultOf = some (k, p, w) →
    ∃ t, step s = .next t ∧ t.status = .halted k p w ∧
      t.pc = s.pc ∧ t.ifid = s.ifid ∧ t.idex = s.idex ∧ t.exmem = s.exmem ∧ t.memwb = s.memwb ∧
      t.cycle = s.cycle + 1 ∧ t.trace.length = s.trace.length + 1 ∧ t.mem = s.nextMem ∧
      (WillWrite s.memwb → t.x s.memwb.rd = wbVal s.memwb) ∧
      (∀ r, ¬(WillWrite s.memwb ∧ r = s.memwb.rd) → t.x r = s.x r) ∧
      ∀ r, busyOf t.busy r = if WillWrite s.memwb ∧ r = s.memwb.rd then busyOf s.busy r - 1 else busyOf s.busy r

/-- `Halted` and `Completed` are left only by loading a program (R37, R216, the spec's own decision D39): no number of
cycles changes such a state, and a run takes none. That the instruction rules do nothing there either is the model's choice
(notes/assumptions/1.md). -/
def Obligations.StoppedCoreStaysStopped : Prop :=
  ∀ (s : State) (n : Nat) (i : Instr), s.status ≠ .running →
    step s = .next s ∧ runCycles n s = (0, s) ∧ exec i s = .next s

/-! ### Reset and the host's calls (70_reset_and_hazards.md) -/

/-- The state after reset (R226), every piece of it. Register and `pc` values are the spec's own decisions D2, D3, D28 and
D32; the policy and the empty program of `State.reset` are the model's (notes/assumptions/2.md and 3.md). -/
def Obligations.ResetPutsEveryPieceAtItsValue : Prop :=
  (∀ (policy : Policy) (prog : List Word), ∃ s, s = State.resetWith policy prog ∧
    (∀ r, s.x r = 0) ∧ (∀ i : Fin 32, s.regs[i] = 0) ∧ s.pc = 0 ∧ s.ifid = Latch.bubble ∧ s.idex = Latch.bubble ∧
    s.exmem = Latch.bubble ∧ s.memwb = Latch.bubble ∧ (∀ r, busyOf s.busy r = 0) ∧ (∀ a, memRead8 s.mem a = 0) ∧
    s.prog = prog ∧ s.policy = policy ∧ s.status = .running ∧ s.cycle = 0 ∧ s.trace = []) ∧
  State.reset = State.resetWith .forwarding []

/-- `loadProgram` (R227): an empty program and one of more than 2^29 words are refused; any other is loaded, word `k` at
address `4k`, and the core is reset. The bound is the spec's own decision D26; the spec names no error for a longer program,
and `tooLong` is the model's name (notes/assumptions/16.md). -/
def Obligations.LoadProgramRefusesOrResets : Prop :=
  ∀ (policy : Policy) (words : List Word),
    (words.length = 0 → loadProgram policy words = .error .emptyProgram) ∧
    (1 ≤ words.length → words.length ≤ 2 ^ 29 → loadProgram policy words = .ok (State.resetWith policy words) ∧
      ∀ k, k < words.length → (State.resetWith policy words).progWord (BitVec.ofNat 32 (4 * k)) = words.getD k 0) ∧
    (2 ^ 29 < words.length → loadProgram policy words = .error .tooLong)

/-- `run` (R228): it takes at most the cycles given, all of them unless the core stops; `run(0)` takes none; and `run(a)`
then `run(b)` is `run(a + b)`. The spec's own decisions D38 and D39. -/
def Obligations.RunsAddUp : Prop :=
  (∀ s : State, runCycles 0 s = (0, s)) ∧
  (∀ (n : Nat) (s : State), (runCycles n s).1 ≤ n ∧
    ((runCycles n s).1 < n → (runCycles n s).2.status ≠ .running) ∧
    (runCycles n s).2.cycle = s.cycle + (runCycles n s).1) ∧
  (∀ (a b : Nat) (s : State), (runCycles (a + b) s).2 = (runCycles b (runCycles a s).2).2 ∧
    (runCycles (a + b) s).1 = (runCycles a s).1 + (runCycles b (runCycles a s).2).1) ∧
  ∀ (n : Word) (s : State), run n s = ((runCycles n.toNat s).1, (runCycles n.toNat s).2.status, (runCycles n.toNat s).2)

/-- What the host reads (R229): a register of index 0 to 31 as signed, 0 for index 0, any other index refused; the
little-endian word at any byte address as signed. The spec's own decision D29. -/
def Obligations.HostReadsRegistersAndMemory : Prop :=
  ∀ s : State,
    (∀ i : RegIdx, readRegister s i.toNat = some (s.x i).toInt) ∧ readRegister s 0 = some 0 ∧
    (∀ n, 32 ≤ n → readRegister s n = none) ∧
    ∀ a : Word, readMemoryWord s a =
      (memRead8 s.mem (a + 3) ++ memRead8 s.mem (a + 2) ++ memRead8 s.mem (a + 1) ++ memRead8 s.mem a : Word).toInt

/-- The trace and the cycle count change nothing in the machine (R202, R220): two cores that differ in them only, take
cycles that differ in them only. -/
def Obligations.TraceAndCycleCountAreNeverRead : Prop :=
  ∀ (s : State) (c : Nat) (tr : List TraceRow) (t t' : State), step s = .next t →
    step { s with cycle := c, trace := tr } = .next t' →
    t'.regs = t.regs ∧ t'.pc = t.pc ∧ t'.ifid = t.ifid ∧ t'.idex = t.idex ∧ t'.exmem = t.exmem ∧ t'.memwb = t.memwb ∧
      t'.busy = t.busy ∧ t'.mem = t.mem ∧ t'.prog = t.prog ∧ t'.policy = t.policy ∧ t'.status = t.status

/-! ### Invariants -/

/-- What holds of every state a run reaches holds after reset, for every program of a legal length and both policies. -/
def Obligations.ResetIsCoherent : Prop :=
  State.reset.Coherent ∧ State.reset.operandsReady ∧
    ∀ (policy : Policy) (prog : List Word), prog.length ≤ maxProgramWords →
      (State.resetWith policy prog).Coherent ∧ (State.resetWith policy prog).operandsReady

/-- Every step keeps `Coherent`: canonical memory, cell 0 at 0, `pc` a multiple of 4 (R23), every latch a bubble or a
fetched and decoded word of the program (R30, R31), exact busy counters (R34), a trace as long as the cycle count. -/
def Obligations.EveryStepKeepsCoherent : Prop :=
  ∀ s t : State, s.Coherent → step s = .next t → t.Coherent

/-- Every step keeps `operandsReady` (R203, which the spec derives): under both policies execute has, for each source read,
the value of the most recent older writer in program order. -/
def Obligations.EveryStepKeepsOperandsReady : Prop :=
  ∀ s t : State, s.Coherent → s.operandsReady → step s = .next t → t.operandsReady

/-- Stalls are short (R204, R233, which the spec derives): no instruction stalls a third time under `NoForwarding` or a
second time under `Forwarding`. -/
def Obligations.StallsAreShort : Prop :=
  ∀ s : State, s.Coherent → s.status = .running → s.stalls = true →
    (s.policy = .noForwarding → s.tick.stalls = true → s.tick.tick.status = .running → s.tick.tick.stalls = false) ∧
    (s.policy = .forwarding → s.tick.stalls = false)

/-- A running core keeps going: within three cycles an instruction issues, or the core has stopped. -/
def Obligations.AnInstructionIssuesWithinThreeCycles : Prop :=
  ∀ s : State, s.Coherent →
    s.issues = true ∨ s.tick.issues = true ∨ s.tick.tick.issues = true ∨ s.tick.tick.tick.status ≠ .running

/-! ### The pipeline and the instruction rules (00_scope.md R13, 50_pipeline.md R203) -/

/-- An instruction's meaning in isolation is what the stages make of it one after the other: decode, execute, memory and
write-back, each the function the clock cycle uses, applied to the instruction's own word. -/
def Obligations.StagesInARowAreTheMeaning : Prop :=
  ∀ (i : Instr) (s : State), i.wellFormed = true → s.status = .running →
    exec i s = .next (s.runAlone (encode i))

/-- A step runs the decoded instruction: with nothing ahead of it in the pipeline, the instruction `i` in decode, the word
of the program at its address, enters ID/EX and is, once it finishes, `exec i` at that address; or the step halts as
`exec i` does. A step of this machine is a cycle, in which an instruction passes one stage; `drained` finishes it. -/
def Obligations.StepRunsTheDecodedInstruction : Prop :=
  ∀ (s : State) (i : Instr), s.Coherent → s.status = .running → s.ifid.valid = true →
    decode s.ifid.instr = .ok i → s.idex = Latch.bubble → s.exmem = Latch.bubble → s.memwb = Latch.bubble →
    s.prog[s.ifid.pc.toNat / 4]? = some s.ifid.instr ∧
    ∃ t u, step s = .next t ∧ exec i { s with pc := s.ifid.pc } = .next u ∧
      ((t.status = .running ∧ t.idex.valid = true ∧ t.idex.pc = s.ifid.pc ∧ t.idex.instr = s.ifid.instr ∧
          t.regs = s.regs ∧ t.mem = s.mem ∧ t.drained.arch = u.arch) ∨
        (t.status = u.status ∧ u.status ≠ .running ∧ t.regs = u.regs ∧ t.mem = u.mem))

/-- One cycle of the pipeline against the instruction rules, in program order: a cycle in which nothing issues changes
neither registers nor memory nor `pc`; a cycle in which an instruction issues does to them exactly what `exec` of that
instruction does. The spec calls this equivalence a property to prove of the model. -/
def Obligations.IssuingIsExecutingInProgramOrder : Prop :=
  ∀ s t : State, s.Coherent → s.status = .running → step s = .next t →
    (∀ k p w, t.status ≠ .halted k p w) →
    (s.issues = false → t.drained.arch = s.drained.arch) ∧
    (s.issues = true → ∃ i u, decode s.ifid.instr = .ok i ∧ s.drained.pc = s.ifid.pc ∧
      exec i s.drained = .next u ∧ t.drained.arch = u.arch)

/-- A halt is the halt of sequential execution: the instruction that halts the pipeline is the next in program order, it
raises the same fault there, and registers, memory and `pc` of program order are as before. -/
def Obligations.HaltingIsRaisingInProgramOrder : Prop :=
  ∀ (s t : State) (k : FaultKind) (p w : Word), s.Coherent → s.operandsReady → s.status = .running →
    step s = .next t → t.status = .halted k p w →
    s.drained.sequentialStep.status = .halted k p w ∧ s.drained.pc = p ∧
      t.drained.arch = s.drained.arch ∧ s.drained.sequentialStep.arch = s.drained.arch

/-- Every run of the pipeline, of every loaded program under either policy, refines sequential execution by the
instruction rules: after `n` cycles some `m ≤ n` instructions have been executed, and registers, memory, `pc` in program
order and the status are those after `m` sequential steps. -/
def Obligations.EveryRunRefinesSequentialExecution : Prop :=
  ∀ (policy : Policy) (words : List Word) (s : State), loadProgram policy words = .ok s →
    ∀ n, ∃ m, m ≤ n ∧ (runCycles n s).2.Refines (State.sequentialRun m s)

/-- A program that ends (leaves the program or halts) after `m` steps of sequential execution ends in the pipeline within
`3m + 3` cycles, under either policy. -/
def Obligations.ProgramsEndWithinThreeCyclesAnInstruction : Prop :=
  ∀ (policy : Policy) (words : List Word) (s : State) (m : Nat), loadProgram policy words = .ok s →
    ((State.sequentialRun m s).status ≠ .running ∨ Outside (State.sequentialRun m s) (State.sequentialRun m s).pc) →
    (runCycles (3 * m + 3) s).2.status ≠ .running

/-- The two policies give the same results for every program (R203, which the spec derives): if both runs have ended, they
have ended in the same way, with the same fault record if any, and a completed run leaves the same registers and the same
memory. -/
def Obligations.PoliciesGiveTheSameResults : Prop :=
  ∀ (words : List Word) (s s' : State) (n n' : Nat),
    loadProgram .noForwarding words = .ok s → loadProgram .forwarding words = .ok s' →
    (runCycles n s).2.status ≠ .running → (runCycles n' s').2.status ≠ .running →
    (runCycles n s).2.status = (runCycles n' s').2.status ∧
      ((runCycles n s).2.status = .completed →
        (runCycles n s).2.regs = (runCycles n' s').2.regs ∧ (runCycles n s).2.mem = (runCycles n' s').2.mem)
end

