-- ==== Sys2Proof/Laws/Memory.lean ====
section
/-! SUPPORT. The data memory: a byte read after a byte written, wider accesses, and the canonical form every operation
keeps (20_memory.md R43, R44, R47 to R50). -/

namespace Sys2Proof.Machine

/-! ### One byte -/

/-- A write leaves every other address as it was; in any list, canonical or not. -/
theorem byteAt_setByte_other (m : Memory) (a b : Nat) (v : Byte) (h : b ≠ a) :
    byteAt (setByte m a v) b = byteAt m b := by
  induction m with
  | nil => by_cases hv : v = 0#8 <;> simp [setByte, byteAt, hv, Ne.symm h]
  | cons c rest ih =>
    obtain ⟨k, x⟩ := c
    rcases Nat.lt_trichotomy a k with hk | hk | hk
    · by_cases hv : v = 0#8 <;> simp [setByte, byteAt, hk, hv, Ne.symm h]
    · subst hk
      by_cases hv : v = 0#8 <;> simp [setByte, byteAt, hv, Ne.symm h]
    · have h1 : ¬a < k := by omega
      have h2 : ¬a = k := by omega
      simp [setByte, byteAt, h1, h2, ih]

/-- An address below every listed one reads 0 (R44). -/
theorem byteAt_below (m : Memory) (a : Nat) (h : ∀ c ∈ m, a < c.1) : byteAt m a = 0 := by
  induction m with
  | nil => rfl
  | cons c rest ih =>
    obtain ⟨k, x⟩ := c
    have hk : a < k := h (k, x) (by simp)
    have : ¬k = a := by omega
    simp only [byteAt, this, if_false]
    exact ih fun c hc => h c (by simp [hc])

/-- The head of a canonical memory is below the rest, which is canonical. -/
theorem wf_cons {k : Nat} {x : Byte} {rest : Memory} (h : Memory.wf ((k, x) :: rest)) :
    (∀ c ∈ rest, k < c.1) ∧ k < 2 ^ 32 ∧ x ≠ 0 ∧ Memory.wf rest := by
  obtain ⟨hp, hb⟩ := h
  rw [List.pairwise_cons] at hp
  exact ⟨fun c hc => hp.1 c hc, (hb (k, x) (by simp)).1, (hb (k, x) (by simp)).2, hp.2, fun c hc => hb c (by simp [hc])⟩

/-- A canonical memory made longer at the front. -/
theorem wf_of_cons {k : Nat} {x : Byte} {rest : Memory} (h1 : ∀ c ∈ rest, k < c.1) (h2 : k < 2 ^ 32) (h3 : x ≠ 0)
    (h4 : Memory.wf rest) : Memory.wf ((k, x) :: rest) := by
  refine ⟨List.pairwise_cons.2 ⟨h1, h4.1⟩, ?_⟩
  intro c hc
  rcases List.mem_cons.1 hc with rfl | hc
  · exact ⟨h2, h3⟩
  · exact h4.2 c hc

/-- The address written reads the byte written. -/
theorem byteAt_setByte_same (m : Memory) (a : Nat) (v : Byte) (h : Memory.wf m) : byteAt (setByte m a v) a = v := by
  induction m with
  | nil => by_cases hv : v = 0#8 <;> simp [setByte, byteAt, hv]
  | cons c rest ih =>
    obtain ⟨k, x⟩ := c
    obtain ⟨hlt, -, -, hw⟩ := wf_cons h
    rcases Nat.lt_trichotomy a k with hk | hk | hk
    · by_cases hv : v = 0#8
      · have h2 : ¬k = a := by omega
        subst hv
        show byteAt (setByte ((k, x) :: rest) a 0) a = 0
        simp only [setByte, hk, if_true, byteAt, h2, if_false]
        exact byteAt_below rest a fun c hc => by have := hlt c hc; omega
      · simp [setByte, byteAt, hk, hv]
    · subst hk
      by_cases hv : v = 0#8
      · simp only [setByte, hv, Nat.lt_irrefl, if_true, if_false]
        exact byteAt_below rest a hlt
      · simp [setByte, byteAt, hv]
    · have h1 : ¬a < k := by omega
      have h2 : ¬a = k := by omega
      have h3 : ¬k = a := by omega
      simp [setByte, byteAt, h1, h2, h3, ih hw]

/-- A listed address of the memory after a write was listed before, or is the one written. -/
theorem mem_setByte {m : Memory} {a : Nat} {v : Byte} {c : Host.Cell} (h : c ∈ setByte m a v) :
    c ∈ m ∨ (c = (a, v) ∧ v ≠ 0) := by
  induction m with
  | nil =>
    by_cases hv : v = 0#8 <;> simp_all [setByte]
  | cons d rest ih =>
    obtain ⟨k, x⟩ := d
    by_cases h1 : a < k
    · by_cases hv : v = 0#8 <;> simp_all [setByte]
      tauto
    · by_cases h2 : a = k
      · by_cases hv : v = 0#8 <;> simp_all [setByte]
        tauto
      · simp only [setByte, h1, h2, if_false, List.mem_cons] at h
        rcases h with h | h
        · exact .inl (by simp [h])
        · rcases ih h with h | h
          · exact .inl (by simp [h])
          · exact .inr h

/-- A write inside the address space keeps the canonical form. -/
theorem wf_setByte {m : Memory} (a : Nat) (v : Byte) (ha : a < 2 ^ 32) (h : Memory.wf m) :
    Memory.wf (setByte m a v) := by
  induction m with
  | nil =>
    by_cases hv : v = 0#8
    · simp [setByte, hv, Memory.wf]
    · simpa [setByte, hv] using wf_of_cons (rest := []) (by simp) ha hv h
  | cons c rest ih =>
    obtain ⟨k, x⟩ := c
    obtain ⟨hlt, hk, hx, hw⟩ := wf_cons h
    by_cases h1 : a < k
    · by_cases hv : v = 0#8
      · simpa [setByte, h1, hv] using h
      · replace hv : ¬v = 0 := hv
        simp only [setByte, h1, hv, if_true, if_false]
        refine wf_of_cons ?_ ha hv h
        intro c hc
        rcases List.mem_cons.1 hc with rfl | hc
        · exact h1
        · have := hlt c hc; omega
    · by_cases h2 : a = k
      · subst h2
        by_cases hv : v = 0#8
        · simpa [setByte, hv] using hw
        · replace hv : ¬v = 0 := hv
          simp only [setByte, hv, Nat.lt_irrefl, if_true, if_false]
          exact wf_of_cons hlt ha hv hw
      · simp only [setByte, h1, h2, if_false]
        refine wf_of_cons ?_ hk hx (ih hw)
        intro c hc
        rcases mem_setByte hc with hc | ⟨rfl, -⟩
        · exact hlt c hc
        · show k < a; omega

/-- A byte of a canonical memory that is not 0 is listed. -/
theorem mem_of_byteAt {m : Memory} {a : Nat} (h : byteAt m a ≠ 0) : (a, byteAt m a) ∈ m := by
  induction m with
  | nil => simp [byteAt] at h
  | cons c rest ih =>
    obtain ⟨k, x⟩ := c
    by_cases hk : k = a
    · simp [byteAt, hk]
    · simp only [byteAt, hk, if_false] at h ⊢
      exact List.mem_cons_of_mem _ (ih h)

/-- Canonical memories that read the same at every address are the same list. -/
theorem memory_ext {m n : Memory} (hm : Memory.wf m) (hn : Memory.wf n) (h : ∀ a, byteAt m a = byteAt n a) : m = n := by
  induction m generalizing n with
  | nil =>
    cases n with
    | nil => rfl
    | cons d rest =>
      obtain ⟨k, x⟩ := d
      have := h k
      simp [byteAt] at this
      exact absurd this.symm (wf_cons hn).2.2.1
  | cons c rest ih =>
    obtain ⟨k, x⟩ := c
    obtain ⟨hlt, -, hx, hw⟩ := wf_cons hm
    cases n with
    | nil =>
      have := h k
      simp [byteAt] at this
      exact absurd this hx
    | cons d rest' =>
      obtain ⟨k', x'⟩ := d
      obtain ⟨hlt', -, hx', hw'⟩ := wf_cons hn
      have hkk : k = k' := by
        rcases Nat.lt_trichotomy k k' with hc | hc | hc
        · have h1 := h k
          have h2 : byteAt ((k', x') :: rest') k = 0 := by
            apply byteAt_below
            intro c hmem
            rcases List.mem_cons.1 hmem with rfl | hmem
            · exact hc
            · have := hlt' c hmem; omega
          rw [h2] at h1
          simp [byteAt] at h1
          exact absurd h1 hx
        · exact hc
        · have h1 := h k'
          have h2 : byteAt ((k, x) :: rest) k' = 0 := by
            apply byteAt_below
            intro c hmem
            rcases List.mem_cons.1 hmem with rfl | hmem
            · exact hc
            · have := hlt c hmem; omega
          rw [h2] at h1
          simp [byteAt] at h1
          exact absurd h1.symm hx'
      subst hkk
      have hxx : x = x' := by simpa [byteAt] using h k
      subst hxx
      congr 1
      apply ih hw hw'
      intro a
      by_cases ha : k = a
      · subst ha; rw [byteAt_below rest k hlt, byteAt_below rest' k hlt']
      · simpa [byteAt, ha] using h a

/-- A canonical memory lists nothing beyond the address space. -/
theorem byteAt_beyond {m : Memory} (h : Memory.wf m) {a : Nat} (ha : 2 ^ 32 ≤ a) : byteAt m a = 0 := by
  by_contra hc
  have := (h.2 _ (mem_of_byteAt hc)).1
  simp only at this
  omega

/-- Canonical memories in which the 2^32 bytes read the same are the same list. -/
theorem memory_ext_words {m n : Memory} (hm : Memory.wf m) (hn : Memory.wf n)
    (h : ∀ a : Word, memRead8 m a = memRead8 n a) : m = n := by
  apply memory_ext hm hn
  intro a
  by_cases ha : a < 2 ^ 32
  · have := h (BitVec.ofNat 32 a)
    simpa only [memRead8, BitVec.toNat_ofNat, Nat.mod_eq_of_lt ha] using this
  · rw [byteAt_beyond hm (by omega), byteAt_beyond hn (by omega)]

/-! ### Wider accesses -/

/-- `MemWrite(a, 1, v)` leaves the other addresses. -/
theorem memRead8_memWrite8_other (m : Memory) (a b : Word) (v : Byte) (h : b ≠ a) :
    memRead8 (memWrite8 m a v) b = memRead8 m b :=
  byteAt_setByte_other m _ _ v fun e => h (BitVec.eq_of_toNat_eq e)

/-- `MemWrite(a, 1, v)` is read back. -/
theorem memRead8_memWrite8_same (m : Memory) (a : Word) (v : Byte) (h : Memory.wf m) :
    memRead8 (memWrite8 m a v) a = v := byteAt_setByte_same m _ v h

/-- `MemWrite(a, 1, v)` keeps the canonical form. -/
theorem wf_memWrite8 {m : Memory} (a : Word) (v : Byte) (h : Memory.wf m) : Memory.wf (memWrite8 m a v) :=
  wf_setByte _ v a.isLt h

/-- `MemWrite` keeps the canonical form. -/
theorem wf_memWrite {m : Memory} (a : Word) (n : Width) (v : Word) (h : Memory.wf m) : Memory.wf (memWrite m a n v) := by
  cases n
  · exact wf_memWrite8 _ _ h
  · exact wf_memWrite8 _ _ (wf_memWrite8 _ _ h)
  · exact wf_memWrite8 _ _ (wf_memWrite8 _ _ (wf_memWrite8 _ _ (wf_memWrite8 _ _ h)))

/-- An address `b` is none of `a`, `a + 1`, … if its distance from `a` is no smaller than the width. -/
theorem ne_add_of_le_sub {a b : Word} {k : Nat} (h : k < (b - a).toNat) (c : Word)
    (hc : c.toNat ≤ k) : b ≠ a + c := by
  rintro rfl
  have : a + c - a = c := by rw [BitVec.add_comm, BitVec.add_sub_cancel]
  rw [this] at h
  omega

/-- A store leaves every byte outside the stored ones (R48). -/
theorem memRead8_memWrite_other (m : Memory) (a b : Word) (n : Width) (v : Word) (h : n.bytes ≤ (b - a).toNat) :
    memRead8 (memWrite m a n v) b = memRead8 m b := by
  have hz : ∀ k, k < (b - a).toNat → ∀ c : Word, c.toNat ≤ k → b ≠ a + c := fun k hk c hc =>
    ne_add_of_le_sub hk c hc
  have h0 : 0 < (b - a).toNat → b ≠ a := fun h => by simpa using hz 0 h 0 (by simp)
  cases n
  · exact memRead8_memWrite8_other _ _ _ _ (h0 h)
  · simp only [Width.bytes] at h
    simp only [memWrite]
    rw [memRead8_memWrite8_other _ _ _ _ (hz 1 (by omega) 1 (by simp)), memRead8_memWrite8_other _ _ _ _ (h0 (by omega))]
  · simp only [Width.bytes] at h
    simp only [memWrite]
    rw [memRead8_memWrite8_other _ _ _ _ (hz 3 (by omega) 3 (by simp)),
      memRead8_memWrite8_other _ _ _ _ (hz 3 (by omega) 2 (by simp)),
      memRead8_memWrite8_other _ _ _ _ (hz 3 (by omega) 1 (by simp)), memRead8_memWrite8_other _ _ _ _ (h0 (by omega))]

/-- Two different small distances from one address are two addresses. -/
theorem add_ne_add (a c d : Word) (h : c ≠ d) : a + c ≠ a + d := fun e => h (by simpa using e)

/-- Every byte after a store: byte `k` of the value at distance `k` from the address, up to the width; all others as
before (R48). -/
theorem memRead8_memWrite (m : Memory) (a b : Word) (n : Width) (v : Word) (h : Memory.wf m) :
    memRead8 (memWrite m a n v) b =
      if (b - a).toNat < n.bytes then v.extractLsb' (8 * (b - a).toNat) 8 else memRead8 m b := by
  by_cases hb : (b - a).toNat < n.bytes
  · rw [if_pos hb]
    have w1 := wf_memWrite8 a (v.extractLsb' 0 8) h
    have w2 := wf_memWrite8 (a + 1) (v.extractLsb' 8 8) w1
    have w3 := wf_memWrite8 (a + 2) (v.extractLsb' 16 8) w2
    have n01 : a ≠ a + 1 := by simp
    have n02 : a ≠ a + 2 := by simp
    have n03 : a ≠ a + 3 := by simp
    have n12 : a + 1 ≠ a + 2 := add_ne_add a 1 2 (by decide)
    have n13 : a + 1 ≠ a + 3 := add_ne_add a 1 3 (by decide)
    have n23 : a + 2 ≠ a + 3 := add_ne_add a 2 3 (by decide)
    have hbe : b = a + BitVec.ofNat 32 (b - a).toNat := by
      rw [BitVec.ofNat_toNat, BitVec.setWidth_eq, BitVec.add_comm, BitVec.sub_add_cancel]
    generalize (b - a).toNat = k at hb hbe
    subst hbe
    cases n <;> simp only [Width.bytes] at hb <;> interval_cases k <;>
      simp only [memWrite, BitVec.add_zero, BitVec.ofNat_eq_ofNat, Nat.mul_zero, Nat.mul_one, Nat.reduceMul] at *
    · exact memRead8_memWrite8_same _ _ _ h
    · rw [memRead8_memWrite8_other _ _ _ _ n01]; exact memRead8_memWrite8_same _ _ _ h
    · exact memRead8_memWrite8_same _ _ _ w1
    · rw [memRead8_memWrite8_other _ _ _ _ n03, memRead8_memWrite8_other _ _ _ _ n02,
        memRead8_memWrite8_other _ _ _ _ n01]; exact memRead8_memWrite8_same _ _ _ h
    · rw [memRead8_memWrite8_other _ _ _ _ n13, memRead8_memWrite8_other _ _ _ _ n12]
      exact memRead8_memWrite8_same _ _ _ w1
    · rw [memRead8_memWrite8_other _ _ _ _ n23]; exact memRead8_memWrite8_same _ _ _ w2
    · exact memRead8_memWrite8_same _ _ _ w3
  · rw [if_neg hb]
    exact memRead8_memWrite_other m a b n v (by omega)

/-- A store done twice is a store. -/
theorem memWrite_twice {m : Memory} (h : Memory.wf m) (a : Word) (n : Width) (v : Word) :
    memWrite (memWrite m a n v) a n v = memWrite m a n v := by
  have h1 := wf_memWrite a n v h
  apply memory_ext_words (wf_memWrite a n v h1) h1
  intro b
  rw [memRead8_memWrite _ _ _ _ _ h1, memRead8_memWrite _ _ _ _ _ h]
  split <;> rfl

/-- `MemRead(a, 1)` after `MemWrite(a, 1, v)` (R47, R48). -/
theorem memRead8_memWrite_byte (m : Memory) (a v : Word) (h : Memory.wf m) :
    memRead8 (memWrite m a .byte v) a = v.extractLsb' 0 8 := memRead8_memWrite8_same _ _ _ h

/-- `MemRead(a, 2)` after `MemWrite(a, 2, v)` (R47, R48). -/
theorem memRead16_memWrite_half (m : Memory) (a v : Word) (h : Memory.wf m) :
    memRead16 (memWrite m a .half v) a = v.extractLsb' 8 8 ++ v.extractLsb' 0 8 := by
  have h1 : a ≠ a + 1 := by simp
  unfold memRead16
  simp only [memWrite]
  rw [memRead8_memWrite8_same _ _ _ (wf_memWrite8 _ _ h), memRead8_memWrite8_other _ _ _ _ h1,
    memRead8_memWrite8_same _ _ _ h]

/-- `MemRead(a, 4)` after `MemWrite(a, 4, v)` (R47, R48). -/
theorem memRead32_memWrite_word (m : Memory) (a v : Word) (h : Memory.wf m) :
    memRead32 (memWrite m a .word v) a = v := by
  have n01 : a ≠ a + 1 := by simp
  have n02 : a ≠ a + 2 := by simp
  have n03 : a ≠ a + 3 := by simp
  have n12 : a + 1 ≠ a + 2 := add_ne_add a 1 2 (by decide)
  have n13 : a + 1 ≠ a + 3 := add_ne_add a 1 3 (by decide)
  have n23 : a + 2 ≠ a + 3 := add_ne_add a 2 3 (by decide)
  have w1 := wf_memWrite8 a (v.extractLsb' 0 8) h
  have w2 := wf_memWrite8 (a + 1) (v.extractLsb' 8 8) w1
  have w3 := wf_memWrite8 (a + 2) (v.extractLsb' 16 8) w2
  unfold memRead32
  simp only [memWrite]
  rw [memRead8_memWrite8_same _ _ _ w3, memRead8_memWrite8_other _ _ _ _ n23, memRead8_memWrite8_same _ _ _ w2,
    memRead8_memWrite8_other _ _ _ _ n13, memRead8_memWrite8_other _ _ _ _ n12, memRead8_memWrite8_same _ _ _ w1,
    memRead8_memWrite8_other _ _ _ _ n03, memRead8_memWrite8_other _ _ _ _ n02, memRead8_memWrite8_other _ _ _ _ n01,
    memRead8_memWrite8_same _ _ _ h]
  apply BitVec.eq_of_getLsbD_eq
  intro i hi
  simp only [BitVec.getLsbD_append, BitVec.getLsbD_extractLsb']
  interval_cases i <;> simp

end Sys2Proof.Machine
end

