-- ==== Sys2Proof/Laws/Registers.lean ====
section
/-! SUPPORT. The register file and the busy counters, read after written (10_state.md R17, R33; 50_pipeline.md R175). -/

namespace Sys2Proof.Machine

/-- Index 0 reads 0 (R17). -/
@[simp] theorem readReg_zero (rf : Vector Word 32) : readReg rf 0 = 0 := by simp [readReg]

/-- A write to index 0 is a no-op (R17). -/
@[simp] theorem writeReg_zero (rf : Vector Word 32) (v : Word) : writeReg rf 0 v = rf := by simp [writeReg]

/-- Two indices of a vector of 32 are the same place only if they are the same register. -/
theorem regIdx_toNat_ne {r q : RegIdx} (h : r ≠ q) : r.toNat ≠ q.toNat := fun e => h (BitVec.eq_of_toNat_eq e)

/-- A read after a write: the value at the index written, unless it is 0; every other index as before (R17). -/
theorem readReg_writeReg (rf : Vector Word 32) (r q : RegIdx) (v : Word) :
    readReg (writeReg rf r v) q = if q = r ∧ r ≠ 0 then v else readReg rf q := by
  unfold readReg writeReg
  by_cases hr : r = 0
  · simp [hr]
  · replace hr : ¬r = 0#5 := hr
    by_cases hq : q = r
    · subst hq; simp [hr]
    · simp [hr, hq, regIdx_toNat_ne (Ne.symm hq)]

/-- `readReg_writeReg` at the index written. -/
theorem readReg_writeReg_same (rf : Vector Word 32) (r : RegIdx) (v : Word) (h : r ≠ 0) :
    readReg (writeReg rf r v) r = v := by
  rw [readReg_writeReg, if_pos ⟨rfl, h⟩]

/-- `readReg_writeReg` at another index. -/
theorem readReg_writeReg_other (rf : Vector Word 32) (r q : RegIdx) (v : Word) (h : q ≠ r) :
    readReg (writeReg rf r v) q = readReg rf q := by simp [readReg_writeReg, h]

/-- Cell 0 is never written (R17, R20). -/
@[simp] theorem writeReg_cell_zero (rf : Vector Word 32) (r : RegIdx) (v : Word) : (writeReg rf r v)[0] = rf[0] := by
  unfold writeReg
  split
  · rfl
  · rename_i h
    have : r.toNat ≠ 0 := regIdx_toNat_ne h
    simp [Vector.getElem_set_ne, this]

/-- Two register files whose registers read the same, and whose cells 0 agree, are equal. -/
theorem regs_ext {a b : Vector Word 32} (h0 : a[0] = b[0]) (h : ∀ r, readReg a r = readReg b r) : a = b := by
  apply Vector.ext
  intro i hi
  by_cases h1 : i = 0
  · subst h1; exact h0
  · have := h (BitVec.ofNat 5 i)
    have hn : ¬BitVec.ofNat 5 i = 0#5 := by
      intro e
      have := congrArg BitVec.toNat e
      simp only [BitVec.toNat_ofNat] at this
      rw [Nat.mod_eq_of_lt (by omega)] at this
      exact h1 (by simpa using this)
    have hm : i % 32 = i := Nat.mod_eq_of_lt hi
    simp [readReg, hn] at this
    simpa only [hm] using this

/-! ### Busy counters -/

/-- A counter read after a counter is set. -/
theorem busyOf_set (b : Vector (BitVec 2) 32) (r q : RegIdx) (v : BitVec 2) :
    busyOf (b.set r.toNat v r.isLt) q = if q = r then v else busyOf b q := by
  unfold busyOf
  by_cases hq : q = r
  · subst hq; simp
  · have h : r.toNat ≠ q.toNat := regIdx_toNat_ne (Ne.symm hq)
    simp [hq, Vector.getElem_set_ne, h]

/-- A marked counter is one more, the others as before (R175). -/
theorem busyOf_markBusy (b : Vector (BitVec 2) 32) (r q : RegIdx) :
    busyOf (markBusy b r) q = if q = r then busyOf b r + 1 else busyOf b q := busyOf_set ..

/-- A released counter is one less, the others as before (R175). -/
theorem busyOf_clearBusy (b : Vector (BitVec 2) 32) (r q : RegIdx) :
    busyOf (clearBusy b r) q = if q = r then busyOf b r - 1 else busyOf b q := busyOf_set ..

end Sys2Proof.Machine
end

