-- ==== Sys2Proof/Laws/State.lean ====
section
/-! SUPPORT. What each update of the state leaves in each field, one lemma a field, so that no proof unfolds a record
update. -/

namespace Sys2Proof.Machine

/-! ### `setX` -/

@[simp] theorem setX_regs (s : State) (rd : RegIdx) (v : Word) : (s.setX rd v).regs = writeReg s.regs rd v := rfl
@[simp] theorem setX_pc (s : State) (rd : RegIdx) (v : Word) : (s.setX rd v).pc = s.pc := rfl
@[simp] theorem setX_ifid (s : State) (rd : RegIdx) (v : Word) : (s.setX rd v).ifid = s.ifid := rfl
@[simp] theorem setX_idex (s : State) (rd : RegIdx) (v : Word) : (s.setX rd v).idex = s.idex := rfl
@[simp] theorem setX_exmem (s : State) (rd : RegIdx) (v : Word) : (s.setX rd v).exmem = s.exmem := rfl
@[simp] theorem setX_memwb (s : State) (rd : RegIdx) (v : Word) : (s.setX rd v).memwb = s.memwb := rfl
@[simp] theorem setX_busy (s : State) (rd : RegIdx) (v : Word) : (s.setX rd v).busy = s.busy := rfl
@[simp] theorem setX_mem (s : State) (rd : RegIdx) (v : Word) : (s.setX rd v).mem = s.mem := rfl
@[simp] theorem setX_prog (s : State) (rd : RegIdx) (v : Word) : (s.setX rd v).prog = s.prog := rfl
@[simp] theorem setX_policy (s : State) (rd : RegIdx) (v : Word) : (s.setX rd v).policy = s.policy := rfl
@[simp] theorem setX_status (s : State) (rd : RegIdx) (v : Word) : (s.setX rd v).status = s.status := rfl
@[simp] theorem setX_cycle (s : State) (rd : RegIdx) (v : Word) : (s.setX rd v).cycle = s.cycle := rfl
@[simp] theorem setX_trace (s : State) (rd : RegIdx) (v : Word) : (s.setX rd v).trace = s.trace := rfl

/-! ### `goto` -/

@[simp] theorem goto_regs (s : State) (t : Word) : (s.goto t).regs = s.regs := rfl
@[simp] theorem goto_pc (s : State) (t : Word) : (s.goto t).pc = t := rfl
@[simp] theorem goto_ifid (s : State) (t : Word) : (s.goto t).ifid = s.ifid := rfl
@[simp] theorem goto_idex (s : State) (t : Word) : (s.goto t).idex = s.idex := rfl
@[simp] theorem goto_exmem (s : State) (t : Word) : (s.goto t).exmem = s.exmem := rfl
@[simp] theorem goto_memwb (s : State) (t : Word) : (s.goto t).memwb = s.memwb := rfl
@[simp] theorem goto_busy (s : State) (t : Word) : (s.goto t).busy = s.busy := rfl
@[simp] theorem goto_mem (s : State) (t : Word) : (s.goto t).mem = s.mem := rfl
@[simp] theorem goto_prog (s : State) (t : Word) : (s.goto t).prog = s.prog := rfl
@[simp] theorem goto_policy (s : State) (t : Word) : (s.goto t).policy = s.policy := rfl
@[simp] theorem goto_status (s : State) (t : Word) : (s.goto t).status = s.status := rfl
@[simp] theorem goto_cycle (s : State) (t : Word) : (s.goto t).cycle = s.cycle := rfl
@[simp] theorem goto_trace (s : State) (t : Word) : (s.goto t).trace = s.trace := rfl

/-! ### `advance` -/

@[simp] theorem advance_regs (s : State) : (s.advance).regs = s.regs := rfl
@[simp] theorem advance_pc (s : State) : (s.advance).pc = s.pc + 4 := rfl
@[simp] theorem advance_ifid (s : State) : (s.advance).ifid = s.ifid := rfl
@[simp] theorem advance_idex (s : State) : (s.advance).idex = s.idex := rfl
@[simp] theorem advance_exmem (s : State) : (s.advance).exmem = s.exmem := rfl
@[simp] theorem advance_memwb (s : State) : (s.advance).memwb = s.memwb := rfl
@[simp] theorem advance_busy (s : State) : (s.advance).busy = s.busy := rfl
@[simp] theorem advance_mem (s : State) : (s.advance).mem = s.mem := rfl
@[simp] theorem advance_prog (s : State) : (s.advance).prog = s.prog := rfl
@[simp] theorem advance_policy (s : State) : (s.advance).policy = s.policy := rfl
@[simp] theorem advance_status (s : State) : (s.advance).status = s.status := rfl
@[simp] theorem advance_cycle (s : State) : (s.advance).cycle = s.cycle := rfl
@[simp] theorem advance_trace (s : State) : (s.advance).trace = s.trace := rfl

/-! ### `store` -/

@[simp] theorem store_regs (s : State) (a : Word) (n : Width) (v : Word) : (s.store a n v).regs = s.regs := rfl
@[simp] theorem store_pc (s : State) (a : Word) (n : Width) (v : Word) : (s.store a n v).pc = s.pc := rfl
@[simp] theorem store_ifid (s : State) (a : Word) (n : Width) (v : Word) : (s.store a n v).ifid = s.ifid := rfl
@[simp] theorem store_idex (s : State) (a : Word) (n : Width) (v : Word) : (s.store a n v).idex = s.idex := rfl
@[simp] theorem store_exmem (s : State) (a : Word) (n : Width) (v : Word) : (s.store a n v).exmem = s.exmem := rfl
@[simp] theorem store_memwb (s : State) (a : Word) (n : Width) (v : Word) : (s.store a n v).memwb = s.memwb := rfl
@[simp] theorem store_busy (s : State) (a : Word) (n : Width) (v : Word) : (s.store a n v).busy = s.busy := rfl
@[simp] theorem store_mem (s : State) (a : Word) (n : Width) (v : Word) : (s.store a n v).mem = memWrite s.mem a n v := rfl
@[simp] theorem store_prog (s : State) (a : Word) (n : Width) (v : Word) : (s.store a n v).prog = s.prog := rfl
@[simp] theorem store_policy (s : State) (a : Word) (n : Width) (v : Word) : (s.store a n v).policy = s.policy := rfl
@[simp] theorem store_status (s : State) (a : Word) (n : Width) (v : Word) : (s.store a n v).status = s.status := rfl
@[simp] theorem store_cycle (s : State) (a : Word) (n : Width) (v : Word) : (s.store a n v).cycle = s.cycle := rfl
@[simp] theorem store_trace (s : State) (a : Word) (n : Width) (v : Word) : (s.store a n v).trace = s.trace := rfl

/-! ### `raise` -/

@[simp] theorem raise_regs (kind : FaultKind) (p w : Word) (s : State) : (raise kind p w s).regs = s.regs := rfl
@[simp] theorem raise_pc (kind : FaultKind) (p w : Word) (s : State) : (raise kind p w s).pc = s.pc := rfl
@[simp] theorem raise_ifid (kind : FaultKind) (p w : Word) (s : State) : (raise kind p w s).ifid = s.ifid := rfl
@[simp] theorem raise_idex (kind : FaultKind) (p w : Word) (s : State) : (raise kind p w s).idex = s.idex := rfl
@[simp] theorem raise_exmem (kind : FaultKind) (p w : Word) (s : State) : (raise kind p w s).exmem = s.exmem := rfl
@[simp] theorem raise_memwb (kind : FaultKind) (p w : Word) (s : State) : (raise kind p w s).memwb = s.memwb := rfl
@[simp] theorem raise_busy (kind : FaultKind) (p w : Word) (s : State) : (raise kind p w s).busy = s.busy := rfl
@[simp] theorem raise_mem (kind : FaultKind) (p w : Word) (s : State) : (raise kind p w s).mem = s.mem := rfl
@[simp] theorem raise_prog (kind : FaultKind) (p w : Word) (s : State) : (raise kind p w s).prog = s.prog := rfl
@[simp] theorem raise_policy (kind : FaultKind) (p w : Word) (s : State) : (raise kind p w s).policy = s.policy := rfl
@[simp] theorem raise_status (kind : FaultKind) (p w : Word) (s : State) : (raise kind p w s).status = .halted kind p w := rfl
@[simp] theorem raise_cycle (kind : FaultKind) (p w : Word) (s : State) : (raise kind p w s).cycle = s.cycle := rfl
@[simp] theorem raise_trace (kind : FaultKind) (p w : Word) (s : State) : (raise kind p w s).trace = s.trace := rfl

/-! ### `drained` -/

@[simp] theorem drained_regs (s : State) : (s.drained).regs = s.rf3 := rfl
@[simp] theorem drained_pc (s : State) : (s.drained).pc = s.programPc := rfl
@[simp] theorem drained_ifid (s : State) : (s.drained).ifid = s.ifid := rfl
@[simp] theorem drained_idex (s : State) : (s.drained).idex = s.idex := rfl
@[simp] theorem drained_exmem (s : State) : (s.drained).exmem = s.exmem := rfl
@[simp] theorem drained_memwb (s : State) : (s.drained).memwb = s.memwb := rfl
@[simp] theorem drained_busy (s : State) : (s.drained).busy = s.busy := rfl
@[simp] theorem drained_mem (s : State) : (s.drained).mem = s.mem3 := rfl
@[simp] theorem drained_prog (s : State) : (s.drained).prog = s.prog := rfl
@[simp] theorem drained_policy (s : State) : (s.drained).policy = s.policy := rfl
@[simp] theorem drained_status (s : State) : (s.drained).status = s.status := rfl
@[simp] theorem drained_cycle (s : State) : (s.drained).cycle = s.cycle := rfl
@[simp] theorem drained_trace (s : State) : (s.drained).trace = s.trace := rfl

/-! ### `haltCycle` -/

@[simp] theorem haltCycle_regs (s : State) (kind : FaultKind) (p w : Word) : (s.haltCycle kind p w).regs = s.rf1 := rfl
@[simp] theorem haltCycle_pc (s : State) (kind : FaultKind) (p w : Word) : (s.haltCycle kind p w).pc = s.pc := rfl
@[simp] theorem haltCycle_ifid (s : State) (kind : FaultKind) (p w : Word) : (s.haltCycle kind p w).ifid = s.ifid := rfl
@[simp] theorem haltCycle_idex (s : State) (kind : FaultKind) (p w : Word) : (s.haltCycle kind p w).idex = s.idex := rfl
@[simp] theorem haltCycle_exmem (s : State) (kind : FaultKind) (p w : Word) : (s.haltCycle kind p w).exmem = s.exmem := rfl
@[simp] theorem haltCycle_memwb (s : State) (kind : FaultKind) (p w : Word) : (s.haltCycle kind p w).memwb = s.memwb := rfl
@[simp] theorem haltCycle_busy (s : State) (kind : FaultKind) (p w : Word) : (s.haltCycle kind p w).busy = s.busy1 := rfl
@[simp] theorem haltCycle_mem (s : State) (kind : FaultKind) (p w : Word) : (s.haltCycle kind p w).mem = s.nextMem := rfl
@[simp] theorem haltCycle_prog (s : State) (kind : FaultKind) (p w : Word) : (s.haltCycle kind p w).prog = s.prog := rfl
@[simp] theorem haltCycle_policy (s : State) (kind : FaultKind) (p w : Word) : (s.haltCycle kind p w).policy = s.policy := rfl
@[simp] theorem haltCycle_status (s : State) (kind : FaultKind) (p w : Word) : (s.haltCycle kind p w).status = .halted kind p w := rfl
@[simp] theorem haltCycle_cycle (s : State) (kind : FaultKind) (p w : Word) : (s.haltCycle kind p w).cycle = s.cycle + 1 := rfl
@[simp] theorem haltCycle_trace (s : State) (kind : FaultKind) (p w : Word) : (s.haltCycle kind p w).trace = s.trace ++ [s.traceRow .none .none] := rfl

/-! ### `completeIfDrained` -/

@[simp] theorem completeIfDrained_regs (s : State) : s.completeIfDrained.regs = s.regs := by
  unfold State.completeIfDrained; split <;> rfl
@[simp] theorem completeIfDrained_pc (s : State) : s.completeIfDrained.pc = s.pc := by
  unfold State.completeIfDrained; split <;> rfl
@[simp] theorem completeIfDrained_ifid (s : State) : s.completeIfDrained.ifid = s.ifid := by
  unfold State.completeIfDrained; split <;> rfl
@[simp] theorem completeIfDrained_idex (s : State) : s.completeIfDrained.idex = s.idex := by
  unfold State.completeIfDrained; split <;> rfl
@[simp] theorem completeIfDrained_exmem (s : State) : s.completeIfDrained.exmem = s.exmem := by
  unfold State.completeIfDrained; split <;> rfl
@[simp] theorem completeIfDrained_memwb (s : State) : s.completeIfDrained.memwb = s.memwb := by
  unfold State.completeIfDrained; split <;> rfl
@[simp] theorem completeIfDrained_busy (s : State) : s.completeIfDrained.busy = s.busy := by
  unfold State.completeIfDrained; split <;> rfl
@[simp] theorem completeIfDrained_mem (s : State) : s.completeIfDrained.mem = s.mem := by
  unfold State.completeIfDrained; split <;> rfl
@[simp] theorem completeIfDrained_prog (s : State) : s.completeIfDrained.prog = s.prog := by
  unfold State.completeIfDrained; split <;> rfl
@[simp] theorem completeIfDrained_policy (s : State) : s.completeIfDrained.policy = s.policy := by
  unfold State.completeIfDrained; split <;> rfl
@[simp] theorem completeIfDrained_cycle (s : State) : s.completeIfDrained.cycle = s.cycle := by
  unfold State.completeIfDrained; split <;> rfl
@[simp] theorem completeIfDrained_trace (s : State) : s.completeIfDrained.trace = s.trace := by
  unfold State.completeIfDrained; split <;> rfl
theorem completeIfDrained_status (s : State) :
    s.completeIfDrained.status = if s.drainedOut then .completed else s.status := by
  unfold State.completeIfDrained; split <;> rfl

/-! ### `flowCycle` -/

@[simp] theorem flowCycle_regs (s : State) : s.flowCycle.regs = s.rf1 := by
  simp [State.flowCycle]
@[simp] theorem flowCycle_pc (s : State) : s.flowCycle.pc = s.nextPc := by
  simp [State.flowCycle]
@[simp] theorem flowCycle_ifid (s : State) : s.flowCycle.ifid = s.nextIfid := by
  simp [State.flowCycle]
@[simp] theorem flowCycle_idex (s : State) : s.flowCycle.idex = s.nextIdex := by
  simp [State.flowCycle]
@[simp] theorem flowCycle_exmem (s : State) : s.flowCycle.exmem = s.nextExmem := by
  simp [State.flowCycle]
@[simp] theorem flowCycle_memwb (s : State) : s.flowCycle.memwb = s.nextMemwb := by
  simp [State.flowCycle]
@[simp] theorem flowCycle_busy (s : State) : s.flowCycle.busy = s.nextBusy := by
  simp [State.flowCycle]
@[simp] theorem flowCycle_mem (s : State) : s.flowCycle.mem = s.nextMem := by
  simp [State.flowCycle]
@[simp] theorem flowCycle_prog (s : State) : s.flowCycle.prog = s.prog := by
  simp [State.flowCycle]
@[simp] theorem flowCycle_policy (s : State) : s.flowCycle.policy = s.policy := by
  simp [State.flowCycle]
@[simp] theorem flowCycle_cycle (s : State) : s.flowCycle.cycle = s.cycle + 1 := by
  simp [State.flowCycle]
@[simp] theorem flowCycle_trace (s : State) : s.flowCycle.trace = s.trace ++ [s.traceRow s.fetchMod s.decodeMod] := by
  simp [State.flowCycle]

/-! ### Registers through an update -/

@[simp] theorem goto_x (s : State) (t : Word) (r : RegIdx) : (s.goto t).x r = s.x r := rfl
@[simp] theorem advance_x (s : State) (r : RegIdx) : s.advance.x r = s.x r := rfl
@[simp] theorem store_x (s : State) (a : Word) (n : Width) (v : Word) (r : RegIdx) : (s.store a n v).x r = s.x r := rfl
@[simp] theorem raise_x (kind : FaultKind) (p w : Word) (s : State) (r : RegIdx) : (raise kind p w s).x r = s.x r := rfl

end Sys2Proof.Machine
end

