-- ==== Sys2Proof/Laws/Cycle.lean ====
section
/-! SUPPORT. What one clock cycle can do, said once: the three ways `tick` goes, what write-back, memory and decode make
of a latch, and the ways a redirect, a fault, a stall and an issue exclude each other (50_pipeline.md R172 to R199). -/

namespace Sys2Proof.Machine

/-! ### The three ways a step goes -/

/-- A step does nothing, flows, or halts; each with the condition it happens under. -/
theorem tick_cases (s : State) :
    (s.status ≠ .running ∧ s.tick = s) ∨ (s.status = .running ∧ s.faultOf = none ∧ s.tick = s.flowCycle) ∨
      (s.status = .running ∧ ∃ k p w, s.faultOf = some (k, p, w) ∧ s.tick = s.haltCycle k p w) := by
  unfold State.tick State.clockCycle
  cases hs : s.status with
  | running =>
    cases hf : s.faultOf with
    | none => exact .inr (.inl ⟨rfl, rfl, rfl⟩)
    | some f => obtain ⟨k, p, w⟩ := f; exact .inr (.inr ⟨rfl, k, p, w, rfl, rfl⟩)
  | halted k p w => exact .inl ⟨by simp, rfl⟩
  | completed => exact .inl ⟨by simp, rfl⟩

/-- A core that is not running holds its state. -/
theorem tick_of_not_running {s : State} (h : s.status ≠ .running) : s.tick = s := by
  rcases tick_cases s with ⟨-, h'⟩ | ⟨h', -⟩ | ⟨h', -⟩
  · exact h'
  · exact absurd h' h
  · exact absurd h' h

/-- A running core without a fault flows. -/
theorem tick_of_no_fault {s : State} (h : s.status = .running) (hf : s.faultOf = none) : s.tick = s.flowCycle := by
  simp [State.tick, State.clockCycle, h, hf]

/-- A running core with a fault halts. -/
theorem tick_of_fault {s : State} {k : FaultKind} {p w : Word} (h : s.status = .running)
    (hf : s.faultOf = some (k, p, w)) : s.tick = s.haltCycle k p w := by
  simp [State.tick, State.clockCycle, h, hf]

/-! ### Write-back -/

/-- A register after a latch has committed: its result at its own `rd`, else as before (R173). -/
theorem readReg_commitLatch (rf : Vector Word 32) (L : Latch) (r : RegIdx) :
    readReg (commitLatch rf L) r = if L.writes = true ∧ L.rd = r then L.result else readReg rf r := by
  unfold commitLatch
  by_cases hw : L.writes = true
  · have hrd : L.rd ≠ 0 := by
      unfold Latch.writes at hw
      simp only [Bool.and_eq_true, bne_iff_ne] at hw
      exact hw.2
    simp only [hw, if_true, readReg_writeReg, true_and]
    by_cases hr : L.rd = r
    · rw [if_pos ⟨hr.symm, hrd⟩, if_pos hr]
    · rw [if_neg (fun h => hr h.1.symm), if_neg hr]
  · simp [hw]

/-- A commit leaves cell 0. -/
@[simp] theorem commitLatch_cell_zero (rf : Vector Word 32) (L : Latch) : (commitLatch rf L)[0] = rf[0] := by
  unfold commitLatch; split
  · exact writeReg_cell_zero ..
  · rfl

/-- A commit of a valid latch that writes a register is a register write; to x0 it is none (R173, R17). -/
theorem commitLatch_of_regWrite (rf : Vector Word 32) (L : Latch) (hv : L.valid = true) (hw : L.ctrl.regWrite = true) :
    commitLatch rf L = writeReg rf L.rd L.result := by
  unfold commitLatch Latch.writes
  by_cases h : L.rd = 0
  · rw [h, writeReg_zero]; simp
  · rw [if_pos (by rw [hv, hw]; simpa using h)]

/-- A latch that writes no register commits nothing (R173). -/
theorem commitLatch_of_no_regWrite (rf : Vector Word 32) (L : Latch) (hw : L.ctrl.regWrite = false) :
    commitLatch rf L = rf := by
  simp [commitLatch, Latch.writes, hw]

/-- A commit done twice is a commit. -/
theorem commit_twice (rf : Vector Word 32) (L : Latch) : commitLatch (commitLatch rf L) L = commitLatch rf L := by
  apply regs_ext
  · simp
  · intro r
    rw [readReg_commitLatch, readReg_commitLatch]
    split <;> rfl

/-- A bubble commits nothing. -/
@[simp] theorem commitLatch_bubble (rf : Vector Word 32) : commitLatch rf Latch.bubble = rf := rfl

/-! ### Memory -/

/-- The memory stage changes only `memData`. -/
@[simp] theorem memoryStage_bubble (m : Memory) : memoryStage m Latch.bubble = Latch.bubble := rfl

/-- A bubble stores nothing. -/
@[simp] theorem storeLatch_bubble (m : Memory) : storeLatch m Latch.bubble = m := rfl

/-- The memory stage keeps the canonical form. -/
theorem wf_storeLatch {m : Memory} (L : Latch) (h : Memory.wf m) : Memory.wf (storeLatch m L) := by
  unfold storeLatch
  split
  · split
    · exact wf_memWrite _ _ _ h
    · exact h
  · exact h

/-! ### Resolution -/

/-- `Resolve` faults only on a JALR, with the latch's own address and word (R192). -/
theorem resolve_fault {L : Latch} {a b : Word} {k : FaultKind} {p w : Word} (h : resolve L a b = .fault k p w) :
    L.ctrl.kind = .jalr ∧ misaligned (jalrTarget a L.imm) = true ∧ k = .misalignedBranchTarget ∧ p = L.pc ∧
      w = L.instr := by
  unfold resolve at h
  cases hk : L.ctrl.kind <;> simp only [hk] at h <;> try simp only [reduceCtorEq] at h
  · split at h
    · split at h <;> exact absurd h (by simp)
    · exact absurd h (by simp)
  · split at h
    · rename_i hm
      simp only [Resolution.fault.injEq] at h
      exact ⟨rfl, hm, h.1.symm, h.2.1.symm, h.2.2.symm⟩
    · exact absurd h (by simp)

/-- `Resolve` redirects to a relative target, or to an aligned JALR target (R192). -/
theorem resolve_redirect {L : Latch} {a b t : Word} (h : resolve L a b = .redirect t) :
    ((L.ctrl.kind = .branch ∨ L.ctrl.kind = .jal) ∧ t = relativeTarget L.pc L.imm) ∨
      (L.ctrl.kind = .jalr ∧ misaligned t = false ∧ t = jalrTarget a L.imm) := by
  unfold resolve at h
  cases hk : L.ctrl.kind <;> simp only [hk] at h <;> try simp only [reduceCtorEq] at h
  · split at h
    · split at h
      · simp only [Resolution.redirect.injEq] at h; exact .inl ⟨.inl rfl, h.symm⟩
      · exact absurd h (by simp)
    · exact absurd h (by simp)
  · simp only [Resolution.redirect.injEq] at h; exact .inl ⟨.inr rfl, h.symm⟩
  · split at h
    · exact absurd h (by simp)
    · rename_i hm
      simp only [Resolution.redirect.injEq] at h
      subst h
      exact .inr ⟨rfl, by simpa using hm, rfl⟩

/-- Under `Forwarding` execute resolves nothing (R181). -/
theorem exResolution_forwarding {s : State} (h : s.policy = .forwarding) : s.exResolution = .stay := by
  simp [State.exResolution, h]

/-- Under `NoForwarding` decode resolves nothing (R190). -/
theorem idResolution_noForwarding {s : State} (h : s.policy = .noForwarding) : s.idResolution = .stay := by
  simp [State.idResolution, h]

/-- Decode resolves only an instruction that issues (R190). -/
theorem idResolution_of_not_issues {s : State} (h : s.issues = false) : s.idResolution = .stay := by
  unfold State.idResolution; cases s.policy <;> simp [h]

/-- Execute resolves only a valid transfer in ID/EX (R181). -/
theorem exResolution_of_bubble {s : State} (h : s.idex.valid = false) : s.exResolution = .stay := by
  unfold State.exResolution; cases s.policy <;> simp [h]

/-- What execute resolves, if anything: a valid transfer in ID/EX, under `NoForwarding` (R181). -/
theorem exResolution_of_ne_stay {s : State} (h : s.exResolution ≠ .stay) :
    s.policy = .noForwarding ∧ s.idex.valid = true ∧ s.idex.isTransfer = true ∧
      s.exResolution = resolve s.idex s.exA s.exB := by
  unfold State.exResolution at h ⊢
  cases hp : s.policy <;> simp only [hp] at h ⊢
  · by_cases hc : (s.idex.valid && s.idex.isTransfer) = true
    · simp only [Bool.and_eq_true] at hc
      simp [hc]
    · simp [hc] at h
  · exact absurd rfl h

/-- What decode resolves, if anything: a transfer that issues, under `Forwarding` (R190). -/
theorem idResolution_of_ne_stay {s : State} (h : s.idResolution ≠ .stay) :
    s.policy = .forwarding ∧ s.issues = true ∧ s.decoded.isTransfer = true ∧
      s.idResolution = resolve s.decoded (bypassDecode s.nextExmem s.nextMemwb s.rf1 s.decoded.rs1)
        (bypassDecode s.nextExmem s.nextMemwb s.rf1 s.decoded.rs2) := by
  unfold State.idResolution at h ⊢
  cases hp : s.policy <;> simp only [hp] at h ⊢
  · exact absurd rfl h
  · by_cases hc : (s.issues && s.decoded.isTransfer) = true
    · simp only [Bool.and_eq_true] at hc
      simp [hc]
    · simp [hc] at h

/-! ### Squash, stall, issue and fault exclude each other (R172) -/

/-- An issuing instruction is in IF/ID, not squashed, without a decode fault and without a hazard (R188). -/
theorem issues_iff (s : State) :
    s.issues = true ↔ s.ifid.valid = true ∧ s.squash = false ∧ s.idFault = none ∧ s.hasHazard = false := by
  simp [State.issues, and_assoc]

/-- A stalling instruction is in IF/ID, not squashed, without a decode fault and with a hazard (R187). -/
theorem stalls_iff (s : State) :
    s.stalls = true ↔ s.ifid.valid = true ∧ s.squash = false ∧ s.idFault = none ∧ s.hasHazard = true := by
  simp [State.stalls, and_assoc]

/-- The squash is the redirect from execute (R194). -/
theorem squash_iff (s : State) : s.squash = true ↔ ∃ t, s.exResolution = .redirect t := by
  unfold State.squash; cases s.exResolution <;> simp

/-- A fault is execute's JALR, decode's word, or decode's JALR, in this order (R213). -/
theorem faultOf_some {s : State} {k : FaultKind} {p w : Word} (h : s.faultOf = some (k, p, w)) :
    s.exResolution = .fault k p w ∨
      (s.idFault = some k ∧ p = s.ifid.pc ∧ w = s.ifid.instr ∧ ∀ k' p' w', s.exResolution ≠ .fault k' p' w') ∨
      (s.idResolution = .fault k p w ∧ s.idFault = none ∧ ∀ k' p' w', s.exResolution ≠ .fault k' p' w') := by
  unfold State.faultOf at h
  cases hx : s.exResolution with
  | fault a b c => simp [hx] at h; simp [h]
  | stay =>
    cases hd : s.idFault with
    | some a => simp [hx, hd] at h; simp [h]
    | none =>
      cases hr : s.idResolution with
      | fault a b c => simp [hx, hd, hr] at h; simp [h]
      | stay => simp [hx, hd, hr] at h
      | redirect t => simp [hx, hd, hr] at h
  | redirect t =>
    cases hd : s.idFault with
    | some a => simp [hx, hd] at h; simp [h]
    | none =>
      cases hr : s.idResolution with
      | fault a b c => simp [hx, hd, hr] at h; simp [h]
      | stay => simp [hx, hd, hr] at h
      | redirect t => simp [hx, hd, hr] at h

/-- No fault is raised exactly when none of the three is. -/
theorem faultOf_none (s : State) :
    s.faultOf = none ↔ (∀ k p w, s.exResolution ≠ .fault k p w) ∧ s.idFault = none ∧
      ∀ k p w, s.idResolution ≠ .fault k p w := by
  unfold State.faultOf
  cases s.exResolution <;> cases s.idFault <;> cases s.idResolution <;> simp

/-- A redirect is execute's, else decode's (R172, R193). -/
theorem redirect_some {s : State} {t : Word} (h : s.redirect = some t) :
    s.exResolution = .redirect t ∨ (s.idResolution = .redirect t ∧ s.issues = true) := by
  unfold State.redirect at h
  have hi : ∀ u, s.idResolution = .redirect u → s.issues = true := by
    intro u hu
    by_contra hc
    rw [idResolution_of_not_issues (by simpa using hc)] at hu
    simp at hu
  cases hx : s.exResolution <;> cases hr : s.idResolution <;> simp [hx, hr] at h <;> simp [h]
  · exact hi _ hr
  · exact hi _ hr

/-- No redirect. -/
theorem redirect_none (s : State) :
    s.redirect = none ↔ (∀ t, s.exResolution ≠ .redirect t) ∧ ∀ t, s.idResolution ≠ .redirect t := by
  unfold State.redirect
  cases s.exResolution <;> cases s.idResolution <;> simp

/-! ### Decode -/

/-- The control bundle of any word is that of a class (R83, R86, R87). -/
theorem controlOfWord_eq (w : Word) : ∃ k op, controlOfWord w = classCtrl k op := by
  unfold controlOfWord
  split
  · exact ⟨_, _, rfl⟩
  · exact ⟨_, _, rfl⟩

/-- What the table of R84 says of every word: only a load reads memory and only it takes the memory value; a store writes
memory and no register; the ALU's second operand is the immediate where `rs2` is not used. -/
theorem controlOfWord_facts (w : Word) :
    (controlOfWord w).memToReg = (controlOfWord w).memRead ∧
    ((controlOfWord w).memWrite = true → (controlOfWord w).usesRs2 = true ∧ (controlOfWord w).regWrite = false) ∧
    ((controlOfWord w).memRead = true → (controlOfWord w).kind = .load ∧ (controlOfWord w).regWrite = true) := by
  obtain ⟨k, op, h⟩ := controlOfWord_eq w
  rw [h]
  cases k <;> simp [classCtrl, Ctrl.zero]

end Sys2Proof.Machine
end

