-- ==== Sys2Proof/Laws/Alone.lean ====
section
/-! SUPPORT. `runAlone`, the stage functions of the clock cycle applied one after the other to one instruction, for each
class of instruction: what execute, memory and write-back make of it, in the terms of the instruction rules
(00_scope.md R13). -/

namespace Sys2Proof.Machine

/-- The control bundle of a legal word is that of its instruction (30_encoding.md R84). -/
theorem controlOfWord_ok {w : Word} {i : Instr} (h : decode w = .ok i) : controlOfWord w = controlOf i := by
  simp [controlOfWord, h]
/-- The immediate of a legal word is that of its instruction (30_encoding.md R69). -/
theorem immOfWord_ok {w : Word} {i : Instr} (h : decode w = .ok i) : immOfWord w = immOf i := by
  simp [immOfWord, h]


variable (s : State) (w : Word) (op : AluOp)

/-- A register-register instruction carried alone through the stages (42_register_ops.md R114). -/
theorem runAlone_rr (hc : controlOfWord w = classCtrl .rAlu op) :
    s.runAlone w = (s.setX (rdField w) (alu op (s.x (rs1Field w)) (s.x (rs2Field w)))).advance := by
  simp [State.runAlone, decodeFault, decodeStage, fetchedLatch, hc, classCtrl, State.finishAlone, resolve, executeStage,
      memoryStage, commitLatch_of_regWrite, storeLatch, Latch.npc, State.setX, State.advance, State.goto, Ctrl.zero,
      Latch.result, exResult, aluOperand2, State.x]

/-- A register-immediate instruction carried alone through the stages (43_immediate_ops.md R133). -/
theorem runAlone_ri (hc : controlOfWord w = classCtrl .iAlu op) :
    s.runAlone w = (s.setX (rdField w) (alu op (s.x (rs1Field w)) (immOfWord w))).advance := by
  simp [State.runAlone, decodeFault, decodeStage, fetchedLatch, hc, classCtrl, State.finishAlone, resolve, executeStage,
      memoryStage, commitLatch_of_regWrite, storeLatch, Latch.npc, State.setX, State.advance, State.goto, Ctrl.zero,
      Latch.result, exResult, aluOperand2, State.x]

/-- A load carried alone through the stages (44_loads_stores.md R146). -/
theorem runAlone_load (o : LoadOp) (hc : controlOfWord w = classCtrl .load .add) (hf : loadOp? (funct3Field w) = some o) :
    s.runAlone w = (s.setX (rdField w) (o.value s.mem (s.x (rs1Field w) + immOfWord w))).advance := by
  simp [State.runAlone, decodeFault, decodeStage, fetchedLatch, hc, classCtrl, State.finishAlone, resolve, executeStage,
      memoryStage, commitLatch_of_regWrite, storeLatch, Latch.npc, State.setX, State.advance, State.goto, Ctrl.zero,
      Latch.result, exResult, aluOperand2, State.x, loadData, hf, alu, aluAdd]

/-- A store carried alone through the stages (44_loads_stores.md R146). -/
theorem runAlone_store (n : Width) (hc : controlOfWord w = classCtrl .store .add)
    (hf : storeWidth? (funct3Field w) = some n) :
    s.runAlone w = (s.store (s.x (rs1Field w) + immOfWord w) n (s.x (rs2Field w))).advance := by
  simp [State.runAlone, decodeFault, decodeStage, fetchedLatch, hc, classCtrl, State.finishAlone, resolve, executeStage,
      memoryStage, commitLatch_of_no_regWrite, storeLatch, Latch.npc, State.store, State.advance, State.goto, Ctrl.zero,
      exResult, aluOperand2, State.x, hf, alu, aluAdd]

/-- A branch carried alone through the stages (45_control_transfer.md R157). -/
theorem runAlone_branch (c : BranchCond) (hc : controlOfWord w = classCtrl .branch .sub)
    (hf : branchCond? (funct3Field w) = some c) :
    s.runAlone w =
      if misaligned (immOfWord w) then raise .misalignedBranchTarget s.pc w s
      else if c.holds (s.x (rs1Field w)) (s.x (rs2Field w)) then s.goto (relativeTarget s.pc (immOfWord w))
      else s.advance := by
  by_cases hm : misaligned (immOfWord w) = true
  · simp [State.runAlone, decodeFault, decodeStage, fetchedLatch, hc, classCtrl, Ctrl.zero, hm]
  · by_cases hh : c.holds (s.x (rs1Field w)) (s.x (rs2Field w)) = true
    all_goals
      simp only [State.x] at hh
      simp [State.runAlone, decodeFault, decodeStage, fetchedLatch, hc, classCtrl, State.finishAlone, resolve, executeStage,
        memoryStage, commitLatch_of_no_regWrite, storeLatch, Latch.npc, State.advance, State.goto, Ctrl.zero,
        State.x, hf, hm, hh]

/-- JAL carried alone through the stages (45_control_transfer.md R164). -/
theorem runAlone_jal (hc : controlOfWord w = classCtrl .jal .add) :
    s.runAlone w =
      if misaligned (immOfWord w) then raise .misalignedBranchTarget s.pc w s
      else (s.setX (rdField w) (s.pc + 4)).goto (relativeTarget s.pc (immOfWord w)) := by
  by_cases hm : misaligned (immOfWord w) = true
  · simp [State.runAlone, decodeFault, decodeStage, fetchedLatch, hc, classCtrl, Ctrl.zero, hm]
  · simp [State.runAlone, decodeFault, decodeStage, fetchedLatch, hc, classCtrl, State.finishAlone, resolve, executeStage,
        memoryStage, commitLatch_of_regWrite, storeLatch, Latch.npc, State.setX, State.goto, Ctrl.zero,
        hm, Latch.result, exResult]

/-- JALR carried alone through the stages (45_control_transfer.md R165). -/
theorem runAlone_jalr (hc : controlOfWord w = classCtrl .jalr .add) :
    s.runAlone w =
      if misaligned (jalrTarget (s.x (rs1Field w)) (immOfWord w)) then raise .misalignedBranchTarget s.pc w s
      else (s.setX (rdField w) (s.pc + 4)).goto (jalrTarget (s.x (rs1Field w)) (immOfWord w)) := by
  by_cases hm : misaligned (jalrTarget (s.x (rs1Field w)) (immOfWord w)) = true
  · simp only [State.x] at hm
    simp [State.runAlone, decodeFault, decodeStage, fetchedLatch, hc, classCtrl, Ctrl.zero, hm, State.finishAlone, resolve,
      State.x]
  · simp only [State.x] at hm
    simp [State.runAlone, decodeFault, decodeStage, fetchedLatch, hc, classCtrl, State.finishAlone, resolve, executeStage,
        memoryStage, commitLatch_of_regWrite, storeLatch, Latch.npc, State.setX, State.goto, Ctrl.zero,
        hm, Latch.result, exResult, State.x]

/-- LUI carried alone through the stages (46_upper_immediate.md R168). -/
theorem runAlone_lui (hc : controlOfWord w = classCtrl .lui .add) :
    s.runAlone w = (s.setX (rdField w) (immOfWord w)).advance := by
  simp [State.runAlone, decodeFault, decodeStage, fetchedLatch, hc, classCtrl, State.finishAlone, resolve, executeStage,
      memoryStage, commitLatch_of_regWrite, storeLatch, Latch.npc, State.setX, State.advance, State.goto, Ctrl.zero,
      Latch.result, exResult]

/-- AUIPC carried alone through the stages (46_upper_immediate.md R169). -/
theorem runAlone_auipc (hc : controlOfWord w = classCtrl .auipc .add) :
    s.runAlone w = (s.setX (rdField w) (s.pc + immOfWord w)).advance := by
  simp [State.runAlone, decodeFault, decodeStage, fetchedLatch, hc, classCtrl, State.finishAlone, resolve, executeStage,
      memoryStage, commitLatch_of_regWrite, storeLatch, Latch.npc, State.setX, State.advance, State.goto, Ctrl.zero,
      Latch.result, exResult]

/-- A shift takes the low five bits of the whole immediate, the shift amount (30_encoding.md R70). -/
theorem shift_operand (f7 : BitVec 7) (sh : BitVec 5) (a : Word) (op : AluOp) (h : op = .sll ∨ op = .srl ∨ op = .sra) :
    alu op a (immShift f7 sh) = alu op a (sh.setWidth 32) := by
  have : shiftAmount (immShift f7 sh) = shiftAmount (sh.setWidth 32) := by
    unfold shiftAmount immShift immI
    congr 1
    apply BitVec.eq_of_getLsbD_eq
    intro i hi
    simp only [BitVec.getLsbD_extractLsb', BitVec.getLsbD_signExtend, BitVec.getLsbD_append, BitVec.getLsbD_setWidth]
    interval_cases i <;> simp
  rcases h with rfl | rfl | rfl <;> simp [alu, aluSll, aluSrl, aluSra, this]

end Sys2Proof.Machine
end

