-- ==== Sys2Proof/Laws/Bits.lean ====
section
/-! SUPPORT. The fields of an encoded word, format by format, and a word put together again from its fields
(30_encoding.md R62 to R68). Each is proved bit by bit once; everything about encodings rests on these. -/

namespace Sys2Proof

/-! ### Fields of the formats -/

@[simp] theorem opcodeField_encodeR (f7 : BitVec 7) (rs2 rs1 : RegIdx) (f3 : BitVec 3) (rd : RegIdx) (op : BitVec 7) :
    opcodeField (encodeR f7 rs2 rs1 f3 rd op) = op := by
  unfold opcodeField encodeR
  apply BitVec.eq_of_getLsbD_eq
  intro i hi
  simp only [BitVec.getLsbD_append, BitVec.getLsbD_extractLsb']
  interval_cases i <;> simp

@[simp] theorem rdField_encodeR (f7 : BitVec 7) (rs2 rs1 : RegIdx) (f3 : BitVec 3) (rd : RegIdx) (op : BitVec 7) :
    rdField (encodeR f7 rs2 rs1 f3 rd op) = rd := by
  unfold rdField encodeR
  apply BitVec.eq_of_getLsbD_eq
  intro i hi
  simp only [BitVec.getLsbD_append, BitVec.getLsbD_extractLsb']
  interval_cases i <;> simp

@[simp] theorem funct3Field_encodeR (f7 : BitVec 7) (rs2 rs1 : RegIdx) (f3 : BitVec 3) (rd : RegIdx) (op : BitVec 7) :
    funct3Field (encodeR f7 rs2 rs1 f3 rd op) = f3 := by
  unfold funct3Field encodeR
  apply BitVec.eq_of_getLsbD_eq
  intro i hi
  simp only [BitVec.getLsbD_append, BitVec.getLsbD_extractLsb']
  interval_cases i <;> simp

@[simp] theorem rs1Field_encodeR (f7 : BitVec 7) (rs2 rs1 : RegIdx) (f3 : BitVec 3) (rd : RegIdx) (op : BitVec 7) :
    rs1Field (encodeR f7 rs2 rs1 f3 rd op) = rs1 := by
  unfold rs1Field encodeR
  apply BitVec.eq_of_getLsbD_eq
  intro i hi
  simp only [BitVec.getLsbD_append, BitVec.getLsbD_extractLsb']
  interval_cases i <;> simp

@[simp] theorem rs2Field_encodeR (f7 : BitVec 7) (rs2 rs1 : RegIdx) (f3 : BitVec 3) (rd : RegIdx) (op : BitVec 7) :
    rs2Field (encodeR f7 rs2 rs1 f3 rd op) = rs2 := by
  unfold rs2Field encodeR
  apply BitVec.eq_of_getLsbD_eq
  intro i hi
  simp only [BitVec.getLsbD_append, BitVec.getLsbD_extractLsb']
  interval_cases i <;> simp

@[simp] theorem funct7Field_encodeR (f7 : BitVec 7) (rs2 rs1 : RegIdx) (f3 : BitVec 3) (rd : RegIdx) (op : BitVec 7) :
    funct7Field (encodeR f7 rs2 rs1 f3 rd op) = f7 := by
  unfold funct7Field encodeR
  apply BitVec.eq_of_getLsbD_eq
  intro i hi
  simp only [BitVec.getLsbD_append, BitVec.getLsbD_extractLsb']
  interval_cases i <;> simp

@[simp] theorem opcodeField_encodeI (imm : BitVec 12) (rs1 : RegIdx) (f3 : BitVec 3) (rd : RegIdx) (op : BitVec 7) :
    opcodeField (encodeI imm rs1 f3 rd op) = op := by
  unfold opcodeField encodeI
  apply BitVec.eq_of_getLsbD_eq
  intro i hi
  simp only [BitVec.getLsbD_append, BitVec.getLsbD_extractLsb']
  interval_cases i <;> simp

@[simp] theorem rdField_encodeI (imm : BitVec 12) (rs1 : RegIdx) (f3 : BitVec 3) (rd : RegIdx) (op : BitVec 7) :
    rdField (encodeI imm rs1 f3 rd op) = rd := by
  unfold rdField encodeI
  apply BitVec.eq_of_getLsbD_eq
  intro i hi
  simp only [BitVec.getLsbD_append, BitVec.getLsbD_extractLsb']
  interval_cases i <;> simp

@[simp] theorem funct3Field_encodeI (imm : BitVec 12) (rs1 : RegIdx) (f3 : BitVec 3) (rd : RegIdx) (op : BitVec 7) :
    funct3Field (encodeI imm rs1 f3 rd op) = f3 := by
  unfold funct3Field encodeI
  apply BitVec.eq_of_getLsbD_eq
  intro i hi
  simp only [BitVec.getLsbD_append, BitVec.getLsbD_extractLsb']
  interval_cases i <;> simp

@[simp] theorem rs1Field_encodeI (imm : BitVec 12) (rs1 : RegIdx) (f3 : BitVec 3) (rd : RegIdx) (op : BitVec 7) :
    rs1Field (encodeI imm rs1 f3 rd op) = rs1 := by
  unfold rs1Field encodeI
  apply BitVec.eq_of_getLsbD_eq
  intro i hi
  simp only [BitVec.getLsbD_append, BitVec.getLsbD_extractLsb']
  interval_cases i <;> simp

@[simp] theorem immIField_encodeI (imm : BitVec 12) (rs1 : RegIdx) (f3 : BitVec 3) (rd : RegIdx) (op : BitVec 7) :
    immIField (encodeI imm rs1 f3 rd op) = imm := by
  unfold immIField encodeI
  apply BitVec.eq_of_getLsbD_eq
  intro i hi
  simp only [BitVec.getLsbD_append, BitVec.getLsbD_extractLsb']
  interval_cases i <;> simp

@[simp] theorem opcodeField_encodeS (imm : BitVec 12) (rs2 rs1 : RegIdx) (f3 : BitVec 3) (op : BitVec 7) :
    opcodeField (encodeS imm rs2 rs1 f3 op) = op := by
  unfold opcodeField encodeS
  apply BitVec.eq_of_getLsbD_eq
  intro i hi
  simp only [BitVec.getLsbD_append, BitVec.getLsbD_extractLsb']
  interval_cases i <;> simp

@[simp] theorem funct3Field_encodeS (imm : BitVec 12) (rs2 rs1 : RegIdx) (f3 : BitVec 3) (op : BitVec 7) :
    funct3Field (encodeS imm rs2 rs1 f3 op) = f3 := by
  unfold funct3Field encodeS
  apply BitVec.eq_of_getLsbD_eq
  intro i hi
  simp only [BitVec.getLsbD_append, BitVec.getLsbD_extractLsb']
  interval_cases i <;> simp

@[simp] theorem rs1Field_encodeS (imm : BitVec 12) (rs2 rs1 : RegIdx) (f3 : BitVec 3) (op : BitVec 7) :
    rs1Field (encodeS imm rs2 rs1 f3 op) = rs1 := by
  unfold rs1Field encodeS
  apply BitVec.eq_of_getLsbD_eq
  intro i hi
  simp only [BitVec.getLsbD_append, BitVec.getLsbD_extractLsb']
  interval_cases i <;> simp

@[simp] theorem rs2Field_encodeS (imm : BitVec 12) (rs2 rs1 : RegIdx) (f3 : BitVec 3) (op : BitVec 7) :
    rs2Field (encodeS imm rs2 rs1 f3 op) = rs2 := by
  unfold rs2Field encodeS
  apply BitVec.eq_of_getLsbD_eq
  intro i hi
  simp only [BitVec.getLsbD_append, BitVec.getLsbD_extractLsb']
  interval_cases i <;> simp

@[simp] theorem immSField_encodeS (imm : BitVec 12) (rs2 rs1 : RegIdx) (f3 : BitVec 3) (op : BitVec 7) :
    immSField (encodeS imm rs2 rs1 f3 op) = imm := by
  unfold immSField encodeS
  apply BitVec.eq_of_getLsbD_eq
  intro i hi
  simp only [BitVec.getLsbD_append, BitVec.getLsbD_extractLsb']
  interval_cases i <;> simp

@[simp] theorem opcodeField_encodeB (off : BitVec 13) (rs2 rs1 : RegIdx) (f3 : BitVec 3) (op : BitVec 7) :
    opcodeField (encodeB off rs2 rs1 f3 op) = op := by
  unfold opcodeField encodeB
  apply BitVec.eq_of_getLsbD_eq
  intro i hi
  simp only [BitVec.getLsbD_append, BitVec.getLsbD_extractLsb']
  interval_cases i <;> simp

@[simp] theorem funct3Field_encodeB (off : BitVec 13) (rs2 rs1 : RegIdx) (f3 : BitVec 3) (op : BitVec 7) :
    funct3Field (encodeB off rs2 rs1 f3 op) = f3 := by
  unfold funct3Field encodeB
  apply BitVec.eq_of_getLsbD_eq
  intro i hi
  simp only [BitVec.getLsbD_append, BitVec.getLsbD_extractLsb']
  interval_cases i <;> simp

@[simp] theorem rs1Field_encodeB (off : BitVec 13) (rs2 rs1 : RegIdx) (f3 : BitVec 3) (op : BitVec 7) :
    rs1Field (encodeB off rs2 rs1 f3 op) = rs1 := by
  unfold rs1Field encodeB
  apply BitVec.eq_of_getLsbD_eq
  intro i hi
  simp only [BitVec.getLsbD_append, BitVec.getLsbD_extractLsb']
  interval_cases i <;> simp

@[simp] theorem rs2Field_encodeB (off : BitVec 13) (rs2 rs1 : RegIdx) (f3 : BitVec 3) (op : BitVec 7) :
    rs2Field (encodeB off rs2 rs1 f3 op) = rs2 := by
  unfold rs2Field encodeB
  apply BitVec.eq_of_getLsbD_eq
  intro i hi
  simp only [BitVec.getLsbD_append, BitVec.getLsbD_extractLsb']
  interval_cases i <;> simp

@[simp] theorem opcodeField_encodeU (imm : BitVec 20) (rd : RegIdx) (op : BitVec 7) :
    opcodeField (encodeU imm rd op) = op := by
  unfold opcodeField encodeU
  apply BitVec.eq_of_getLsbD_eq
  intro i hi
  simp only [BitVec.getLsbD_append, BitVec.getLsbD_extractLsb']
  interval_cases i <;> simp

@[simp] theorem rdField_encodeU (imm : BitVec 20) (rd : RegIdx) (op : BitVec 7) :
    rdField (encodeU imm rd op) = rd := by
  unfold rdField encodeU
  apply BitVec.eq_of_getLsbD_eq
  intro i hi
  simp only [BitVec.getLsbD_append, BitVec.getLsbD_extractLsb']
  interval_cases i <;> simp

@[simp] theorem immUField_encodeU (imm : BitVec 20) (rd : RegIdx) (op : BitVec 7) :
    immUField (encodeU imm rd op) = imm := by
  unfold immUField encodeU
  apply BitVec.eq_of_getLsbD_eq
  intro i hi
  simp only [BitVec.getLsbD_append, BitVec.getLsbD_extractLsb']
  interval_cases i <;> simp

@[simp] theorem opcodeField_encodeJ (off : BitVec 21) (rd : RegIdx) (op : BitVec 7) :
    opcodeField (encodeJ off rd op) = op := by
  unfold opcodeField encodeJ
  apply BitVec.eq_of_getLsbD_eq
  intro i hi
  simp only [BitVec.getLsbD_append, BitVec.getLsbD_extractLsb']
  interval_cases i <;> simp

@[simp] theorem rdField_encodeJ (off : BitVec 21) (rd : RegIdx) (op : BitVec 7) :
    rdField (encodeJ off rd op) = rd := by
  unfold rdField encodeJ
  apply BitVec.eq_of_getLsbD_eq
  intro i hi
  simp only [BitVec.getLsbD_append, BitVec.getLsbD_extractLsb']
  interval_cases i <;> simp

/-- An even branch offset survives the encoding (R66). -/
theorem immBField_encodeB (off : BitVec 13) (rs2 rs1 : RegIdx) (f3 : BitVec 3) (op : BitVec 7)
    (h : evenOffset off = true) : immBField (encodeB off rs2 rs1 f3 op) = off := by
  simp [evenOffset] at h
  unfold immBField encodeB
  apply BitVec.eq_of_getLsbD_eq
  intro i hi
  simp only [BitVec.getLsbD_append, BitVec.getLsbD_extractLsb']
  interval_cases i <;> simp [h]

/-- An even JAL offset survives the encoding (R68). -/
theorem immJField_encodeJ (off : BitVec 21) (rd : RegIdx) (op : BitVec 7) (h : evenOffset off = true) :
    immJField (encodeJ off rd op) = off := by
  simp [evenOffset] at h
  unfold immJField encodeJ
  apply BitVec.eq_of_getLsbD_eq
  intro i hi
  simp only [BitVec.getLsbD_append, BitVec.getLsbD_extractLsb']
  interval_cases i <;> simp [h]

/-- Every decoded branch offset is even: "low bit implicitly 0" (R66). -/
@[simp] theorem evenOffset_immBField (w : Word) : evenOffset (immBField w) = true := by
  simp only [evenOffset, immBField, BitVec.getLsbD_append]; simp

/-- Every decoded JAL offset is even (R68). -/
@[simp] theorem evenOffset_immJField (w : Word) : evenOffset (immJField w) = true := by
  simp only [evenOffset, immJField, BitVec.getLsbD_append]; simp

/-- An I-type immediate is its upper seven bits above its lower five (R70). -/
theorem imm_split (imm : BitVec 12) : imm.extractLsb' 5 7 ++ imm.extractLsb' 0 5 = imm := by
  apply BitVec.eq_of_getLsbD_eq
  intro i hi
  simp only [BitVec.getLsbD_append, BitVec.getLsbD_extractLsb']
  interval_cases i <;> simp

@[simp] theorem shift_funct7 (f7 : BitVec 7) (shamt : BitVec 5) : (f7 ++ shamt).extractLsb' 5 7 = f7 := by
  apply BitVec.eq_of_getLsbD_eq
  intro i hi
  simp only [BitVec.getLsbD_append, BitVec.getLsbD_extractLsb']
  interval_cases i <;> simp

@[simp] theorem shift_shamt (f7 : BitVec 7) (shamt : BitVec 5) : (f7 ++ shamt).extractLsb' 0 5 = shamt := by
  apply BitVec.eq_of_getLsbD_eq
  intro i hi
  simp only [BitVec.getLsbD_append, BitVec.getLsbD_extractLsb']
  interval_cases i <;> simp

/-! ### A word from its fields -/

theorem encodeR_fields (w : Word) :
    encodeR (funct7Field w) (rs2Field w) (rs1Field w) (funct3Field w) (rdField w) (opcodeField w) = w := by
  unfold encodeR funct7Field rs2Field rs1Field funct3Field rdField opcodeField
  apply BitVec.eq_of_getLsbD_eq
  intro i hi
  simp only [BitVec.getLsbD_append, BitVec.getLsbD_extractLsb']
  interval_cases i <;> simp

theorem encodeI_fields (w : Word) :
    encodeI (immIField w) (rs1Field w) (funct3Field w) (rdField w) (opcodeField w) = w := by
  unfold encodeI immIField rs1Field funct3Field rdField opcodeField
  apply BitVec.eq_of_getLsbD_eq
  intro i hi
  simp only [BitVec.getLsbD_append, BitVec.getLsbD_extractLsb']
  interval_cases i <;> simp

theorem encodeS_fields (w : Word) :
    encodeS (immSField w) (rs2Field w) (rs1Field w) (funct3Field w) (opcodeField w) = w := by
  unfold encodeS immSField rs2Field rs1Field funct3Field opcodeField
  apply BitVec.eq_of_getLsbD_eq
  intro i hi
  simp only [BitVec.getLsbD_append, BitVec.getLsbD_extractLsb']
  interval_cases i <;> simp

theorem encodeB_fields (w : Word) :
    encodeB (immBField w) (rs2Field w) (rs1Field w) (funct3Field w) (opcodeField w) = w := by
  unfold encodeB immBField rs2Field rs1Field funct3Field opcodeField
  apply BitVec.eq_of_getLsbD_eq
  intro i hi
  simp only [BitVec.getLsbD_append, BitVec.getLsbD_extractLsb']
  interval_cases i <;> simp

theorem encodeU_fields (w : Word) :
    encodeU (immUField w) (rdField w) (opcodeField w) = w := by
  unfold encodeU immUField rdField opcodeField
  apply BitVec.eq_of_getLsbD_eq
  intro i hi
  simp only [BitVec.getLsbD_append, BitVec.getLsbD_extractLsb']
  interval_cases i <;> simp

theorem encodeJ_fields (w : Word) :
    encodeJ (immJField w) (rdField w) (opcodeField w) = w := by
  unfold encodeJ immJField rdField opcodeField
  apply BitVec.eq_of_getLsbD_eq
  intro i hi
  simp only [BitVec.getLsbD_append, BitVec.getLsbD_extractLsb']
  interval_cases i <;> simp

/-! ### The decoder on each format -/

theorem decode_encodeR (f7 : BitVec 7) (rs2 rs1 : RegIdx) (f3 : BitVec 3) (rd : RegIdx) :
    decode (encodeR f7 rs2 rs1 f3 rd 0b0110011#7) = decodeRType f7 f3 rd rs1 rs2 := by
  simp [decode]

theorem decode_encodeI_alu (imm : BitVec 12) (rs1 : RegIdx) (f3 : BitVec 3) (rd : RegIdx) :
    decode (encodeI imm rs1 f3 rd 0b0010011#7) = decodeIAlu f3 rd rs1 imm := by
  simp [decode]

theorem decode_encodeI_load (imm : BitVec 12) (rs1 : RegIdx) (f3 : BitVec 3) (rd : RegIdx) :
    decode (encodeI imm rs1 f3 rd 0b0000011#7) = decodeLoad f3 rd rs1 imm := by
  simp [decode]

theorem decode_encodeS (imm : BitVec 12) (rs2 rs1 : RegIdx) (f3 : BitVec 3) :
    decode (encodeS imm rs2 rs1 f3 0b0100011#7) = decodeStore f3 rs1 rs2 imm := by
  simp [decode]

theorem decode_encodeB (off : BitVec 13) (rs2 rs1 : RegIdx) (f3 : BitVec 3) (h : evenOffset off = true) :
    decode (encodeB off rs2 rs1 f3 0b1100011#7) = decodeBranch f3 rs1 rs2 off := by
  simp [decode, immBField_encodeB _ _ _ _ _ h]

theorem decode_encodeJ (off : BitVec 21) (rd : RegIdx) (h : evenOffset off = true) :
    decode (encodeJ off rd 0b1101111#7) = .ok (.jal rd off) := by
  simp [decode, immJField_encodeJ _ _ _ h]

theorem decode_encodeI_jalr (imm : BitVec 12) (rs1 rd : RegIdx) :
    decode (encodeI imm rs1 0b000#3 rd 0b1100111#7) = .ok (.jalr rd rs1 imm) := by
  simp [decode]

theorem decode_encodeU_lui (imm : BitVec 20) (rd : RegIdx) :
    decode (encodeU imm rd 0b0110111#7) = .ok (.lui rd imm) := by
  simp [decode]

theorem decode_encodeU_auipc (imm : BitVec 20) (rd : RegIdx) :
    decode (encodeU imm rd 0b0010111#7) = .ok (.auipc rd imm) := by
  simp [decode]

end Sys2Proof
end

