-- ==== Sys2Proof/Laws/Exec.lean ====
section
/-! SUPPORT. The shared meanings of instructions, each said once: what it answers on a core that runs, and that it answers
the state unchanged on one that does not (00_scope.md R12, R13; 10_state.md R37). -/

namespace Sys2Proof.Machine

/-- On a running core a meaning answers its effect. -/
theorem whenRunning_running {s t : State} (hr : s.status = .running) : whenRunning s t = .next t := by
  simp [whenRunning, hr]

/-- On a halted or completed core it answers the state unchanged (60_exceptions.md R216). -/
theorem whenRunning_stopped {s t : State} (hr : s.status ≠ .running) : whenRunning s t = .next s := by
  unfold whenRunning
  cases hs : s.status <;> simp_all

/-- A meaning always answers a next state. -/
theorem whenRunning_next (s t : State) : whenRunning s t = .next (if s.status = .running then t else s) := by
  by_cases hr : s.status = .running
  · rw [whenRunning_running hr, if_pos hr]
  · rw [whenRunning_stopped hr, if_neg hr]

/-- What a register reads after a register write: the value at `rd`, unless that is x0; every other register as before. -/
theorem setX_x (s : State) (rd r : RegIdx) (v : Word) :
    (s.setX rd v).x r = if r = rd ∧ rd ≠ 0 then v else s.x r := readReg_writeReg ..

/-- x0 reads 0 in every state (10_state.md R17). -/
@[simp] theorem x_zero (s : State) : s.x 0 = 0 := readReg_zero _

/-- The register-register instructions on a running core (42_register_ops.md R114). -/
theorem execRegReg_running (op : AluOp) (rd rs1 rs2 : RegIdx) {s : State} (hr : s.status = .running) :
    execRegReg op rd rs1 rs2 s = .next (s.setX rd (alu op (s.x rs1) (s.x rs2))).advance := whenRunning_running hr

/-- The register-immediate instructions on a running core (43_immediate_ops.md R133). -/
theorem execRegImm_running (op : AluOp) (rd rs1 : RegIdx) (b : Word) {s : State} (hr : s.status = .running) :
    execRegImm op rd rs1 b s = .next (s.setX rd (alu op (s.x rs1) b)).advance := whenRunning_running hr

/-- The loads on a running core (44_loads_stores.md R146). -/
theorem execLoad_running (op : LoadOp) (rd rs1 : RegIdx) (imm : BitVec 12) {s : State} (hr : s.status = .running) :
    execLoad op rd rs1 imm s =
      .next (s.setX rd (op.value s.mem (effectiveAddress (s.x rs1) (immI imm)))).advance := whenRunning_running hr

/-- The stores on a running core (44_loads_stores.md R146). -/
theorem execStore_running (n : Width) (rs1 rs2 : RegIdx) (imm : BitVec 12) {s : State} (hr : s.status = .running) :
    execStore n rs1 rs2 imm s = .next (s.store (effectiveAddress (s.x rs1) (immS imm)) n (s.x rs2)).advance :=
  whenRunning_running hr

/-- The branches on a running core (45_control_transfer.md R157). -/
theorem execBranch_running (c : BranchCond) (rs1 rs2 : RegIdx) (off : BitVec 13) (w : Word) {s : State}
    (hr : s.status = .running) :
    execBranch c rs1 rs2 off w s = .next
      (if misaligned (immB off) then raise .misalignedBranchTarget s.pc w s
       else if c.holds (s.x rs1) (s.x rs2) then s.goto (relativeTarget s.pc (immB off)) else s.advance) :=
  whenRunning_running hr

/-- Not a multiple of 4, as arithmetic (60_exceptions.md R210). -/
theorem misaligned_iff (v : Word) : misaligned v = false ↔ v.toNat % 4 = 0 := by
  unfold misaligned
  have : (v.extractLsb' 0 2 = 0#2) ↔ v.toNat % 4 = 0 := by
    constructor
    · intro h
      have := congrArg BitVec.toNat h
      simpa [BitVec.extractLsb'_toNat] using this
    · intro h
      apply BitVec.eq_of_toNat_eq
      simpa [BitVec.extractLsb'_toNat] using h
  simp [this]

/-- The sum of two multiples of 4 is one, modulo 2^32 too. -/
theorem aligned_add {a b : Word} (ha : misaligned a = false) (hb : misaligned b = false) :
    misaligned (a + b) = false := by
  rw [misaligned_iff] at *
  rw [BitVec.toNat_add]
  omega

end Sys2Proof.Machine
end

