-- ==== Sys2Proof/Laws/Invariant.lean ====
section
/-! SUPPORT. The parts of `Coherent` one by one after a cycle (10_state.md R23, R31, R34; 50_pipeline.md). -/

namespace Sys2Proof.Machine

/-- 4 is a multiple of 4. -/
theorem aligned_four : misaligned (4 : Word) = false := by decide

/-- A word that decode accepts is legal, and a branch or JAL among them has an aligned offset (R183). -/
theorem decodeFault_none {D : Latch} (h : decodeFault D = none) :
    D.ctrl.illegal = false ∧ ((D.ctrl.kind = .branch ∨ D.ctrl.kind = .jal) → misaligned D.imm = false) := by
  unfold decodeFault at h
  split at h
  · simp at h
  · rename_i h1
    split at h
    · simp at h
    · rename_i h2
      refine ⟨by simpa using h1, ?_⟩
      intro hk
      simp only [Bool.and_eq_true, Bool.or_eq_true, beq_iff_eq, not_and, Bool.not_eq_true] at h2
      exact h2 hk

/-- An issuing word is accepted by decode (R188). -/
theorem idFault_none_of_issues {s : State} (h : s.issues = true) : decodeFault s.decoded = none := by
  obtain ⟨h1, h2, h3, -⟩ := (issues_iff s).1 h
  simpa [State.idFault, h1, h2] using h3

/-- The latch that issues is the decoded word (R188). -/
theorem issued_decodedFromWord {s : State} (h : s.issues = true) : s.decoded.decodedFromWord :=
  ⟨rfl, rfl, rfl, rfl, rfl, rfl, rfl, rfl, idFault_none_of_issues h⟩

/-- A redirect target is a multiple of 4 (20_memory.md R51). -/
theorem redirect_aligned {s : State} {t : Word} (h : s.Coherent) (ht : s.redirect = some t) : misaligned t = false := by
  obtain ⟨-, -, -, -, hif, hid, -, -, -, -, -⟩ := h
  rcases redirect_some ht with hr | ⟨hr, hi⟩
  · -- execute
    obtain ⟨-, hv, -, he⟩ := exResolution_of_ne_stay (s := s) (by rw [hr]; simp)
    have hres : resolve s.idex s.exA s.exB = .redirect t := he ▸ hr
    rcases hid with hb | ⟨-, hf, hd⟩
    · rw [hb] at hv; simp [Latch.bubble] at hv
    · rcases resolve_redirect hres with ⟨hk, rfl⟩ | ⟨-, ha, -⟩
      · exact aligned_add hf.1 ((decodeFault_none hd.2.2.2.2.2.2.2.2).2 hk)
      · exact ha
  · obtain ⟨-, -, -, he⟩ := idResolution_of_ne_stay (s := s) (by rw [hr]; simp)
    have hres := he ▸ hr
    have hv := ((issues_iff s).1 hi).1
    rcases hif with hb | ⟨-, hf, -⟩
    · rw [hb] at hv; simp [Latch.bubble] at hv
    · rcases resolve_redirect hres with ⟨hk, rfl⟩ | ⟨-, ha, -⟩
      · exact aligned_add hf.1 ((decodeFault_none (idFault_none_of_issues hi)).2 hk)
      · exact ha

/-- The next `pc` is a multiple of 4 (10_state.md R23). -/
theorem nextPc_aligned {s : State} (h : s.Coherent) : misaligned s.nextPc = false := by
  unfold State.nextPc
  cases hr : s.redirect with
  | some t => exact redirect_aligned h hr
  | none =>
    obtain ⟨-, -, hp, -⟩ := h
    dsimp only
    split
    · exact hp
    · split
      · exact aligned_add hp aligned_four
      · exact hp

/-- IF/ID after a cycle that does not halt: a bubble or a fetched word (R196). -/
theorem nextIfid_ok {s : State} (h : s.Coherent) :
    s.nextIfid = Latch.bubble ∨
    (s.nextIfid = fetchedLatch s.nextIfid.pc s.nextIfid.instr ∧ s.fetchedAt s.nextIfid ∧ s.nextPc = s.nextIfid.pc + 4) := by
  obtain ⟨-, -, hp, -, hif, -⟩ := h
  unfold State.nextIfid State.nextPc
  cases hr : s.redirect with
  | some t => exact .inl rfl
  | none =>
    dsimp only
    by_cases hs : s.stalls = true
    · simp only [hs, if_true]
      exact hif
    · by_cases hb : s.inBounds s.pc = true
      · simp only [hs, hb, if_true, Bool.false_eq_true, if_false]
        exact .inr ⟨rfl, ⟨hp, hb, rfl⟩, rfl⟩
      · simp only [hs, hb, Bool.false_eq_true, if_false]
        exact .inl trivial

/-- ID/EX after a cycle that does not halt: a bubble or a decoded instruction (R187, R188). -/
theorem nextIdex_ok {s : State} (h : s.Coherent) :
    s.nextIdex = Latch.bubble ∨ (s.nextIdex.valid = true ∧ s.fetchedAt s.nextIdex ∧ s.nextIdex.decodedFromWord) := by
  obtain ⟨-, -, -, -, hif, -⟩ := h
  unfold State.nextIdex
  by_cases hi : s.issues = true
  · simp only [hi, if_true]
    rcases hif with hb | ⟨-, hf, -⟩
    · have := ((issues_iff s).1 hi).1
      rw [hb] at this; simp [Latch.bubble] at this
    · exact .inr ⟨rfl, hf, issued_decodedFromWord hi⟩
  · simp [hi]

/-- EX/MEM after a cycle that does not halt (R180). -/
theorem nextExmem_ok {s : State} (h : s.Coherent) :
    s.nextExmem = Latch.bubble ∨ (s.nextExmem.valid = true ∧ s.fetchedAt s.nextExmem ∧ s.nextExmem.decodedFromWord) := by
  obtain ⟨-, -, -, -, -, hid, -⟩ := h
  unfold State.nextExmem executeStage
  by_cases hv : s.idex.valid = true
  · rcases hid with hb | ⟨-, hf, hd⟩
    · rw [hb] at hv; simp [Latch.bubble] at hv
    · simp only [hv, if_true]
      exact .inr ⟨trivial, hf, hd⟩
  · simp [hv]

/-- MEM/WB after a cycle that does not halt (R176). -/
theorem nextMemwb_ok {s : State} (h : s.Coherent) :
    s.nextMemwb = Latch.bubble ∨ (s.nextMemwb.valid = true ∧ s.fetchedAt s.nextMemwb ∧ s.nextMemwb.decodedFromWord) := by
  obtain ⟨-, -, -, -, -, -, hex, -⟩ := h
  rcases hex with hb | ⟨hv, hf, hd⟩
  · left; unfold State.nextMemwb; rw [hb]; rfl
  · exact .inr ⟨hv, hf, hd⟩

/-- The fields no stage has filled yet are 0 after a cycle that does not halt (10_state.md R31). -/
theorem unfilled_next {s : State} (h : s.Coherent) :
    s.nextIdex.aluResult = 0 ∧ s.nextIdex.memData = 0 ∧ s.nextExmem.memData = 0 ∧
    (s.nextMemwb.ctrl.memRead = false → s.nextMemwb.memData = 0) := by
  obtain ⟨-, -, -, -, -, -, -, -, ⟨h1, h2, h3, h4⟩, -⟩ := h
  refine ⟨?_, ?_, ?_, ?_⟩
  · unfold State.nextIdex; split <;> rfl
  · unfold State.nextIdex; split <;> rfl
  · unfold State.nextExmem executeStage; split
    · exact h2
    · rfl
  · intro h
    have h' : s.exmem.ctrl.memRead = false := h
    simp [State.nextMemwb, memoryStage, loadData, h']

/-- A latch has at most one pending write to a register. -/
theorem pendingOn_le (L : Latch) (r : RegIdx) : L.pendingOn r ≤ 1 := by
  unfold Latch.pendingOn; split <;> omega

/-- After this cycle's release a counter counts ID/EX and EX/MEM (R175). -/
theorem busy1_eq {s : State} (h : s.busyExact) (r : RegIdx) :
    (busyOf s.busy1 r).toNat = s.idex.pendingOn r + s.exmem.pendingOn r := by
  have hr := h r
  unfold State.pending at hr
  unfold State.busy1 releaseLatch
  have a1 := pendingOn_le s.idex r
  have a2 := pendingOn_le s.exmem r
  by_cases hw : s.memwb.writes = true
  · simp only [hw, if_true, busyOf_clearBusy]
    by_cases hq : r = s.memwb.rd
    · have hp : s.memwb.pendingOn r = 1 := by simp [Latch.pendingOn, hw, hq]
      rw [if_pos hq, ← hq, BitVec.toNat_sub]
      have : BitVec.toNat (1 : BitVec 2) = 1 := rfl
      omega
    · have hp : s.memwb.pendingOn r = 0 := by simp [Latch.pendingOn, Ne.symm hq]
      rw [if_neg hq]; omega
  · have hp : s.memwb.pendingOn r = 0 := by simp [Latch.pendingOn, hw]
    simp only [hw, Bool.false_eq_true, if_false]; omega

/-- The pending write of ID/EX moves to EX/MEM. -/
theorem nextExmem_pendingOn (s : State) (r : RegIdx) : s.nextExmem.pendingOn r = s.idex.pendingOn r := by
  unfold State.nextExmem executeStage Latch.pendingOn Latch.writes
  by_cases hv : s.idex.valid = true <;> simp [hv, Latch.bubble, Ctrl.zero]

/-- The pending write of EX/MEM moves to MEM/WB. -/
theorem nextMemwb_pendingOn (s : State) (r : RegIdx) : s.nextMemwb.pendingOn r = s.exmem.pendingOn r := rfl

/-- The counters are exact after a cycle that does not halt (10_state.md R34). -/
theorem busyExact_next {s : State} (h : s.busyExact) (r : RegIdx) :
    (busyOf s.nextBusy r).toNat = s.nextIdex.pendingOn r + s.nextExmem.pendingOn r + s.nextMemwb.pendingOn r := by
  have hb := busy1_eq h r
  rw [nextExmem_pendingOn, nextMemwb_pendingOn]
  have a1 := pendingOn_le s.idex r
  have a2 := pendingOn_le s.exmem r
  unfold State.nextBusy markLatch
  by_cases hw : s.nextIdex.writes = true
  · simp only [hw, if_true, busyOf_markBusy]
    by_cases hq : r = s.nextIdex.rd
    · have hp : s.nextIdex.pendingOn r = 1 := by simp [Latch.pendingOn, hw, hq]
      rw [if_pos hq, ← hq, BitVec.toNat_add]
      have : BitVec.toNat (1 : BitVec 2) = 1 := rfl
      omega
    · have hp : s.nextIdex.pendingOn r = 0 := by simp [Latch.pendingOn, Ne.symm hq]
      rw [if_neg hq]; omega
  · have hp : s.nextIdex.pendingOn r = 0 := by simp [Latch.pendingOn, hw]
    simp only [hw, Bool.false_eq_true, if_false]; omega

end Sys2Proof.Machine
end

