-- ==== Sys2Proof/Laws/PerInstr.lean ====
section
/-! SUPPORT. Statements made per instruction: the family `RoundTrip`, decoding an encoded well-formed instruction gives
it back (30_encoding.md R89), one lemma per constructor. -/

namespace Sys2Proof.Laws.RoundTrip

/-- Decoding the word of a well-formed instruction gives that instruction. -/
def Statement (i : Instr) : Prop := i.wellFormed = true → decode (encode i) = .ok i

theorem add (rd rs1 rs2 : RegIdx) : Statement (.add rd rs1 rs2) :=
  fun _ => decode_encodeR _ rs2 rs1 _ rd

theorem sub (rd rs1 rs2 : RegIdx) : Statement (.sub rd rs1 rs2) :=
  fun _ => decode_encodeR _ rs2 rs1 _ rd

theorem sll (rd rs1 rs2 : RegIdx) : Statement (.sll rd rs1 rs2) :=
  fun _ => decode_encodeR _ rs2 rs1 _ rd

theorem slt (rd rs1 rs2 : RegIdx) : Statement (.slt rd rs1 rs2) :=
  fun _ => decode_encodeR _ rs2 rs1 _ rd

theorem sltu (rd rs1 rs2 : RegIdx) : Statement (.sltu rd rs1 rs2) :=
  fun _ => decode_encodeR _ rs2 rs1 _ rd

theorem xor (rd rs1 rs2 : RegIdx) : Statement (.xor rd rs1 rs2) :=
  fun _ => decode_encodeR _ rs2 rs1 _ rd

theorem srl (rd rs1 rs2 : RegIdx) : Statement (.srl rd rs1 rs2) :=
  fun _ => decode_encodeR _ rs2 rs1 _ rd

theorem sra (rd rs1 rs2 : RegIdx) : Statement (.sra rd rs1 rs2) :=
  fun _ => decode_encodeR _ rs2 rs1 _ rd

theorem or (rd rs1 rs2 : RegIdx) : Statement (.or rd rs1 rs2) :=
  fun _ => decode_encodeR _ rs2 rs1 _ rd

theorem and (rd rs1 rs2 : RegIdx) : Statement (.and rd rs1 rs2) :=
  fun _ => decode_encodeR _ rs2 rs1 _ rd

theorem mul (rd rs1 rs2 : RegIdx) : Statement (.mul rd rs1 rs2) :=
  fun _ => decode_encodeR _ rs2 rs1 _ rd

theorem mulh (rd rs1 rs2 : RegIdx) : Statement (.mulh rd rs1 rs2) :=
  fun _ => decode_encodeR _ rs2 rs1 _ rd

theorem mulhsu (rd rs1 rs2 : RegIdx) : Statement (.mulhsu rd rs1 rs2) :=
  fun _ => decode_encodeR _ rs2 rs1 _ rd

theorem mulhu (rd rs1 rs2 : RegIdx) : Statement (.mulhu rd rs1 rs2) :=
  fun _ => decode_encodeR _ rs2 rs1 _ rd

theorem div (rd rs1 rs2 : RegIdx) : Statement (.div rd rs1 rs2) :=
  fun _ => decode_encodeR _ rs2 rs1 _ rd

theorem divu (rd rs1 rs2 : RegIdx) : Statement (.divu rd rs1 rs2) :=
  fun _ => decode_encodeR _ rs2 rs1 _ rd

theorem rem (rd rs1 rs2 : RegIdx) : Statement (.rem rd rs1 rs2) :=
  fun _ => decode_encodeR _ rs2 rs1 _ rd

theorem remu (rd rs1 rs2 : RegIdx) : Statement (.remu rd rs1 rs2) :=
  fun _ => decode_encodeR _ rs2 rs1 _ rd

theorem addi (rd rs1 : RegIdx) (imm : BitVec 12) : Statement (.addi rd rs1 imm) :=
  fun _ => decode_encodeI_alu imm rs1 _ rd

theorem slti (rd rs1 : RegIdx) (imm : BitVec 12) : Statement (.slti rd rs1 imm) :=
  fun _ => decode_encodeI_alu imm rs1 _ rd

theorem sltiu (rd rs1 : RegIdx) (imm : BitVec 12) : Statement (.sltiu rd rs1 imm) :=
  fun _ => decode_encodeI_alu imm rs1 _ rd

theorem xori (rd rs1 : RegIdx) (imm : BitVec 12) : Statement (.xori rd rs1 imm) :=
  fun _ => decode_encodeI_alu imm rs1 _ rd

theorem ori (rd rs1 : RegIdx) (imm : BitVec 12) : Statement (.ori rd rs1 imm) :=
  fun _ => decode_encodeI_alu imm rs1 _ rd

theorem andi (rd rs1 : RegIdx) (imm : BitVec 12) : Statement (.andi rd rs1 imm) :=
  fun _ => decode_encodeI_alu imm rs1 _ rd

theorem slli (rd rs1 : RegIdx) (shamt : BitVec 5) : Statement (.slli rd rs1 shamt) := by
  intro _
  refine (decode_encodeI_alu _ rs1 _ rd).trans ?_
  simp [decodeIAlu]

theorem srli (rd rs1 : RegIdx) (shamt : BitVec 5) : Statement (.srli rd rs1 shamt) := by
  intro _
  refine (decode_encodeI_alu _ rs1 _ rd).trans ?_
  simp [decodeIAlu]

theorem srai (rd rs1 : RegIdx) (shamt : BitVec 5) : Statement (.srai rd rs1 shamt) := by
  intro _
  refine (decode_encodeI_alu _ rs1 _ rd).trans ?_
  simp [decodeIAlu]

theorem lb (rd rs1 : RegIdx) (imm : BitVec 12) : Statement (.lb rd rs1 imm) :=
  fun _ => decode_encodeI_load imm rs1 _ rd

theorem lh (rd rs1 : RegIdx) (imm : BitVec 12) : Statement (.lh rd rs1 imm) :=
  fun _ => decode_encodeI_load imm rs1 _ rd

theorem lw (rd rs1 : RegIdx) (imm : BitVec 12) : Statement (.lw rd rs1 imm) :=
  fun _ => decode_encodeI_load imm rs1 _ rd

theorem lbu (rd rs1 : RegIdx) (imm : BitVec 12) : Statement (.lbu rd rs1 imm) :=
  fun _ => decode_encodeI_load imm rs1 _ rd

theorem lhu (rd rs1 : RegIdx) (imm : BitVec 12) : Statement (.lhu rd rs1 imm) :=
  fun _ => decode_encodeI_load imm rs1 _ rd

theorem sb (rs1 rs2 : RegIdx) (imm : BitVec 12) : Statement (.sb rs1 rs2 imm) :=
  fun _ => decode_encodeS imm rs2 rs1 _

theorem sh (rs1 rs2 : RegIdx) (imm : BitVec 12) : Statement (.sh rs1 rs2 imm) :=
  fun _ => decode_encodeS imm rs2 rs1 _

theorem sw (rs1 rs2 : RegIdx) (imm : BitVec 12) : Statement (.sw rs1 rs2 imm) :=
  fun _ => decode_encodeS imm rs2 rs1 _

theorem beq (rs1 rs2 : RegIdx) (off : BitVec 13) : Statement (.beq rs1 rs2 off) :=
  fun h => decode_encodeB off rs2 rs1 _ h

theorem bne (rs1 rs2 : RegIdx) (off : BitVec 13) : Statement (.bne rs1 rs2 off) :=
  fun h => decode_encodeB off rs2 rs1 _ h

theorem blt (rs1 rs2 : RegIdx) (off : BitVec 13) : Statement (.blt rs1 rs2 off) :=
  fun h => decode_encodeB off rs2 rs1 _ h

theorem bge (rs1 rs2 : RegIdx) (off : BitVec 13) : Statement (.bge rs1 rs2 off) :=
  fun h => decode_encodeB off rs2 rs1 _ h

theorem bltu (rs1 rs2 : RegIdx) (off : BitVec 13) : Statement (.bltu rs1 rs2 off) :=
  fun h => decode_encodeB off rs2 rs1 _ h

theorem bgeu (rs1 rs2 : RegIdx) (off : BitVec 13) : Statement (.bgeu rs1 rs2 off) :=
  fun h => decode_encodeB off rs2 rs1 _ h

theorem jal (rd : RegIdx) (off : BitVec 21) : Statement (.jal rd off) :=
  fun h => decode_encodeJ off rd h

theorem jalr (rd rs1 : RegIdx) (imm : BitVec 12) : Statement (.jalr rd rs1 imm) :=
  fun _ => decode_encodeI_jalr imm rs1 rd

theorem lui (rd : RegIdx) (imm : BitVec 20) : Statement (.lui rd imm) :=
  fun _ => decode_encodeU_lui imm rd

theorem auipc (rd : RegIdx) (imm : BitVec 20) : Statement (.auipc rd imm) :=
  fun _ => decode_encodeU_auipc imm rd

end Sys2Proof.Laws.RoundTrip
end

