-- ==== Sys2Proof/Laws/Pipeline.lean ====
section
/-! SUPPORT. The pipeline in program order (00_scope.md R13, 50_pipeline.md R203): what a cycle does to registers, memory
and `pc` once every instruction past decode has finished, and that the operands of an issuing instruction are those of
program order under both policies. -/

namespace Sys2Proof.Machine

/-- The next cycle writes back what this one carried through memory. -/
theorem flow_rf1 (s : State) : s.flowCycle.rf1 = s.rf2 := by
  simp [State.rf1, State.rf2]

/-- The next cycle carries through memory what this one executes. -/
theorem flow_nextMemwb {s : State} (h : s.exFaults = false) : s.flowCycle.nextMemwb = s.idexDone := by
  simp [State.nextMemwb, State.idexDone, h]

/-- Two of three pending commits become the last two. -/
theorem flow_rf2 {s : State} (h : s.exFaults = false) : s.flowCycle.rf2 = s.rf3 := by
  unfold State.rf2 State.rf3
  rw [flow_rf1, flow_nextMemwb h]

/-- The next cycle stores what this one executes. -/
theorem flow_nextMem {s : State} (h : s.exFaults = false) : s.flowCycle.nextMem = s.mem3 := by
  simp [State.nextMem, State.mem3, h]

/-- No fault, no fault in execute. -/
theorem exFaults_of_no_fault {s : State} (h : s.faultOf = none) : s.exFaults = false := by
  have := ((faultOf_none s).1 h).1
  unfold State.exFaults
  cases hx : s.exResolution with
  | fault k p w => exact absurd hx (this k p w)
  | stay => rfl
  | redirect t => rfl

/-- A bubble in ID/EX finishes as a bubble. -/
theorem idexDone_bubble {s : State} (h : s.idex.valid = false) : s.idexDone = Latch.bubble := by
  have : s.exFaults = false := by simp [State.exFaults, exResolution_of_bubble h]
  simp [State.idexDone, this, State.nextExmem, executeStage, h]

/-- A bubble in ID/EX commits nothing. -/
theorem rf3_bubble {s : State} (h : s.idex.valid = false) : s.rf3 = s.rf2 := by
  simp [State.rf3, idexDone_bubble h]

/-- A bubble in ID/EX stores nothing. -/
theorem mem3_bubble {s : State} (h : s.idex.valid = false) : s.mem3 = s.nextMem := by
  have : s.exFaults = false := by simp [State.exFaults, exResolution_of_bubble h]
  simp [State.mem3, this, State.nextExmem, executeStage, h]

/-- Without a transfer pending in execute, the next instruction is in decode or the next to fetch. -/
theorem programPc_stay {s : State} (h : s.exResolution = .stay) :
    s.programPc = if s.ifid.valid then s.ifid.pc else s.pc := by
  simp [State.programPc, h]

/-- No squash without a redirect from execute (R194). -/
theorem squash_false_iff (s : State) : s.squash = false ↔ ∀ t, s.exResolution ≠ .redirect t := by
  unfold State.squash; cases s.exResolution <;> simp

/-- A redirect from execute is the redirect (R172). -/
theorem redirect_of_ex {s : State} {t : Word} (h : s.exResolution = .redirect t) : s.redirect = some t := by
  simp [State.redirect, h]
/-- No resolution, no redirect. -/
theorem redirect_of_stay {s : State} (h : s.exResolution = .stay) (h2 : s.idResolution = .stay) : s.redirect = none := by
  simp [State.redirect, h, h2]

/-- A cycle in which nothing issues and nothing faults leaves registers, memory and `pc` of program order. -/
theorem drained_no_issue {s : State} (hf : s.faultOf = none) (hi : s.issues = false) :
    s.flowCycle.drained.arch = s.drained.arch := by
  have hx := exFaults_of_no_fault hf
  have hbub : s.flowCycle.idex = Latch.bubble := by simp [State.nextIdex, hi]
  have hv : s.flowCycle.idex.valid = false := by rw [hbub]; rfl
  have hid := idResolution_of_not_issues hi
  obtain ⟨hf1, hf2, -⟩ := (faultOf_none s).1 hf
  simp only [State.arch, drained_regs, drained_mem, drained_pc]
  rw [rf3_bubble hv, mem3_bubble hv, flow_rf2 hx, flow_nextMem hx, programPc_stay (exResolution_of_bubble hv)]
  congr 2
  simp only [flowCycle_ifid, flowCycle_pc]
  cases hr : s.exResolution with
  | fault k p w => exact absurd hr (hf1 k p w)
  | redirect t =>
    simp [State.nextIfid, State.nextPc, redirect_of_ex hr, State.programPc, hr, Latch.bubble]
  | stay =>
    rw [programPc_stay hr]
    have hsq : s.squash = false := by simp [squash_false_iff, hr]
    simp only [State.nextIfid, State.nextPc, redirect_of_stay hr hid]
    by_cases hst : s.stalls = true
    · have := ((stalls_iff s).1 hst).1
      simp [hst, this]
    · have hiv : s.ifid.valid = false := by
        by_contra hc
        simp only [Bool.not_eq_false] at hc
        have h1 : s.hasHazard = true := by
          by_contra h2
          exact absurd ((issues_iff s).2 ⟨hc, hsq, hf2, by simpa using h2⟩) (by simp [hi])
        exact hst ((stalls_iff s).2 ⟨hc, hsq, hf2, h1⟩)
      by_cases hb : s.inBounds s.pc = true
      · simp [hst, hb, hiv, fetchedLatch]
      · simp [hst, hb, hiv, Latch.bubble]


/-- What a latch past decode says of memory and register writes (30_encoding.md R84). -/
theorem writes_facts {s : State} {L : Latch} (hL : s.laterOk L) :
    L.ctrl.memToReg = L.ctrl.memRead ∧ (L.ctrl.memWrite = true → L.ctrl.usesRs2 = true ∧ L.ctrl.regWrite = false) := by
  rcases hL with h | ⟨-, -, h⟩
  · rw [h]; simp [Latch.bubble, Ctrl.zero]
  · rw [h.2.2.2.2.2.2.2.1]
    exact ⟨(controlOfWord_facts _).1, (controlOfWord_facts _).2.1⟩

/-- EX/MEM will write what ID/EX writes. -/
theorem nextExmem_writes (s : State) : s.nextExmem.writes = s.idex.writes := by
  unfold State.nextExmem executeStage Latch.writes
  by_cases hv : s.idex.valid = true <;> simp [hv, Latch.bubble, Ctrl.zero]

/-- EX/MEM keeps the destination of ID/EX. -/
theorem nextExmem_rd {s : State} (hv : s.idex.valid = true) : s.nextExmem.rd = s.idex.rd := by
  simp [State.nextExmem, executeStage, hv]

/-- What `writes` says. -/
theorem writes_valid {L : Latch} (h : L.writes = true) : L.valid = true ∧ L.ctrl.regWrite = true ∧ L.rd ≠ 0 := by
  unfold Latch.writes at h
  simpa [and_assoc] using h

/-- `NoForwarding`: a source without a pending write reads in decode its value of program order (R185, R203). -/
theorem rf1_eq_rf3 {s : State} {r : RegIdx} (hb : s.busyExact) (h : busyOf s.busy1 r = 0) :
    readReg s.rf1 r = readReg s.rf3 r := by
  have h1 := busy1_eq hb r
  rw [h] at h1
  have hz : s.idex.pendingOn r = 0 ∧ s.exmem.pendingOn r = 0 := by
    have : BitVec.toNat (0 : BitVec 2) = 0 := rfl
    omega
  have nomatch' : ∀ L : Latch, L.pendingOn r = 0 → ¬(L.writes = true ∧ L.rd = r) := by
    intro L hL ⟨a, b⟩
    simp [Latch.pendingOn, a, b] at hL
  unfold State.rf3 State.rf2
  rw [readReg_commitLatch, readReg_commitLatch, if_neg, if_neg]
  · exact nomatch' s.exmem hz.2
  · unfold State.idexDone
    split
    · simp [Latch.writes, Latch.bubble]
    · have : (memoryStage s.nextMem s.nextExmem).pendingOn r = 0 := by
        have := nextExmem_pendingOn s r
        rw [hz.1] at this
        exact this
      exact nomatch' _ this

/-- `Forwarding`: without a load-use hazard the bypass gives the value of program order (R178, R186, R203). -/
theorem bypass_eq_rf3 {s : State} (hc : s.Coherent) (hp : s.policy = .forwarding) (r : RegIdx)
    (hl : ¬(s.idex.valid = true ∧ s.idex.ctrl.memRead = true ∧ s.idex.rd ≠ 0 ∧ s.idex.rd = r)) :
    forwardEx s.nextExmem s.nextMemwb r (readReg s.rf1 r) = readReg s.rf3 r := by
  obtain ⟨-, -, -, -, -, hid, -⟩ := hc
  have hx : s.exFaults = false := by simp [State.exFaults, exResolution_forwarding hp]
  have hw : s.idexDone.writes = s.nextExmem.writes := by simp [State.idexDone, hx]; rfl
  have hr : s.idexDone.rd = s.nextExmem.rd := by simp [State.idexDone, hx]; rfl
  unfold State.rf3 State.rf2 forwardEx
  rw [readReg_commitLatch, readReg_commitLatch, hw, hr]
  by_cases h1 : s.nextExmem.writes = true ∧ s.nextExmem.rd = r
  · have hv : s.idex.valid = true := by
      have := h1.1; rw [nextExmem_writes] at this; exact (writes_valid this).1
    have hm : s.idex.ctrl.memRead = false := by
      by_contra hm
      apply hl
      have h2 := h1.1; rw [nextExmem_writes] at h2
      exact ⟨hv, by simpa using hm, (writes_valid h2).2.2, by rw [← nextExmem_rd hv]; exact h1.2⟩
    have hmt : s.nextExmem.ctrl.memToReg = false := by
      have := (writes_facts hid).1
      simp [State.nextExmem, executeStage, hv, this, hm]
    rw [if_pos (by simp [h1]), if_pos h1]
    have : s.idexDone.result = s.nextExmem.aluResult := by
      simp only [State.idexDone, hx, Bool.false_eq_true, if_false]
      simp [Latch.result, memoryStage, hmt]
    exact this.symm
  · rw [if_neg (by simpa using h1), if_neg h1]
    by_cases h2 : s.nextMemwb.writes = true ∧ s.nextMemwb.rd = r
    · rw [if_pos (by simp [h2]), if_pos h2]
    · rw [if_neg (by simpa using h2), if_neg h2]

/-- The decode bypass is the execute bypass of this cycle's results (R189). -/
theorem bypassDecode_eq (a b : Latch) (rf : Vector Word 32) (r : RegIdx) :
    bypassDecode a b rf r = forwardEx a b r (readReg rf r) := rfl

/-- An instruction that issues has, in the next cycle, its operands of program order (R203). -/
theorem operandsReady_issue {s : State} (hc : s.Coherent) (hrun : s.status = .running)
    (hi : s.issues = true) :
    (s.decoded.ctrl.usesRs1 = true → s.flowCycle.exA = readReg s.rf3 s.decoded.rs1) ∧
    (s.decoded.ctrl.usesRs2 = true → s.flowCycle.exB = readReg s.rf3 s.decoded.rs2) := by
  have hh := ((issues_iff s).1 hi).2.2.2
  have hD : s.nextIdex = s.decoded := by simp [State.nextIdex, hi]
  have hb : s.busyExact := hc.2.2.2.2.2.2.2.2.2.1 hrun
  cases hp : s.policy with
  | noForwarding =>
    simp only [State.hasHazard, hp] at hh
    simp only [busyHazard, Bool.or_eq_false_iff, Bool.and_eq_false_imp, bne_eq_false_iff_eq, Bool.and_eq_true, bne_iff_ne, and_imp] at hh
    refine ⟨fun hu => ?_, fun hu => ?_⟩
    · simp only [State.exA, flowCycle_policy, hp, flowCycle_idex, hD]
      show readReg s.rf1 _ = _
      by_cases h0 : s.decoded.rs1 = 0
      · show readReg s.rf1 s.decoded.rs1 = _
        rw [h0]; simp only [readReg_zero]
      · exact rf1_eq_rf3 hb (hh.1 hu h0)
    · simp only [State.exB, flowCycle_policy, hp, flowCycle_idex, hD]
      show readReg s.rf1 _ = _
      by_cases h0 : s.decoded.rs2 = 0
      · show readReg s.rf1 s.decoded.rs2 = _
        rw [h0]; simp only [readReg_zero]
      · exact rf1_eq_rf3 hb (hh.2 hu h0)
  | forwarding =>
    simp only [State.hasHazard, hp] at hh
    simp only [loadUseHazard] at hh
    refine ⟨fun hu => ?_, fun hu => ?_⟩
    · simp only [State.exA, flowCycle_policy, hp, flowCycle_idex, hD, flowCycle_exmem, flowCycle_memwb, hu, if_true]
      refine bypass_eq_rf3 hc hp s.decoded.rs1 ?_
      rintro ⟨a, b, c, d⟩
      rw [← d] at hh
      simp [a, b, hu] at hh
      exact c hh
    · simp only [State.exB, flowCycle_policy, hp, flowCycle_idex, hD, flowCycle_exmem, flowCycle_memwb, hu, if_true]
      refine bypass_eq_rf3 hc hp s.decoded.rs2 ?_
      rintro ⟨a, b, c, d⟩
      rw [← d] at hh
      simp [a, b, hu] at hh
      exact c hh

/-- No load and store in one latch: the load reads the same after the store (R176). -/
theorem loadData_nextMem {s : State} (hc : s.Coherent) : loadData s.nextMem s.exmem = loadData s.mem s.exmem := by
  by_cases h : s.exmem.ctrl.memWrite = true
  · have := writes_facts hc.2.2.2.2.2.2.1
    have h2 : s.exmem.ctrl.memRead = false := by
      rcases hc.2.2.2.2.2.2.1 with hb | ⟨-, -, hd⟩
      · rw [hb]; rfl
      · have hcw := hd.2.2.2.2.2.2.2.1
        rw [hcw] at h ⊢
        by_contra hr
        have := ((controlOfWord_facts s.exmem.instr).2.2 (by simpa using hr)).2
        rw [((controlOfWord_facts s.exmem.instr).2.1 h).2] at this
        simp at this
    simp [loadData, h2]
  · have : s.nextMem = s.mem := by simp [State.nextMem, storeLatch, h]
    rw [this]

/-- After a halting cycle the write-back has been done. -/
theorem halt_rf1 (s : State) (k : FaultKind) (p w : Word) : (s.haltCycle k p w).rf1 = s.rf1 := commit_twice _ _

/-- After a halting cycle EX/MEM still finishes as it would have. -/
theorem halt_nextMemwb {s : State} (hc : s.Coherent) (k : FaultKind) (p w : Word) :
    (s.haltCycle k p w).nextMemwb = s.nextMemwb := by
  show memoryStage s.nextMem s.exmem = memoryStage s.mem s.exmem
  unfold memoryStage
  rw [loadData_nextMem hc]

/-- After a halting cycle the registers of program order are as before. -/
theorem halt_rf2 {s : State} (hc : s.Coherent) (k : FaultKind) (p w : Word) :
    (s.haltCycle k p w).rf2 = s.rf2 := by
  unfold State.rf2
  rw [halt_rf1, halt_nextMemwb hc]

/-- `Resolve` depends on the operands its class reads only (30_encoding.md R85, R192). -/
theorem resolve_congr {L : Latch} {k : Kind} {op : AluOp} (hL : L.ctrl = classCtrl k op) {a a' b b' : Word}
    (h : (L.ctrl.usesRs1 = true → a = a') ∧ (L.ctrl.usesRs2 = true → b = b')) : resolve L a b = resolve L a' b' := by
  rw [hL] at h
  unfold resolve
  rw [hL]
  cases k <;> simp [classCtrl, Ctrl.zero] at h ⊢ <;> simp [h]

/-- Execute's result depends on the operands its class reads only (30_encoding.md R85). -/
theorem exResult_congr {L : Latch} {k : Kind} {op : AluOp} (hL : L.ctrl = classCtrl k op) (hk : k ≠ .none)
    {a a' b b' : Word} (h : (L.ctrl.usesRs1 = true → a = a') ∧ (L.ctrl.usesRs2 = true → b = b')) : exResult L a b = exResult L a' b' := by
  rw [hL] at h
  unfold exResult aluOperand2
  rw [hL]
  cases k <;> simp [classCtrl, Ctrl.zero] at h hk ⊢ <;> simp [h]

/-- What an executed latch commits and stores depends on the operands its class reads only. -/
theorem commit_congr {L : Latch} {k : Kind} {op : AluOp} (hL : L.ctrl = classCtrl k op) (hk : k ≠ .none)
    {a a' b b' : Word} (h : (L.ctrl.usesRs1 = true → a = a') ∧ (L.ctrl.usesRs2 = true → b = b')) (rf : Vector Word 32) (m : Memory) :
    commitLatch rf (memoryStage m (executeStage L a b)) = commitLatch rf (memoryStage m (executeStage L a' b')) ∧
    storeLatch m (executeStage L a b) = storeLatch m (executeStage L a' b') := by
  have he := exResult_congr hL hk h
  constructor
  · unfold executeStage
    by_cases hv : L.valid = true
    · simp [hv, memoryStage, commitLatch, Latch.writes, Latch.result, loadData, he]
    · simp [hv]
  · unfold executeStage
    by_cases hv : L.valid = true
    · simp only [hv, if_true, storeLatch, he]
      by_cases hw : L.ctrl.memWrite = true
      · have hb : b = b' := by
          apply h.2
          rw [hL] at hw ⊢
          cases k <;> simp [classCtrl, Ctrl.zero] at hw ⊢
        rw [hb]
      · simp [hw]
    · simp [hv]

/-- No other class resolves anything. -/
theorem resolve_nontransfer {L : Latch} (h : L.isTransfer = false) (a b : Word) : resolve L a b = .stay := by
  unfold Latch.isTransfer at h
  unfold resolve
  cases hk : L.ctrl.kind <;> simp [hk] at h ⊢

/-- A valid IF/ID is a fetched word, the one before `pc`. -/
theorem ifid_of_valid {s : State} (hc : s.Coherent) (hv : s.ifid.valid = true) :
    s.ifid = fetchedLatch s.ifid.pc s.ifid.instr ∧ s.fetchedAt s.ifid ∧ s.pc = s.ifid.pc + 4 := by
  rcases hc.2.2.2.2.1 with h | h
  · rw [h] at hv; simp [Latch.bubble] at hv
  · exact h

/-- The address after the issuing instruction, if nothing redirects. -/
theorem programPc_next {s : State} (hc : s.Coherent) (hi : s.issues = true) (hr : s.redirect = none)
    (hx : s.flowCycle.exResolution = .stay) : s.flowCycle.programPc = s.ifid.pc + 4 := by
  have hv := ((issues_iff s).1 hi).1
  have hst : s.stalls = false := by
    by_contra h
    have h1 := ((stalls_iff s).1 (by simpa using h)).2.2.2
    have h2 := ((issues_iff s).1 hi).2.2.2
    rw [h1] at h2; simp at h2
  rw [programPc_stay hx, ← (ifid_of_valid hc hv).2.2]
  simp only [flowCycle_ifid, flowCycle_pc, State.nextIfid, State.nextPc, hr, hst]
  by_cases hb : s.inBounds s.pc = true
  · simp [hb, fetchedLatch]
  · simp [hb, Latch.bubble]

/-- When an instruction issues, execute resolves nothing (R194, R213). -/
theorem issue_exResolution {s : State} (hf : s.faultOf = none) (hi : s.issues = true) : s.exResolution = .stay := by
  have h1 := ((faultOf_none s).1 hf).1
  have h2 := (squash_false_iff s).1 ((issues_iff s).1 hi).2.1
  cases hx : s.exResolution with
  | fault k p w => exact absurd hx (h1 k p w)
  | redirect t => exact absurd hx (h2 t)
  | stay => rfl

/-- An issuing instruction is of one of the nine classes (30_encoding.md R86). -/
theorem kind_of_issue {s : State} (hi : s.issues = true) : ∃ k op, s.decoded.ctrl = classCtrl k op ∧ k ≠ .none := by
  obtain ⟨k, op, h⟩ := controlOfWord_eq s.ifid.instr
  refine ⟨k, op, h, ?_⟩
  rintro rfl
  have := (decodeFault_none (idFault_none_of_issues hi)).1
  rw [show s.decoded.ctrl = classCtrl .none op from h] at this
  simp [classCtrl] at this

/-- What an issuing transfer resolves to: the same under both policies, on its operands of program order (R191, R203). -/
theorem issue_resolution {s : State} (hc : s.Coherent) (hrun : s.status = .running)
    (hi : s.issues = true) {k : Kind} {op : AluOp} (hk : s.decoded.ctrl = classCtrl k op) :
    (s.policy = .noForwarding → s.flowCycle.exResolution =
      resolve s.decoded (readReg s.rf3 s.decoded.rs1) (readReg s.rf3 s.decoded.rs2)) ∧
    (s.policy = .forwarding → s.idResolution =
      resolve s.decoded (readReg s.rf3 s.decoded.rs1) (readReg s.rf3 s.decoded.rs2)) := by
  have hD : s.flowCycle.idex = s.decoded := by simp [State.nextIdex, hi]
  obtain ⟨o1, o2⟩ := operandsReady_issue hc hrun hi
  have hR := resolve_congr hk ⟨o1, o2⟩
  constructor
  · intro hp
    rw [← hR]
    unfold State.exResolution
    simp only [flowCycle_policy, hp, hD]
    by_cases ht : s.decoded.isTransfer = true
    · have : s.decoded.valid = true := rfl
      simp [this, ht]
    · rw [resolve_nontransfer (by simpa using ht)]; simp [ht]
  · intro hp
    rw [← hR]
    unfold State.idResolution
    simp only [hp, hi, Bool.true_and]
    by_cases ht : s.decoded.isTransfer = true
    · rw [if_pos ht]
      apply resolve_congr hk
      constructor
      · intro hu
        simp only [State.exA, flowCycle_policy, hp, hD, hu, if_true, flowCycle_exmem, flowCycle_memwb]
        rfl
      · intro hu
        simp only [State.exB, flowCycle_policy, hp, hD, hu, if_true, flowCycle_exmem, flowCycle_memwb]
        rfl
    · rw [if_neg ht, resolve_nontransfer (by simpa using ht)]

/-- A cycle in which an instruction issues takes the state of program order to the one after that instruction alone. -/
theorem drained_issue_alone {s : State} (hc : s.Coherent) (hrun : s.status = .running) (hf : s.faultOf = none)
    (hi : s.issues = true) :
    s.flowCycle.drained.arch = (s.drained.runAlone s.ifid.instr).arch := by
  have hv := ((issues_iff s).1 hi).1
  have hif := ifid_of_valid hc hv
  have hx := issue_exResolution hf hi
  have hxf := exFaults_of_no_fault hf
  have hpc : s.drained.pc = s.ifid.pc := by rw [drained_pc, programPc_stay hx, hv]; rfl
  have hdf : decodeFault (decodeStage (fetchedLatch s.drained.pc s.ifid.instr) s.drained.regs) = none :=
    idFault_none_of_issues hi
  obtain ⟨k, op, hk, hkn⟩ := kind_of_issue hi
  have hD : s.flowCycle.idex = s.decoded := by simp [State.nextIdex, hi]
  obtain ⟨o1, o2⟩ := operandsReady_issue hc hrun hi
  have hag : (s.decoded.ctrl.usesRs1 = true → s.flowCycle.exA = readReg s.rf3 s.decoded.rs1) ∧
      (s.decoded.ctrl.usesRs2 = true → s.flowCycle.exB = readReg s.rf3 s.decoded.rs2) := ⟨o1, o2⟩
  obtain ⟨hres1, hres2⟩ := issue_resolution hc hrun hi hk
  unfold State.runAlone
  rw [hdf]
  simp only
  have hD0 : decodeStage (fetchedLatch s.drained.pc s.ifid.instr) s.drained.regs =
      { s.decoded with rs1Val := readReg s.rf3 s.decoded.rs1, rs2Val := readReg s.rf3 s.decoded.rs2 } := by
    rw [hpc]; rfl
  generalize hG : readReg s.rf3 s.decoded.rs1 = a0 at *
  generalize hH : readReg s.rf3 s.decoded.rs2 = b0 at *
  rw [hD0]
  set D := s.decoded with hDdef
  have hex : ∀ a b, executeStage { D with rs1Val := a0, rs2Val := b0 } a b = executeStage D a b := fun a b => rfl
  have hres : ∀ a b, resolve { D with rs1Val := a0, rs2Val := b0 } a b = resolve D a b := fun a b => rfl
  have hC := commit_congr hk hkn hag
  have hnx : s.flowCycle.nextExmem = executeStage D s.flowCycle.exA s.flowCycle.exB := by
    unfold State.nextExmem; rw [hD]
  unfold State.finishAlone
  simp only [hres, hex]
  have hregs : s.flowCycle.exFaults = false → s.flowCycle.rf3 = commitLatch s.rf3 (memoryStage s.mem3 (executeStage D a0 b0)) ∧
      s.flowCycle.mem3 = storeLatch s.mem3 (executeStage D a0 b0) := by
    intro hnf
    constructor
    · unfold State.rf3
      rw [flow_rf2 hxf]
      unfold State.idexDone
      rw [hnf, flow_nextMem hxf, hnx]
      simp only [Bool.false_eq_true, if_false]
      exact (hC s.rf3 s.mem3).1
    · unfold State.mem3
      rw [hnf, flow_nextMem hxf, hnx]
      simp only [Bool.false_eq_true, if_false]
      exact (hC s.rf3 s.mem3).2
  cases hp : s.policy with
  | noForwarding =>
    have htx : s.flowCycle.exResolution = resolve D a0 b0 := hres1 hp
    have hred : s.redirect = none := redirect_of_stay hx (idResolution_noForwarding hp)
    cases hr : resolve D a0 b0 with
    | fault kk p w =>
      rw [hr] at htx
      have hfx : s.flowCycle.exFaults = true := by simp [State.exFaults, htx]
      have h1 : s.flowCycle.rf3 = s.rf3 := by
        conv_lhs => unfold State.rf3
        rw [flow_rf2 hxf]
        simp [State.idexDone, hfx]
      have h2 : s.flowCycle.mem3 = s.mem3 := by
        conv_lhs => unfold State.mem3
        rw [hfx, flow_nextMem hxf]
        simp
      have h3 : s.flowCycle.programPc = s.drained.pc := by
        rw [hpc]
        simp only [State.programPc, htx]
        exact (resolve_fault hr).2.2.2.1
      simp only [State.arch, drained_regs, drained_mem, drained_pc, h1, h2, h3, raise_regs, raise_mem, raise_pc]
    | stay =>
      rw [hr] at htx
      obtain ⟨h1, h2⟩ := hregs (by simp [State.exFaults, htx])
      have h3 := programPc_next hc hi hred htx
      simp only [State.arch, drained_regs, drained_mem, drained_pc, h1, h2, h3, Latch.npc, hres, hr]
      rfl
    | redirect tt =>
      rw [hr] at htx
      obtain ⟨h1, h2⟩ := hregs (by simp [State.exFaults, htx])
      have h3 : s.flowCycle.programPc = tt := by simp [State.programPc, htx]
      simp only [State.arch, drained_regs, drained_mem, drained_pc, h1, h2, h3, Latch.npc, hres, hr]
  | forwarding =>
    have htx : s.flowCycle.exResolution = .stay := exResolution_forwarding (by simp [hp])
    obtain ⟨h1, h2⟩ := hregs (by simp [State.exFaults, htx])
    have hir : s.idResolution = resolve D a0 b0 := hres2 hp
    cases hr : resolve D a0 b0 with
    | fault kk p w =>
      exact absurd (hir.trans hr) (((faultOf_none s).1 hf).2.2 kk p w)
    | stay =>
      have hred : s.redirect = none := redirect_of_stay hx (hir.trans hr)
      have h3 := programPc_next hc hi hred htx
      simp only [State.arch, drained_regs, drained_mem, drained_pc, h1, h2, h3, Latch.npc, hres, hr]
      rfl
    | redirect tt =>
      have hred : s.redirect = some tt := by simp [State.redirect, hx, hir, hr]
      have h3 : s.flowCycle.programPc = tt := by
        rw [programPc_stay htx]
        simp [State.nextIfid, State.nextPc, hred, Latch.bubble]
      simp only [State.arch, drained_regs, drained_mem, drained_pc, h1, h2, h3, Latch.npc, hres, hr]

/-- A halting cycle leaves registers, memory and `pc` of program order (60_exceptions.md R214). -/
theorem halt_drained {s : State} (hc : s.Coherent) (k : FaultKind) (p w : Word) :
    (s.haltCycle k p w).drained.arch = s.drained.arch := by
  have hx : (s.haltCycle k p w).exResolution = s.exResolution := rfl
  have hxf : (s.haltCycle k p w).exFaults = s.exFaults := rfl
  have hmem : (s.haltCycle k p w).nextMem = s.nextMem := by
    show storeLatch (storeLatch s.mem s.exmem) s.exmem = storeLatch s.mem s.exmem
    unfold storeLatch
    by_cases hv : (s.exmem.valid && s.exmem.ctrl.memWrite) = true
    · simp only [hv, if_true]
      cases storeWidth? s.exmem.funct3 with
      | none => rfl
      | some n => exact memWrite_twice hc.1 _ _ _
    · simp [hv]
  have hen : (s.haltCycle k p w).nextExmem = s.nextExmem := rfl
  have hd : (s.haltCycle k p w).idexDone = s.idexDone := by
    unfold State.idexDone; rw [hxf, hmem, hen]
  have h1 : (s.haltCycle k p w).rf3 = s.rf3 := by
    unfold State.rf3; rw [halt_rf2 hc, hd]
  have h2 : (s.haltCycle k p w).mem3 = s.mem3 := by
    unfold State.mem3; rw [hxf, hmem, hen]
  have h3 : (s.haltCycle k p w).programPc = s.programPc := rfl
  simp only [State.arch, drained_regs, drained_mem, drained_pc, h1, h2, h3]

/-- JALR is the one instruction of its class. -/
theorem kindOf_jalr {i : Instr} (h : kindOf i = .jalr) : controlOf i = classCtrl .jalr .add := by
  cases i <;> simp [kindOf] at h
  rfl

/-- A word of class JALR is a legal JALR word. -/
theorem jalr_word {w : Word} (h : (controlOfWord w).kind = .jalr) :
    controlOfWord w = classCtrl .jalr .add ∧ ∃ i, decode w = .ok i := by
  cases hd : decode w with
  | error e => simp [controlOfWord, hd, classCtrl] at h
  | ok i =>
    rw [controlOfWord_ok hd] at h ⊢
    refine ⟨kindOf_jalr ?_, i, rfl⟩
    rw [controlOf] at h
    revert h
    cases kindOf i <;> simp [classCtrl]

end Sys2Proof.Machine
end

