-- ==== Sys2Proof/Safety.lean ====
section
/-! DEFINITION. What counts as a safe run, in the terms claims use: a run that never halts with a fault
(60_exceptions.md R207). -/

namespace Sys2Proof.Machine

/-- The status is not `Halted` (10_state.md R37). -/
def State.notHalted (s : State) : Bool :=
  match s.status with
  | .halted _ _ _ => false
  | .running => true
  | .completed => true

/-- No fault is raised in the next `n` cycles of a run (70_reset_and_hazards.md R228). -/
def State.safeFor (n : Nat) (s : State) : Prop := ∀ k, k ≤ n → (runCycles k s).2.notHalted = true

end Sys2Proof.Machine
end

