-- ==== Sys2Proof/Tests/Slice0.lean ====
section
/-! SUPPORT. Tests of the model against words and values the spec writes out (each test names its rule), and a witness for
the hypotheses of every statement of Certificates/Slice0/Obligations.lean that has some. -/

namespace Sys2Proof.Tests
open Sys2Proof Sys2Proof.Machine Sys2Proof.Claims

/-! ### Helpers -/

/-- A running core at `pc` 0x10 with `a` in `x[r]`, `b` in `x[q]`, and the bytes 80 81 FF 7F at 0x100, the memory of the
examples of 44_loads_stores.md. -/
def core (r : RegIdx) (a : Word) (q : RegIdx) (b : Word) : State :=
  { State.reset with
    pc := 0x10
    regs := writeReg (writeReg State.reset.regs r a) q b
    mem := [(0x100, 0x80), (0x101, 0x81), (0x102, 0xFF), (0x103, 0x7F)] }

/-- What a next state holds in `x[r]` after an instruction; `none` if there is no next state. -/
def regAfter (r : RegIdx) (i : Instr) (s : State) : Option Word :=
  match exec i s with
  | .next t => some (t.x r)
  | .fault _ => none
  | .refused _ => none

/-- The program counter after an instruction. -/
def pcAfter (i : Instr) (s : State) : Option Word :=
  match exec i s with
  | .next t => some t.pc
  | .fault _ => none
  | .refused _ => none

/-- The word of memory at `a` after an instruction. -/
def wordAfter (a : Word) (i : Instr) (s : State) : Option Word :=
  match exec i s with
  | .next t => some (memRead32 t.mem a)
  | .fault _ => none
  | .refused _ => none

/-- The status after an instruction. -/
def statusAfter (i : Instr) (s : State) : Option RunStatus :=
  match exec i s with
  | .next t => some t.status
  | .fault _ => none
  | .refused _ => none

/-- The state `n` cycles after a program has been loaded, for a handful of cycles. -/
def after (n : Nat) (policy : Policy) (prog : List Word) : State := (runCycles n (State.resetWith policy prog)).2

/-- A latch that holds the decoded word `w` of address 0. -/
def latchOf (w : Word) : Latch := decodeStage (fetchedLatch 0 w) State.reset.regs

/-! ### WellFormed refuses a term no word can spell (R66, R68) -/

theorem test_wellFormed_beq : Instr.wellFormed (.beq 1 2 3) = false ∧ Instr.wellFormed (.beq 1 2 2) = true := by decide

theorem test_wellFormed_bne : Instr.wellFormed (.bne 1 2 3) = false ∧ Instr.wellFormed (.bne 1 2 2) = true := by decide

theorem test_wellFormed_blt : Instr.wellFormed (.blt 1 2 3) = false ∧ Instr.wellFormed (.blt 1 2 2) = true := by decide

theorem test_wellFormed_bge : Instr.wellFormed (.bge 1 2 3) = false ∧ Instr.wellFormed (.bge 1 2 2) = true := by decide

theorem test_wellFormed_bltu : Instr.wellFormed (.bltu 1 2 3) = false ∧ Instr.wellFormed (.bltu 1 2 2) = true := by decide

theorem test_wellFormed_bgeu : Instr.wellFormed (.bgeu 1 2 3) = false ∧ Instr.wellFormed (.bgeu 1 2 2) = true := by decide

theorem test_wellFormed_jal : Instr.wellFormed (.jal 1 5) = false ∧ Instr.wellFormed (.jal 1 6) = true := by decide

/-! ### The worked example of each instruction: the word decodes to it, and its result is the one the spec gives -/

/-- R115. -/
theorem test_decode_add : decode 0x002081B3 = .ok (.add 3 1 2) ∧ encode (.add 3 1 2) = 0x002081B3 := by decide

/-- R115. -/
theorem test_add :
    regAfter 3 (.add 3 1 2) (core 1 5 2 10) = some 15 := by decide

/-- R116. -/
theorem test_decode_sub : decode 0x407302B3 = .ok (.sub 5 6 7) ∧ encode (.sub 5 6 7) = 0x407302B3 := by decide

/-- R116. -/
theorem test_sub :
    regAfter 5 (.sub 5 6 7) (core 6 0 7 1) = some 0xFFFFFFFF := by decide

/-- R117. -/
theorem test_decode_sll : decode 0x007312B3 = .ok (.sll 5 6 7) ∧ encode (.sll 5 6 7) = 0x007312B3 := by decide

/-- R117. -/
theorem test_sll :
    regAfter 5 (.sll 5 6 7) (core 6 1 7 35) = some 8 := by decide

/-- R118. -/
theorem test_decode_slt : decode 0x007322B3 = .ok (.slt 5 6 7) ∧ encode (.slt 5 6 7) = 0x007322B3 := by decide

/-- R118. -/
theorem test_slt :
    regAfter 5 (.slt 5 6 7) (core 6 0xFFFFFFFF 7 1) = some 1 := by decide

/-- R119. -/
theorem test_decode_sltu : decode 0x007332B3 = .ok (.sltu 5 6 7) ∧ encode (.sltu 5 6 7) = 0x007332B3 := by decide

/-- R119. -/
theorem test_sltu :
    regAfter 5 (.sltu 5 6 7) (core 6 0xFFFFFFFF 7 1) = some 0 := by decide

/-- R120. -/
theorem test_decode_xor : decode 0x007342B3 = .ok (.xor 5 6 7) ∧ encode (.xor 5 6 7) = 0x007342B3 := by decide

/-- R120. -/
theorem test_xor :
    regAfter 5 (.xor 5 6 7) (core 6 0xFF00FF00 7 0x0FF00FF0) = some 0xF0F0F0F0 := by decide

/-- R121. -/
theorem test_decode_srl : decode 0x007352B3 = .ok (.srl 5 6 7) ∧ encode (.srl 5 6 7) = 0x007352B3 := by decide

/-- R121. -/
theorem test_srl :
    regAfter 5 (.srl 5 6 7) (core 6 0x80000000 7 4) = some 0x08000000 := by decide

/-- R122. -/
theorem test_decode_sra : decode 0x407352B3 = .ok (.sra 5 6 7) ∧ encode (.sra 5 6 7) = 0x407352B3 := by decide

/-- R122. -/
theorem test_sra :
    regAfter 5 (.sra 5 6 7) (core 6 0x80000000 7 4) = some 0xF8000000 := by decide

/-- R123. -/
theorem test_decode_or : decode 0x007362B3 = .ok (.or 5 6 7) ∧ encode (.or 5 6 7) = 0x007362B3 := by decide

/-- R123. -/
theorem test_or :
    regAfter 5 (.or 5 6 7) (core 6 0x0000F000 7 0x000000F0) = some 0x0000F0F0 := by decide

/-- R124. -/
theorem test_decode_and : decode 0x007372B3 = .ok (.and 5 6 7) ∧ encode (.and 5 6 7) = 0x007372B3 := by decide

/-- R124. -/
theorem test_and :
    regAfter 5 (.and 5 6 7) (core 6 0xFFFF0000 7 0x00FFFF00) = some 0x00FF0000 := by decide

/-- R125. -/
theorem test_decode_mul : decode 0x027302B3 = .ok (.mul 5 6 7) ∧ encode (.mul 5 6 7) = 0x027302B3 := by decide

/-- R125. -/
theorem test_mul :
    regAfter 5 (.mul 5 6 7) (core 6 0x7FFFFFFF 7 2) = some 0xFFFFFFFE := by decide

/-- R126. -/
theorem test_decode_mulh : decode 0x027312B3 = .ok (.mulh 5 6 7) ∧ encode (.mulh 5 6 7) = 0x027312B3 := by decide

/-- R126. -/
theorem test_mulh :
    regAfter 5 (.mulh 5 6 7) (core 6 0xFFFFFFFE 7 3) = some 0xFFFFFFFF := by decide

/-- R127. -/
theorem test_decode_mulhsu : decode 0x027322B3 = .ok (.mulhsu 5 6 7) ∧ encode (.mulhsu 5 6 7) = 0x027322B3 := by decide

/-- R127. -/
theorem test_mulhsu :
    regAfter 5 (.mulhsu 5 6 7) (core 6 0xFFFFFFFF 7 2) = some 0xFFFFFFFF := by decide

/-- R128. -/
theorem test_decode_mulhu : decode 0x027332B3 = .ok (.mulhu 5 6 7) ∧ encode (.mulhu 5 6 7) = 0x027332B3 := by decide

/-- R128. -/
theorem test_mulhu :
    regAfter 5 (.mulhu 5 6 7) (core 6 0x80000000 7 4) = some 2 := by decide

/-- R129. -/
theorem test_decode_div : decode 0x020342B3 = .ok (.div 5 6 0) ∧ encode (.div 5 6 0) = 0x020342B3 := by decide

/-- R129. -/
theorem test_div :
    regAfter 5 (.div 5 6 0) (core 6 42 7 0) = some 0xFFFFFFFF := by decide

/-- R130. -/
theorem test_decode_divu : decode 0x027352B3 = .ok (.divu 5 6 7) ∧ encode (.divu 5 6 7) = 0x027352B3 := by decide

/-- R130. -/
theorem test_divu :
    regAfter 5 (.divu 5 6 7) (core 6 100 7 7) = some 14 := by decide

/-- R131. -/
theorem test_decode_rem : decode 0x020362B3 = .ok (.rem 5 6 0) ∧ encode (.rem 5 6 0) = 0x020362B3 := by decide

/-- R131. -/
theorem test_rem :
    regAfter 5 (.rem 5 6 0) (core 6 42 7 0) = some 42 := by decide

/-- R132. -/
theorem test_decode_remu : decode 0x027372B3 = .ok (.remu 5 6 7) ∧ encode (.remu 5 6 7) = 0x027372B3 := by decide

/-- R132. -/
theorem test_remu :
    regAfter 5 (.remu 5 6 7) (core 6 100 7 7) = some 2 := by decide

/-- R134. -/
theorem test_decode_addi : decode 0x00500093 = .ok (.addi 1 0 5) ∧ encode (.addi 1 0 5) = 0x00500093 := by decide

/-- R134. -/
theorem test_addi :
    regAfter 1 (.addi 1 0 5) (core 6 0 7 0) = some 5 := by decide

/-- R135. -/
theorem test_decode_slti : decode 0xFFF32293 = .ok (.slti 5 6 (-1)) ∧ encode (.slti 5 6 (-1)) = 0xFFF32293 := by decide

/-- R135. -/
theorem test_slti :
    regAfter 5 (.slti 5 6 (-1)) (core 6 0xFFFFFFFE 7 0) = some 1 := by decide

/-- R136. -/
theorem test_decode_sltiu : decode 0xFFF33293 = .ok (.sltiu 5 6 (-1)) ∧ encode (.sltiu 5 6 (-1)) = 0xFFF33293 := by decide

/-- R136. -/
theorem test_sltiu :
    regAfter 5 (.sltiu 5 6 (-1)) (core 6 5 7 0) = some 1 := by decide

/-- R137. -/
theorem test_decode_xori : decode 0xFFF34293 = .ok (.xori 5 6 (-1)) ∧ encode (.xori 5 6 (-1)) = 0xFFF34293 := by decide

/-- R137. -/
theorem test_xori :
    regAfter 5 (.xori 5 6 (-1)) (core 6 0x0000FFFF 7 0) = some 0xFFFF0000 := by decide

/-- R138. -/
theorem test_decode_ori : decode 0x0F036293 = .ok (.ori 5 6 0x0F0) ∧ encode (.ori 5 6 0x0F0) = 0x0F036293 := by decide

/-- R138. -/
theorem test_ori :
    regAfter 5 (.ori 5 6 0x0F0) (core 6 0x00000F00 7 0) = some 0x00000FF0 := by decide

/-- R139. -/
theorem test_decode_andi : decode 0x0FF37293 = .ok (.andi 5 6 0x0FF) ∧ encode (.andi 5 6 0x0FF) = 0x0FF37293 := by decide

/-- R139. -/
theorem test_andi :
    regAfter 5 (.andi 5 6 0x0FF) (core 6 0x12345678 7 0) = some 0x00000078 := by decide

/-- R140. -/
theorem test_decode_slli : decode 0x01F31293 = .ok (.slli 5 6 31) ∧ encode (.slli 5 6 31) = 0x01F31293 := by decide

/-- R140. -/
theorem test_slli :
    regAfter 5 (.slli 5 6 31) (core 6 3 7 0) = some 0x80000000 := by decide

/-- R141. -/
theorem test_decode_srli : decode 0x00135293 = .ok (.srli 5 6 1) ∧ encode (.srli 5 6 1) = 0x00135293 := by decide

/-- R141. -/
theorem test_srli :
    regAfter 5 (.srli 5 6 1) (core 6 0x80000000 7 0) = some 0x40000000 := by decide

/-- R142. -/
theorem test_decode_srai : decode 0x40135293 = .ok (.srai 5 6 1) ∧ encode (.srai 5 6 1) = 0x40135293 := by decide

/-- R142. -/
theorem test_srai :
    regAfter 5 (.srai 5 6 1) (core 6 0x80000000 7 0) = some 0xC0000000 := by decide

/-- R147. -/
theorem test_decode_lb : decode 0x00030283 = .ok (.lb 5 6 0) ∧ encode (.lb 5 6 0) = 0x00030283 := by decide

/-- R147. -/
theorem test_lb :
    regAfter 5 (.lb 5 6 0) (core 6 0x100 7 0) = some 0xFFFFFF80 := by decide

/-- R148. -/
theorem test_decode_lh : decode 0x00031283 = .ok (.lh 5 6 0) ∧ encode (.lh 5 6 0) = 0x00031283 := by decide

/-- R148. -/
theorem test_lh :
    regAfter 5 (.lh 5 6 0) (core 6 0x100 7 0) = some 0xFFFF8180 := by decide

/-- R149. -/
theorem test_decode_lw : decode 0x00032283 = .ok (.lw 5 6 0) ∧ encode (.lw 5 6 0) = 0x00032283 := by decide

/-- R149. -/
theorem test_lw :
    regAfter 5 (.lw 5 6 0) (core 6 0x100 7 0) = some 0x7FFF8180 := by decide

/-- R150. -/
theorem test_decode_lbu : decode 0x00034283 = .ok (.lbu 5 6 0) ∧ encode (.lbu 5 6 0) = 0x00034283 := by decide

/-- R150. -/
theorem test_lbu :
    regAfter 5 (.lbu 5 6 0) (core 6 0x100 7 0) = some 0x00000080 := by decide

/-- R151. -/
theorem test_decode_lhu : decode 0x00035283 = .ok (.lhu 5 6 0) ∧ encode (.lhu 5 6 0) = 0x00035283 := by decide

/-- R151. -/
theorem test_lhu :
    regAfter 5 (.lhu 5 6 0) (core 6 0x100 7 0) = some 0x00008180 := by decide

/-- R152. -/
theorem test_decode_sb : decode 0x007300A3 = .ok (.sb 6 7 1) ∧ encode (.sb 6 7 1) = 0x007300A3 := by decide

/-- R152. -/
theorem test_sb :
    wordAfter 0x100 (.sb 6 7 1) (core 6 0x100 7 0xDEADBEEF) = some 0x7FFFEF80 := by decide

/-- R153. -/
theorem test_decode_sh : decode 0x00731123 = .ok (.sh 6 7 2) ∧ encode (.sh 6 7 2) = 0x00731123 := by decide

/-- R153. -/
theorem test_sh :
    wordAfter 0x100 (.sh 6 7 2) (core 6 0x100 7 0xDEADBEEF) = some 0xBEEF8180 := by decide

/-- R154. -/
theorem test_decode_sw : decode 0xFE732E23 = .ok (.sw 6 7 (-4)) ∧ encode (.sw 6 7 (-4)) = 0xFE732E23 := by decide

/-- R154. -/
theorem test_sw :
    wordAfter 0xFC (.sw 6 7 (-4)) (core 6 0x100 7 0xDEADBEEF) = some 0xDEADBEEF := by decide

/-- R158. -/
theorem test_decode_beq : decode 0x00208463 = .ok (.beq 1 2 8) ∧ encode (.beq 1 2 8) = 0x00208463 := by decide

/-- R158. -/
theorem test_beq :
    pcAfter (.beq 1 2 8) (core 1 7 2 7) = some 0x18 := by decide

/-- R159. -/
theorem test_decode_bne : decode 0x00209463 = .ok (.bne 1 2 8) ∧ encode (.bne 1 2 8) = 0x00209463 := by decide

/-- R159. -/
theorem test_bne :
    pcAfter (.bne 1 2 8) (core 1 7 2 7) = some 0x14 := by decide

/-- R160. -/
theorem test_decode_blt : decode 0xFE20CEE3 = .ok (.blt 1 2 (-4)) ∧ encode (.blt 1 2 (-4)) = 0xFE20CEE3 := by decide

/-- R160. -/
theorem test_blt :
    pcAfter (.blt 1 2 (-4)) (core 1 0xFFFFFFFF 2 0) = some 0x0C := by decide

/-- R161. -/
theorem test_decode_bge : decode 0x0020D663 = .ok (.bge 1 2 12) ∧ encode (.bge 1 2 12) = 0x0020D663 := by decide

/-- R161. -/
theorem test_bge :
    pcAfter (.bge 1 2 12) (core 1 0x80000000 2 0x80000000) = some 0x1C := by decide

/-- R162. -/
theorem test_decode_bltu : decode 0x0020E863 = .ok (.bltu 1 2 16) ∧ encode (.bltu 1 2 16) = 0x0020E863 := by decide

/-- R162. -/
theorem test_bltu :
    pcAfter (.bltu 1 2 16) (core 1 0xFFFFFFFF 2 0) = some 0x14 := by decide

/-- R163. -/
theorem test_decode_bgeu : decode 0xFE20FCE3 = .ok (.bgeu 1 2 (-8)) ∧ encode (.bgeu 1 2 (-8)) = 0xFE20FCE3 := by decide

/-- R163. -/
theorem test_bgeu :
    pcAfter (.bgeu 1 2 (-8)) (core 1 0xFFFFFFFF 2 0) = some 0x08 := by decide

/-- R164. -/
theorem test_decode_jal : decode 0x008000EF = .ok (.jal 1 8) ∧ encode (.jal 1 8) = 0x008000EF := by decide

/-- R164. -/
theorem test_jal :
    pcAfter (.jal 1 8) (core 6 0 7 0) = some 0x18 ∧ regAfter 1 (.jal 1 8) (core 6 0 7 0) = some 0x14 := by decide

/-- R165. -/
theorem test_decode_jalr : decode 0x00008067 = .ok (.jalr 0 1 0) ∧ encode (.jalr 0 1 0) = 0x00008067 := by decide

/-- R165. -/
theorem test_jalr :
    pcAfter (.jalr 0 1 0) (core 1 0x20 7 0) = some 0x20 ∧ regAfter 1 (.jalr 1 1 0) (core 1 0x20 7 0) = some 0x14 ∧
      pcAfter (.jalr 1 1 0) (core 1 0x20 7 0) = some 0x20 := by decide

/-- R168. -/
theorem test_decode_lui : decode 0x123452B7 = .ok (.lui 5 0x12345) ∧ encode (.lui 5 0x12345) = 0x123452B7 := by decide

/-- R168. -/
theorem test_lui :
    regAfter 5 (.lui 5 0x12345) (core 6 0 7 0) = some 0x12345000 := by decide

/-- R169. -/
theorem test_decode_auipc : decode 0x00001297 = .ok (.auipc 5 1) ∧ encode (.auipc 5 1) = 0x00001297 := by decide

/-- R169. -/
theorem test_auipc :
    regAfter 5 (.auipc 5 1) { State.reset with pc := 0x8 } = some 0x00001008 := by decide

/-! ### Corners -/

/-- R108, D22: -2^31 / -1. -/
theorem test_div_overflow : regAfter 5 (.div 5 6 7) (core 6 0x80000000 7 0xFFFFFFFF) = some 0x80000000 := by decide

/-- R110, D22: -2^31 rem -1. -/
theorem test_rem_overflow : regAfter 5 (.rem 5 6 7) (core 6 0x80000000 7 0xFFFFFFFF) = some 0 := by decide

/-- R126: -2^31 * -2^31. -/
theorem test_mulh_corner : regAfter 5 (.mulh 5 6 7) (core 6 0x80000000 7 0x80000000) = some 0x40000000 := by decide

/-- R128: 0xFFFFFFFF * 0xFFFFFFFF. -/
theorem test_mulhu_corner : regAfter 5 (.mulhu 5 6 7) (core 6 0xFFFFFFFF 7 0xFFFFFFFF) = some 0xFFFFFFFE := by decide

/-- R17: a result for x0 is discarded, and the instruction goes on to pc + 4. -/
theorem test_add_x0 : regAfter 0 (.add 0 6 7) (core 6 1 7 1) = some 0 ∧ pcAfter (.add 0 6 7) (core 6 1 7 1) = some 0x14 := by
  decide

/-- R146: a load whose rd is its base uses the old base. -/
theorem test_lw_same_register : regAfter 6 (.lw 6 6 0) (core 6 0x100 7 0) = some 0x7FFF8180 := by decide

/-- R50: a word store past 0xFFFFFFFF goes on at 0; here bytes EF BE land at 0xFFFFFFFE and AD DE at 0. -/
theorem test_sw_wraps : wordAfter 0 (.sw 6 7 0) (core 6 0xFFFFFFFE 7 0xDEADBEEF) = some 0x0000DEAD := by decide

/-- R165: an odd sum is rounded down; `jalr x1,3(x6)` with x6 = 0x100 has the target 0x102 and halts. -/
theorem test_jalr_misaligned :
    statusAfter (.jalr 1 6 3) (core 6 0x100 7 0) = some (.halted .misalignedBranchTarget 0x10 0x003300E7) ∧
      regAfter 1 (.jalr 1 6 3) (core 6 0x100 7 0) = some 0 := by decide

/-- R157: a misaligned branch halts although it is not taken. -/
theorem test_bne_misaligned :
    statusAfter (.bne 1 2 2) (core 1 7 2 7) = some (.halted .misalignedBranchTarget 0x10 0x00209163) := by decide

/-- R72, R78, R79: words the spec calls illegal are rejected. -/
theorem test_decode_rejects :
    decode 0x0000000F = .error .opcode ∧ decode 0x00000073 = .error .opcode ∧ decode 0x407342B3 = .error .rType ∧
      decode 0x02031293 = .error .iAlu ∧ decode 0x00033003 = .error .load ∧ decode 0x00033023 = .error .store ∧
      decode 0x0020A063 = .error .branch ∧ decode 0x00009067 = .error .jalr := by decide

/-- The host's two names: a row's word is decoded, placed and issued by the next step. -/
theorem test_withFetchWord : decodeTableWord 32 0x002081B3 = some (.add 3 1 2) ∧
    ((State.reset.withFetchWord 32 0x002081B3).tick.idex.valid, (State.reset.withFetchWord 32 0x002081B3).tick.idex.instr)
      = (true, 0x002081B3) := by decide

/-- The same for an illegal word, which halts (R209). -/
theorem test_withFetchWord_illegal : decodeTableWord 32 0 = none ∧
    (State.reset.withFetchWord 32 0).tick.status = .halted .illegalOpcode 0 0 := by decide


/-! ### Witnesses of the statements' hypotheses -/

/-- `lw x1,0(x0)` then `add x2,x1,x1`: a load and its use. -/
def loadUse : List Word := [0x00002083, 0x00108133]

/-- `beq x0,x0,8` then two additions: a taken branch. -/
def takenBranch : List Word := [0x00000463, 0x00500093, 0x00500093]

/-- `jalr x1,2(x0)` alone: a misaligned jump. -/
def badJalr : List Word := [0x002000E7]

/-- `addi x1,x0,5` alone. -/
def oneAddi : List Word := [0x00500093]

theorem witness_DecodeOfEncodeIsTheInstruction :
    Instr.wellFormed (.add 31 31 31) = true ∧ Instr.wellFormed (.beq 1 2 (-4096)) = true ∧
      Instr.wellFormed (.jal 1 (-1048576)) = true := by decide

theorem witness_EncodeOfDecodeIsTheWord : ∃ w i, decode w = .ok i := ⟨0x002081B3, .add 3 1 2, by decide⟩

theorem witness_DecoderAcceptsExactlyTheOpcodeTable :
    (∃ w i, decode w = .ok i) ∧ ∃ (w : Word) (j : Instr), w &&& (tableRow j).1 = (tableRow j).2 :=
  ⟨⟨0x002081B3, .add 3 1 2, by decide⟩, 0x002081B3, .add 0 0 0, by decide⟩

theorem witness_LegalWordHasTheClassOfItsOpcode :
    (∃ w i, decode w = .ok i) ∧ ∃ op op' : BitVec 7, classOfOpcode op ≠ .none ∧ classOfOpcode op = classOfOpcode op' :=
  ⟨⟨0x002081B3, .add 3 1 2, by decide⟩, 0b0110011, 0b0110011, by decide, rfl⟩

/-- An illegal word, and a legal word of each of the nine opcodes. -/
theorem witness_ControlSignalsFollowTheTable :
    decode 0 = .error .opcode ∧ decode 0x002081B3 = .ok (.add 3 1 2) ∧ decode 0x00500093 = .ok (.addi 1 0 5) ∧
      decode 0x40135293 = .ok (.srai 5 6 1) ∧ decode 0x00030283 = .ok (.lb 5 6 0) ∧
      decode 0x007300A3 = .ok (.sb 6 7 1) ∧ decode 0x00208463 = .ok (.beq 1 2 8) ∧
      decode 0x008000EF = .ok (.jal 1 8) ∧ decode 0x00008067 = .ok (.jalr 0 1 0) ∧
      decode 0x123452B7 = .ok (.lui 5 0x12345) ∧ decode 0x00001297 = .ok (.auipc 5 1) := by decide

/-- The only hypothesis of the statements about results of register, multiply and divide operations: a running core. -/
theorem witness_RegisterOperationsWriteTheirResult : State.reset.status = .running := by decide
theorem witness_MultiplicationsWriteTheirResult : State.reset.status = .running := by decide
theorem witness_UnsignedDivisionsWriteTheirResult : State.reset.status = .running := by decide
theorem witness_SignedDivisionsWriteTheirResult : State.reset.status = .running := by decide

theorem witness_QuotientAndRemainderMakeTheDividend :
    ((7 : Word) ≠ 0 ∧ ¬((100 : Word) = 0x80000000 ∧ (7 : Word) = 0xFFFFFFFF)) ∧
      ((0xFFFFFFFF : Word) ≠ 0 ∧ ¬((0x80000001 : Word) = 0x80000000 ∧ (0xFFFFFFFF : Word) = 0xFFFFFFFF)) ∧
      (0 : Word) = 0 := by decide

/-- A running core; an upper field that is neither of the two a shift word has. -/
theorem witness_ImmediateOperationsWriteTheirResult :
    State.reset.status = .running ∧ (0b0100000 : BitVec 7) ≠ 0b0000000 ∧ (0b0000001 : BitVec 7) ≠ 0b0000000 ∧
      (0b0000001 : BitVec 7) ≠ 0b0100000 := by decide

theorem witness_LoadsWriteTheValueRead : State.reset.status = .running := by decide

/-- A running core with canonical memory; the last byte stored, and the first address outside a word stored at 0. -/
theorem witness_StoresWriteTheirBytes :
    (core 6 0x100 7 0xDEADBEEF).status = .running ∧ (core 6 0x100 7 0xDEADBEEF).mem.wf ∧ 3 < 4 ∧
      4 ≤ ((4 : Word) - 0).toNat ∧ 4 ≤ ((0xFFFFFFFF : Word) - 0).toNat := by decide

/-- Offsets 4092, -4096 and 0 are multiples of 4, 4094 and 2 are not; operands for which each condition holds and fails. -/
theorem witness_BranchesGoToTheirTarget :
    State.reset.status = .running ∧ ((branchOffset 0 1 0b111111 0b1110).signExtend 32).toNat % 4 = 0 ∧
      ((branchOffset 1 0 0 0).signExtend 32).toNat % 4 = 0 ∧ ((branchOffset 0 0 0 0).signExtend 32).toNat % 4 = 0 ∧
      ((branchOffset 0 1 0b111111 0b1111).signExtend 32).toNat % 4 ≠ 0 ∧
      ((branchOffset 0 0 0 1).signExtend 32).toNat % 4 ≠ 0 ∧
      ((1 : Word) = 1 ∧ (1 : Word) ≠ 2) ∧ ((0xFFFFFFFF : Word).toInt < (0 : Word).toInt) ∧
      ¬((0xFFFFFFFF : Word).toNat < (0 : Word).toNat) := by decide

/-- Offsets -2^20 and 4 are multiples of 4, 2 and 2^20 - 2 are not. -/
theorem witness_JalLinksAndJumps :
    State.reset.status = .running ∧
      (((1#1 : BitVec 1) ++ (0 : BitVec 8) ++ (0 : BitVec 1) ++ (0 : BitVec 10) ++ 0#1).signExtend 32).toNat % 4 = 0 ∧
      (((0#1 : BitVec 1) ++ (0 : BitVec 8) ++ (0 : BitVec 1) ++ (2 : BitVec 10) ++ 0#1).signExtend 32).toNat % 4 = 0 ∧
      (((0#1 : BitVec 1) ++ (0 : BitVec 8) ++ (0 : BitVec 1) ++ (1 : BitVec 10) ++ 0#1).signExtend 32).toNat % 4 ≠ 0 ∧
      (((0#1 : BitVec 1) ++ (0xFF : BitVec 8) ++ (1 : BitVec 1) ++ (0x3FF : BitVec 10) ++ 0#1).signExtend 32).toNat % 4 ≠ 0
      := by decide

/-- Sums with bit 1 clear, also an odd one, and sums with bit 1 set. -/
theorem witness_JalrLinksAndJumps :
    State.reset.status = .running ∧ (State.reset.x 0 + (1 : BitVec 12).signExtend 32).getLsbD 1 = false ∧
      (State.reset.x 0 + (0x800 : BitVec 12).signExtend 32).getLsbD 1 = false ∧
      (State.reset.x 0 + (2 : BitVec 12).signExtend 32).getLsbD 1 = true ∧
      (State.reset.x 0 + (0xFFF : BitVec 12).signExtend 32).getLsbD 1 = true := by decide

theorem witness_UpperImmediatesWriteTheirResult : State.reset.status = .running := by decide

theorem witness_RegisterZeroIsHardwired : (31 : RegIdx) ≠ 0 ∧ (1 : RegIdx) ≠ 0 ∧ (1 : RegIdx) ≠ 31 := by decide

theorem witness_MemReadIsLittleEndian : 0 < 2 ∧ 1 < 2 ∧ 0 < 4 ∧ 3 < 4 := by decide

/-- A canonical memory; the lowest and the highest byte address; a word at 0xFFFFFFFE reaches address 1. -/
theorem witness_MemWriteChangesOnlyItsBytes :
    (core 6 0 7 0).mem.wf ∧ 0 < 2 ^ 32 ∧ 0xFFFFFFFF < 2 ^ 32 ∧ 1 = ((0xFFFFFFFE : Word).toNat + 3) % 2 ^ 32 := by decide

theorem witness_MemoryKeepsItsCanonicalForm :
    (core 6 0 7 0).mem.wf ∧ (∃ t, exec (.sb 6 7 1) (core 6 0 7 0) = .next t) ∧ (∃ t, step (core 6 0 7 0) = .next t) ∧
      ∃ m n : Memory, m.wf ∧ n.wf ∧ ∀ a : Word, memRead8 m a = memRead8 n a :=
  ⟨by decide, ⟨_, rfl⟩, ⟨_, rfl⟩, (core 6 0 7 0).mem, (core 6 0 7 0).mem, by decide, by decide, fun _ => rfl⟩

theorem witness_StepTakesOneCycle :
    State.reset.status = .running ∧ { State.reset with status := .completed }.status ≠ .running := by decide

/-- After four cycles MEM/WB holds the addition; after reset it is a bubble. -/
theorem witness_WriteBackCommitsAndDecodeSeesIt :
    (after 4 .forwarding oneAddi).status = .running ∧ WillWrite (after 4 .forwarding oneAddi).memwb ∧
      (2 : RegIdx) ≠ (after 4 .forwarding oneAddi).memwb.rd ∧ ¬WillWrite State.reset.memwb := by decide

/-- A running core without a fault, with any latch in EX/MEM: each of the three stores and the five loads. -/
theorem witness_MemoryStageLoadsAndStores :
    (∀ L : Latch, { State.reset with exmem := L }.status = .running ∧ { State.reset with exmem := L }.faultOf = none) ∧
    ((latchOf 0x00730023).valid = true ∧ (latchOf 0x00730023).ctrl.memWrite = true ∧ (latchOf 0x00730023).funct3 = 0b000#3) ∧
    ((latchOf 0x00731023).valid = true ∧ (latchOf 0x00731023).ctrl.memWrite = true ∧ (latchOf 0x00731023).funct3 = 0b001#3) ∧
    ((latchOf 0x00732023).valid = true ∧ (latchOf 0x00732023).ctrl.memWrite = true ∧ (latchOf 0x00732023).funct3 = 0b010#3) ∧
    ((latchOf 0x00030283).valid = true ∧ (latchOf 0x00030283).ctrl.memRead = true ∧ (latchOf 0x00030283).funct3 = 0b000#3) ∧
    ((latchOf 0x00031283).valid = true ∧ (latchOf 0x00031283).ctrl.memRead = true ∧ (latchOf 0x00031283).funct3 = 0b001#3) ∧
    ((latchOf 0x00032283).valid = true ∧ (latchOf 0x00032283).ctrl.memRead = true ∧ (latchOf 0x00032283).funct3 = 0b010#3) ∧
    ((latchOf 0x00034283).valid = true ∧ (latchOf 0x00034283).ctrl.memRead = true ∧ (latchOf 0x00034283).funct3 = 0b100#3) ∧
    ((latchOf 0x00035283).valid = true ∧ (latchOf 0x00035283).ctrl.memRead = true ∧ (latchOf 0x00035283).funct3 = 0b101#3) ∧
    ¬(Latch.bubble.valid = true ∧ Latch.bubble.ctrl.memWrite = true) ∧
    ¬(Latch.bubble.valid = true ∧ Latch.bubble.ctrl.memRead = true) :=
  ⟨fun _ => ⟨rfl, rfl⟩, by decide, by decide, by decide, by decide, by decide, by decide, by decide, by decide, by decide,
    by decide⟩

/-- Both policies, a source used and not used, and each arm of the bypass: EX/MEM, MEM/WB and neither. -/
theorem witness_ExecuteTakesItsOperandsThroughTheBypass :
    (after 4 .noForwarding loadUse).policy = .noForwarding ∧ (after 4 .forwarding loadUse).policy = .forwarding ∧
      (after 4 .forwarding loadUse).idex.ctrl.usesRs1 = true ∧ (after 4 .forwarding loadUse).idex.ctrl.usesRs2 = true ∧
      (latchOf 0x123452B7).ctrl.usesRs1 = false ∧ (latchOf 0x123452B7).ctrl.usesRs2 = false ∧
      (WillWrite (latchOf 0x00500093) ∧ (latchOf 0x00500093).rd = 1) ∧
      (¬(WillWrite (after 4 .forwarding loadUse).exmem ∧ (after 4 .forwarding loadUse).exmem.rd = 1) ∧
        WillWrite (after 4 .forwarding loadUse).memwb ∧ (after 4 .forwarding loadUse).memwb.rd = 1) ∧
      ¬(WillWrite Latch.bubble ∧ Latch.bubble.rd = 1) := by decide

/-- A running core without a fault, with any latch in ID/EX: a bubble, and a latch of each kind of result. -/
theorem witness_ExecuteStageMakesTheResult :
    (∀ L : Latch, Flows { State.reset with idex := L }) ∧ Latch.bubble.valid = false ∧
      ((latchOf 0x123452B7).valid = true ∧ (latchOf 0x123452B7).ctrl.kind = .lui) ∧
      ((latchOf 0x00001297).valid = true ∧ (latchOf 0x00001297).ctrl.kind = .auipc) ∧
      ((latchOf 0x008000EF).valid = true ∧ (latchOf 0x008000EF).ctrl.kind = .jal) ∧
      ((latchOf 0x00008067).valid = true ∧ (latchOf 0x00008067).ctrl.kind = .jalr) ∧
      (latchOf 0x002081B3).valid = true ∧ (latchOf 0x002081B3).ctrl.kind ∉ [Kind.lui, .auipc, .jal, .jalr] :=
  ⟨fun _ => ⟨rfl, rfl⟩, by decide, by decide, by decide, by decide, by decide, by decide⟩

theorem witness_ResolveAnswersTargetOrFault :
    (latchOf 0x00208463).ctrl.kind = .branch ∧ (latchOf 0x00208463).funct3 ≠ 0b010#3 ∧
      (latchOf 0x00208463).funct3 ≠ 0b011#3 ∧ Cond (latchOf 0x00208463).funct3 7 7 ∧
      ¬Cond (latchOf 0x00208463).funct3 7 8 ∧ (latchOf 0x008000EF).ctrl.kind = .jal ∧
      (latchOf 0x003300E7).ctrl.kind = .jalr ∧
      (((0x100 : Word) + (latchOf 0x003300E7).imm) &&& 0xFFFFFFFE).getLsbD 1 = true ∧
      (((0x101 : Word) + (latchOf 0x003300E7).imm) &&& 0xFFFFFFFE).getLsbD 1 = false := by
  unfold Cond; decide

/-- A branch in execute under `NoForwarding`, one that issues from decode under `Forwarding`, and neither. -/
theorem witness_TransfersResolveWhereThePolicySays :
    (after 2 .noForwarding takenBranch).policy = .noForwarding ∧
      (after 2 .noForwarding takenBranch).idex.valid = true ∧
      (after 2 .noForwarding takenBranch).idex.ctrl.kind ∈ [Kind.branch, .jal, .jalr] ∧
      (State.resetWith .noForwarding []).idex.valid = false ∧
      (after 1 .forwarding takenBranch).policy = .forwarding ∧ (after 1 .forwarding takenBranch).issues = true ∧
      (after 1 .forwarding takenBranch).decoded.ctrl.kind ∈ [Kind.branch, .jal, .jalr] ∧
      State.reset.issues = false := by decide

/-- The addition behind the load waits under `NoForwarding`. -/
theorem witness_NoForwardingStallsOnABusySource :
    (after 2 .noForwarding loadUse).policy = .noForwarding ∧ (after 2 .noForwarding loadUse).ifid.valid = true ∧
      (after 2 .noForwarding loadUse).squash = false ∧ (after 2 .noForwarding loadUse).idFault = none ∧
      (after 2 .noForwarding loadUse).stalls = true ∧ (after 1 .noForwarding loadUse).ifid.valid = true ∧
      (after 1 .noForwarding loadUse).stalls = false := by decide

/-- The addition behind the load waits one cycle under `Forwarding`. -/
theorem witness_ForwardingStallsOnALoadUseOnly :
    (after 2 .forwarding loadUse).policy = .forwarding ∧ (after 2 .forwarding loadUse).ifid.valid = true ∧
      (after 2 .forwarding loadUse).idFault = none ∧ (after 2 .forwarding loadUse).stalls = true ∧
      (after 1 .forwarding loadUse).ifid.valid = true ∧ (after 1 .forwarding loadUse).stalls = false := by decide

theorem witness_StallHoldsDecodeAndFetch :
    Flows (after 2 .forwarding loadUse) ∧ (after 2 .forwarding loadUse).stalls = true := by
  unfold Flows; decide

/-- A bubble in IF/ID, and an instruction that issues. -/
theorem witness_IssueFillsIdEx :
    Flows State.reset ∧ State.reset.ifid.valid = false ∧ Flows (after 1 .forwarding oneAddi) ∧
      (after 1 .forwarding oneAddi).ifid.valid = true ∧ (after 1 .forwarding oneAddi).stalls = false ∧
      (after 1 .forwarding oneAddi).squash = false := by
  unfold Flows; decide

/-- A redirect from execute and one from decode. -/
theorem witness_RedirectSetsThePc :
    Flows (after 2 .noForwarding takenBranch) ∧ (after 2 .noForwarding takenBranch).exResolution = .redirect 8 ∧
      Flows (after 1 .forwarding takenBranch) ∧ (after 1 .forwarding takenBranch).idResolution = .redirect 8 := by
  unfold Flows; decide

theorem witness_RedirectFlushesTheYounger :
    (Flows (after 2 .noForwarding takenBranch) ∧ (after 2 .noForwarding takenBranch).redirect ≠ none ∧
      (after 2 .noForwarding takenBranch).policy = .noForwarding) ∧
    Flows (after 1 .forwarding takenBranch) ∧ (after 1 .forwarding takenBranch).redirect ≠ none ∧
      (after 1 .forwarding takenBranch).policy = .forwarding := by
  unfold Flows; decide

/-- A stall, the first and the last word of a program, and the first address outside it. -/
theorem witness_FetchFollowsThePc :
    (Flows (after 2 .forwarding loadUse) ∧ (after 2 .forwarding loadUse).redirect = none ∧
      (after 2 .forwarding loadUse).stalls = true) ∧
    (Flows (after 1 .forwarding loadUse) ∧ (after 1 .forwarding loadUse).redirect = none ∧
      (after 1 .forwarding loadUse).stalls = false ∧
      (after 1 .forwarding loadUse).prog[(after 1 .forwarding loadUse).pc.toNat / 4]? = some 0x00108133) ∧
    Flows (after 1 .forwarding oneAddi) ∧ (after 1 .forwarding oneAddi).redirect = none ∧
      (after 1 .forwarding oneAddi).stalls = false ∧
      Outside (after 1 .forwarding oneAddi) (after 1 .forwarding oneAddi).pc := by
  unfold Flows Outside; decide

/-- The addition enters ID/EX; it is written back with nothing behind it; and no register is touched after reset. -/
theorem witness_BusyCountersMarkAndRelease :
    (Flows (after 1 .forwarding oneAddi) ∧ WillWrite (after 1 .forwarding oneAddi).tick.idex ∧
      ¬WillWrite (after 1 .forwarding oneAddi).memwb) ∧
    (Flows (after 4 .forwarding oneAddi) ∧ WillWrite (after 4 .forwarding oneAddi).memwb ∧
      ¬WillWrite (after 4 .forwarding oneAddi).tick.idex) ∧
    Flows State.reset ∧ ¬WillWrite State.reset.memwb ∧ ¬WillWrite State.reset.tick.idex := by
  unfold Flows; decide

/-- A halting cycle, a redirect with and without a squash, a stall, and none of them. -/
theorem witness_EveryCycleAppendsItsTraceRow :
    ((after 1 .forwarding [0]).status = .running ∧ (after 1 .forwarding [0]).faultOf ≠ none) ∧
    ((after 2 .noForwarding takenBranch).faultOf = none ∧ (after 2 .noForwarding takenBranch).redirect ≠ none ∧
      (after 2 .noForwarding takenBranch).squash = true) ∧
    ((after 2 .forwarding loadUse).faultOf = none ∧ (after 2 .forwarding loadUse).redirect = none ∧
      (after 2 .forwarding loadUse).squash = false ∧ (after 2 .forwarding loadUse).stalls = true) ∧
    State.reset.faultOf = none ∧ State.reset.redirect = none ∧ State.reset.squash = false ∧
      State.reset.stalls = false := by decide

/-- A cycle after which the core has completed, and one after which it runs on. -/
theorem witness_CompletesWhenDrained :
    Flows (after 4 .forwarding oneAddi) ∧ (after 4 .forwarding oneAddi).tick.status = .completed ∧
      Flows (after 3 .forwarding oneAddi) ∧ (after 3 .forwarding oneAddi).tick.status = .running := by
  unfold Flows; decide

/-- A misaligned JALR in execute and in decode, an illegal word, a misaligned branch and a misaligned JAL in decode. -/
theorem witness_HaltsOnTheseFaultsOnly :
    (after 2 .noForwarding badJalr).exResolution = .fault .misalignedBranchTarget 0 0x002000E7 ∧
    (after 1 .forwarding badJalr).idResolution = .fault .misalignedBranchTarget 0 0x002000E7 ∧
    ((after 1 .forwarding [0]).status = .running ∧ (after 1 .forwarding [0]).ifid.valid = true ∧
      (after 1 .forwarding [0]).squash = false ∧ decode (after 1 .forwarding [0]).ifid.instr = .error .opcode) ∧
    ((after 1 .noForwarding [0x00000163]).squash = false ∧
      decode (after 1 .noForwarding [0x00000163]).ifid.instr = .ok (.beq 0 0 2) ∧
      (controlOfWord 0x00000163).kind ∈ [Kind.branch, .jal] ∧ (immOfWord 0x00000163).toNat % 4 ≠ 0) ∧
    (controlOfWord 0x0020006F).kind ∈ [Kind.branch, .jal] ∧ (immOfWord 0x0020006F).toNat % 4 ≠ 0 := by decide

/-- An illegal word in decode, with and without a write-back in the same cycle. -/
theorem witness_HaltingCycleFinishesOnlyWriteBackAndStore :
    ((after 1 .forwarding [0]).status = .running ∧ (after 1 .forwarding [0]).faultOf = some (.illegalOpcode, 0, 0)) ∧
    ({ (after 1 .forwarding [0]) with memwb := latchOf 0x00500093 }.faultOf = some (.illegalOpcode, 0, 0) ∧
      WillWrite (latchOf 0x00500093)) := by decide

theorem witness_StoppedCoreStaysStopped :
    (after 2 .forwarding [0]).status ≠ .running ∧ (after 5 .forwarding oneAddi).status ≠ .running := by decide

/-- Lengths 0 and 1, and both sides of the bound. -/
theorem witness_LoadProgramRefusesOrResets :
    ([] : List Word).length = 0 ∧ (1 ≤ oneAddi.length ∧ oneAddi.length ≤ 2 ^ 29 ∧ 0 < oneAddi.length) ∧
      (List.replicate (2 ^ 29) (0x13 : Word)).length ≤ 2 ^ 29 ∧
      2 ^ 29 < (List.replicate (2 ^ 29 + 1) (0x13 : Word)).length := by
  refine ⟨rfl, by decide, ?_, ?_⟩
  · rw [List.length_replicate]
  · rw [List.length_replicate]; omega

theorem witness_RunsAddUp : (runCycles 9 (State.resetWith .forwarding [0])).1 < 9 := by decide

theorem witness_HostReadsRegistersAndMemory : 32 ≤ 32 ∧ readRegister State.reset 31 = some 0 := by decide

theorem witness_TraceAndCycleCountAreNeverRead :
    ∃ t t', step State.reset = .next t ∧ step { State.reset with cycle := 7, trace := [] } = .next t' :=
  ⟨_, _, rfl, rfl⟩

theorem witness_ResetIsCoherent : oneAddi.length ≤ maxProgramWords ∧ ([] : List Word).length ≤ maxProgramWords := by decide

set_option synthInstance.maxSize 1000 in
theorem witness_EveryStepKeepsCoherent :
    (after 2 .forwarding loadUse).Coherent ∧ ∃ t, step (after 2 .forwarding loadUse) = .next t :=
  ⟨by decide, _, rfl⟩

set_option synthInstance.maxSize 1000 in
/-- A state whose ID/EX holds an instruction that reads a register. -/
theorem witness_EveryStepKeepsOperandsReady :
    (after 4 .forwarding loadUse).Coherent ∧ (after 4 .forwarding loadUse).operandsReady ∧
      (after 4 .forwarding loadUse).idex.ctrl.usesRs1 = true ∧ (after 4 .forwarding loadUse).idex.valid = true := by
  decide

set_option synthInstance.maxSize 1000 in
/-- Two stalls in a row under `NoForwarding`, one under `Forwarding`. -/
theorem witness_StallsAreShort :
    ((after 2 .noForwarding loadUse).Coherent ∧ (after 2 .noForwarding loadUse).status = .running ∧
      (after 2 .noForwarding loadUse).stalls = true ∧ (after 2 .noForwarding loadUse).tick.stalls = true ∧
      (after 2 .noForwarding loadUse).tick.tick.status = .running) ∧
    (after 2 .forwarding loadUse).Coherent ∧ (after 2 .forwarding loadUse).stalls = true ∧
      (after 2 .forwarding loadUse).status = .running := by decide

set_option synthInstance.maxSize 1000 in
theorem witness_AnInstructionIssuesWithinThreeCycles :
    (after 2 .noForwarding loadUse).Coherent ∧ (after 2 .noForwarding loadUse).status = .running := by decide

theorem witness_StagesInARowAreTheMeaning :
    Instr.wellFormed (.beq 1 2 2) = true ∧ Instr.wellFormed (.add 3 1 2) = true ∧ State.reset.status = .running := by
  decide

set_option synthInstance.maxSize 1000 in
/-- One state whose step issues and one whose step halts. -/
theorem witness_StepRunsTheDecodedInstruction :
    ((after 1 .forwarding oneAddi).Coherent ∧ (after 1 .forwarding oneAddi).status = .running ∧
      (after 1 .forwarding oneAddi).ifid.valid = true ∧
      decode (after 1 .forwarding oneAddi).ifid.instr = .ok (.addi 1 0 5) ∧
      (after 1 .forwarding oneAddi).idex = Latch.bubble ∧ (after 1 .forwarding oneAddi).exmem = Latch.bubble ∧
      (after 1 .forwarding oneAddi).memwb = Latch.bubble) ∧
    (after 1 .forwarding badJalr).Coherent ∧ (after 1 .forwarding badJalr).ifid.valid = true ∧
      decode (after 1 .forwarding badJalr).ifid.instr = .ok (.jalr 1 0 2) ∧
      (after 1 .forwarding badJalr).idex = Latch.bubble ∧ (after 1 .forwarding badJalr).tick.status ≠ .running := by decide

set_option synthInstance.maxSize 1000 in
/-- One cycle in which an instruction issues and one in which none does. -/
theorem witness_IssuingIsExecutingInProgramOrder :
    ((after 1 .forwarding loadUse).Coherent ∧ (after 1 .forwarding loadUse).status = .running ∧
      (after 1 .forwarding loadUse).issues = true) ∧
    (after 2 .forwarding loadUse).Coherent ∧ (after 2 .forwarding loadUse).status = .running ∧
      (after 2 .forwarding loadUse).issues = false ∧
      (∃ t, step (after 2 .forwarding loadUse) = .next t ∧ ∀ k p w, t.status ≠ .halted k p w) := by
  refine ⟨by decide, by decide, by decide, by decide, _, rfl, ?_⟩
  intro k p w h
  have hr : (after 2 .forwarding loadUse).tick.status = .running := by decide
  rw [hr] at h
  exact absurd h (by simp)

set_option synthInstance.maxSize 1000 in
theorem witness_HaltingIsRaisingInProgramOrder :
    (after 2 .noForwarding badJalr).Coherent ∧ (after 2 .noForwarding badJalr).operandsReady ∧
      (after 2 .noForwarding badJalr).status = .running ∧
      (after 2 .noForwarding badJalr).tick.status = .halted .misalignedBranchTarget 0 0x002000E7 := by decide

theorem witness_EveryRunRefinesSequentialExecution :
    loadProgram .noForwarding loadUse = .ok (State.resetWith .noForwarding loadUse) ∧
      loadProgram .forwarding loadUse = .ok (State.resetWith .forwarding loadUse) := by decide

/-- A program that leaves its end after two instructions, and one that halts at its first. -/
theorem witness_ProgramsEndWithinThreeCyclesAnInstruction :
    loadProgram .forwarding loadUse = .ok (State.resetWith .forwarding loadUse) ∧
      Outside (State.sequentialRun 2 (State.resetWith .forwarding loadUse))
        (State.sequentialRun 2 (State.resetWith .forwarding loadUse)).pc ∧
      (State.sequentialRun 1 (State.resetWith .forwarding [0])).status ≠ .running := by
  unfold Outside; decide

theorem witness_PoliciesGiveTheSameResults :
    loadProgram .noForwarding oneAddi = .ok (State.resetWith .noForwarding oneAddi) ∧
      loadProgram .forwarding oneAddi = .ok (State.resetWith .forwarding oneAddi) ∧
      (after 5 .noForwarding oneAddi).status = .completed ∧ (after 5 .forwarding oneAddi).status = .completed := by decide

end Sys2Proof.Tests
end

section
/-! PROOF. The register file's statement, assembled from the laws of Laws/Registers.lean (10_state.md R17). -/

namespace Sys2Proof.Machine

/-- An index other than 0 reads its own cell (R17). -/
theorem readReg_of_ne_zero (rf : Vector Word 32) {i : RegIdx} (hi : i ≠ 0) :
    readReg rf i = rf[i.toNat]'(i.isLt) := if_neg hi

/-- Settles O20: each part is one law of the register file, a read or a write of index 0, of the index written, or of
another index. -/
theorem registerZeroIsHardwired : Obligations.RegisterZeroIsHardwired := by
  intro rf i j v
  exact ⟨readReg_zero rf, writeReg_zero rf v, readReg_of_ne_zero rf, readReg_writeReg_same rf i v,
    readReg_writeReg_other rf i j v, writeReg_cell_zero rf i v⟩

end Sys2Proof.Machine
end

section
/-! PROOF. The data memory's statements: what `MemRead` returns and what `MemWrite` leaves behind, byte by byte, over
the laws of Laws/Memory.lean (20_memory.md R47, R48). -/

namespace Sys2Proof.Machine

/-! ### `MemRead` -/

/-- The byte at a distance from an address wraps at 2^32 (R47). -/
theorem memRead8_add_ofNat (m : Memory) (a : Word) (i : Nat) :
    memRead8 m (a + BitVec.ofNat 32 i) = byteAt m ((a.toNat + i) % 2 ^ 32) := by
  simp only [memRead8, BitVec.toNat_add, BitVec.toNat_ofNat, Nat.add_mod_mod]

/-- Byte `i` of a halfword read is the byte read at distance `i` (R47). -/
theorem extractLsb'_memRead16 (m : Memory) (a : Word) {i : Nat} (hi : i < 2) :
    (memRead16 m a).extractLsb' (8 * i) 8 = memRead8 m (a + BitVec.ofNat 32 i) := by
  unfold memRead16
  interval_cases i
  · rw [BitVec.extractLsb'_append_eq_of_add_le (by decide)]; simp
  · rw [BitVec.extractLsb'_append_eq_of_le (by decide)]; simp

/-- Byte `i` of a word read is the byte read at distance `i` (R47). -/
theorem extractLsb'_memRead32 (m : Memory) (a : Word) {i : Nat} (hi : i < 4) :
    (memRead32 m a).extractLsb' (8 * i) 8 = memRead8 m (a + BitVec.ofNat 32 i) := by
  unfold memRead32
  interval_cases i
  · rw [BitVec.extractLsb'_append_eq_of_add_le (by decide)]; simp
  · rw [BitVec.extractLsb'_append_eq_of_le (by decide), BitVec.extractLsb'_append_eq_of_add_le (by decide)]; simp
  · rw [BitVec.extractLsb'_append_eq_of_le (by decide), BitVec.extractLsb'_append_eq_of_le (by decide),
      BitVec.extractLsb'_append_eq_of_add_le (by decide)]; simp
  · rw [BitVec.extractLsb'_append_eq_of_le (by decide), BitVec.extractLsb'_append_eq_of_le (by decide),
      BitVec.extractLsb'_append_eq_of_le (by decide)]; simp

/-- Settles O21: a byte of the value read is a byte read, and a byte read at a distance wraps at 2^32. -/
theorem memReadIsLittleEndian : Obligations.MemReadIsLittleEndian := by
  intro m a
  refine ⟨rfl, fun i hi => ?_, fun i hi => ?_⟩
  · rw [extractLsb'_memRead16 m a hi, memRead8_add_ofNat]
  · rw [extractLsb'_memRead32 m a hi, memRead8_add_ofNat]

/-! ### `MemWrite` -/

/-- `b` is the address `k` after `a`, modulo 2^32, exactly when its distance from `a` is `k`. -/
theorem toNat_eq_add_mod_iff (a b : Word) {k : Nat} (hk : k < 2 ^ 32) :
    b.toNat = (a.toNat + k) % 2 ^ 32 ↔ (b - a).toNat = k := by
  rw [BitVec.toNat_sub]
  omega

/-- An address is `a` exactly when its distance from `a` is 0. -/
theorem toNat_eq_iff_sub (a b : Word) : b.toNat = a.toNat ↔ (b - a).toNat = 0 := by
  simpa [Nat.mod_eq_of_lt a.isLt] using toNat_eq_add_mod_iff a b (k := 0) (by decide)

/-- The byte at an address after a store: byte `k` of the value at distance `k` while `k` is below the width, the old one
beyond it (R48). -/
theorem byteAt_memWrite {m : Memory} (hm : m.wf) (a b : Word) (n : Width) (v : Word) :
    byteAt (memWrite m a n v) b.toNat =
      if (b - a).toNat < n.bytes then v.extractLsb' (8 * (b - a).toNat) 8 else byteAt m b.toNat :=
  memRead8_memWrite m a b n v hm

/-- Settles O22: every condition of the statement is a value of the distance of `b` from `a`, and at each distance
`byteAt_memWrite` says which byte is there. -/
theorem memWriteChangesOnlyItsBytes : Obligations.MemWriteChangesOnlyItsBytes := by
  intro m a v hm
  refine ⟨fun b hb => ?_, fun b hb => ?_, fun b hb => ?_⟩ <;>
    obtain ⟨b, rfl⟩ : ∃ w : Word, w.toNat = b := ⟨BitVec.ofNatLT b hb, rfl⟩
  · rw [byteAt_memWrite hm]
    simp only [toNat_eq_iff_sub, Width.bytes]
    rcases (b - a).toNat with _ | k <;> simp
  · rw [byteAt_memWrite hm]
    simp only [toNat_eq_iff_sub, toNat_eq_add_mod_iff a b (k := 1) (by decide), Width.bytes]
    rcases (b - a).toNat with _ | _ | k <;> simp
  · rw [byteAt_memWrite hm]
    simp only [toNat_eq_iff_sub, toNat_eq_add_mod_iff a b (k := 1) (by decide),
      toNat_eq_add_mod_iff a b (k := 2) (by decide), toNat_eq_add_mod_iff a b (k := 3) (by decide), Width.bytes]
    rcases (b - a).toNat with _ | _ | _ | _ | k
    case succ.succ.succ.succ =>
      have beyond : ¬ k + 1 + 1 + 1 + 1 < 4 := by omega
      simp [beyond]
    all_goals simp

end Sys2Proof.Machine
end

section
/-! PROOF. The class of a legal word: the one its opcode selects, and no other (30_encoding.md R71, R86). -/

namespace Sys2Proof.Machine

open Claims (classOfOpcode)

/-! ### The control bundle of a class -/

/-- The bundle of a class carries that class (R83). -/
@[simp] theorem classCtrl_kind (k : Kind) (op : AluOp) : (classCtrl k op).kind = k := by cases k <;> rfl

/-- Only the bundle of the class none is illegal (R87). -/
theorem classCtrl_illegal_eq_false_iff (k : Kind) (op : AluOp) : (classCtrl k op).illegal = false ↔ k ≠ .none := by
  cases k <;> simp [classCtrl, Ctrl.zero]

/-- Every instruction is of one of the nine classes (R86). -/
theorem kindOf_ne_none (i : Instr) : kindOf i ≠ .none := by cases i <;> simp [kindOf]

/-- The bundle of an instruction carries the class of the instruction. -/
@[simp] theorem controlOf_kind (i : Instr) : (controlOf i).kind = kindOf i := classCtrl_kind _ _

/-- The bundle of an instruction is not the illegal one (R86). -/
@[simp] theorem controlOf_illegal (i : Instr) : (controlOf i).illegal = false :=
  (classCtrl_illegal_eq_false_iff _ _).2 (kindOf_ne_none i)

/-! ### The class of what each table of the decoder answers -/

/-- The table of R72 holds R-type operations only. -/
theorem kindOf_of_decodeRType {f7 : BitVec 7} {f3 : BitVec 3} {rd rs1 rs2 : RegIdx} {i : Instr}
    (h : decodeRType f7 f3 rd rs1 rs2 = .ok i) : kindOf i = .rAlu := by
  unfold decodeRType at h
  split at h <;> cases h <;> rfl

/-- The table of R73 holds immediate operations only. -/
theorem kindOf_of_decodeIAlu {f3 : BitVec 3} {rd rs1 : RegIdx} {imm : BitVec 12} {i : Instr}
    (h : decodeIAlu f3 rd rs1 imm = .ok i) : kindOf i = .iAlu := by
  unfold decodeIAlu at h
  repeat' split at h
  all_goals cases h <;> rfl

/-- The table of R74 holds loads only. -/
theorem kindOf_of_decodeLoad {f3 : BitVec 3} {rd rs1 : RegIdx} {imm : BitVec 12} {i : Instr}
    (h : decodeLoad f3 rd rs1 imm = .ok i) : kindOf i = .load := by
  unfold decodeLoad at h
  split at h <;> cases h <;> rfl

/-- The table of R75 holds stores only. -/
theorem kindOf_of_decodeStore {f3 : BitVec 3} {rs1 rs2 : RegIdx} {imm : BitVec 12} {i : Instr}
    (h : decodeStore f3 rs1 rs2 imm = .ok i) : kindOf i = .store := by
  unfold decodeStore at h
  split at h <;> cases h <;> rfl

/-- The table of R76 holds branches only. -/
theorem kindOf_of_decodeBranch {f3 : BitVec 3} {rs1 rs2 : RegIdx} {off : BitVec 13} {i : Instr}
    (h : decodeBranch f3 rs1 rs2 off = .ok i) : kindOf i = .branch := by
  unfold decodeBranch at h
  split at h <;> cases h <;> rfl

/-! ### The class and the opcode -/

/-- The instruction a word decodes to is of the class the word's opcode selects (R71, R86). -/
theorem kindOf_of_decode {w : Word} {i : Instr} (h : decode w = .ok i) : kindOf i = classOfOpcode (opcodeField w) := by
  unfold decode at h
  split at h
  next hop => rw [hop]; exact kindOf_of_decodeRType h
  next hop => rw [hop]; exact kindOf_of_decodeIAlu h
  next hop => rw [hop]; exact kindOf_of_decodeLoad h
  next hop => rw [hop]; exact kindOf_of_decodeStore h
  next hop => rw [hop]; exact kindOf_of_decodeBranch h
  next hop => rw [hop]; cases h; rfl
  next hop => rw [hop]; split at h <;> cases h; rfl
  next hop => rw [hop]; cases h; rfl
  next hop => rw [hop]; cases h; rfl
  next => cases h

/-- The opcode of each of the nine classes (R71); for the class none, which has no opcode, 0. -/
def opcodeOfClass : Kind → BitVec 7
  | .rAlu => 0b0110011#7
  | .iAlu => 0b0010011#7
  | .load => 0b0000011#7
  | .store => 0b0100011#7
  | .branch => 0b1100011#7
  | .jal => 0b1101111#7
  | .jalr => 0b1100111#7
  | .lui => 0b0110111#7
  | .auipc => 0b0010111#7
  | .none => 0#7

/-- An opcode that selects a class is the opcode of that class, so no two opcodes select the same one. -/
theorem opcodeOfClass_classOfOpcode {op : BitVec 7} (h : classOfOpcode op ≠ .none) :
    opcodeOfClass (classOfOpcode op) = op := by
  revert h
  unfold classOfOpcode
  split <;> simp [opcodeOfClass]

/-- Settles O5: a legal word's bundle is that of its instruction, whose class `kindOf_of_decode` reads off the opcode;
a class gives its opcode back by `opcodeOfClass`. -/
theorem legalWordHasTheClassOfItsOpcode : Obligations.LegalWordHasTheClassOfItsOpcode := by
  refine ⟨fun w i h => ?_, fun op op' hop heq => ?_⟩
  · rw [controlOfWord_ok h, controlOf_kind]
    exact ⟨controlOf_illegal i, kindOf_ne_none i, kindOf_of_decode h⟩
  · calc op = opcodeOfClass (classOfOpcode op) := (opcodeOfClass_classOfOpcode hop).symm
      _ = opcodeOfClass (classOfOpcode op') := by rw [heq]
      _ = op' := opcodeOfClass_classOfOpcode (heq ▸ hop)

end Sys2Proof.Machine
end

section
/-! PROOF. The register-register instructions that are no signed division: the ten operations, the multiplications and
the unsigned divisions (42_register_ops.md R115 to R128, R130, R132). -/

namespace Sys2Proof.Machine

open Claims (WritesReg RegRegRow)

/-! ### A register write that goes on at `pc + 4` -/

/-- A register write and the step to `pc + 4` change that register and `pc`, and nothing else (R12, R114). -/
theorem writesReg_setX_advance {s : State} (hr : s.status = .running) (rd : RegIdx) (v : Word) :
    WritesReg s (s.setX rd v).advance rd v (s.pc + 4) := by
  refine ⟨fun hrd => ?target, x_zero _, fun r hne => ?others, writeReg_cell_zero .., rfl, fun _ => rfl, hr,
    rfl, rfl, rfl, rfl, rfl, rfl, rfl, rfl, rfl⟩
  case target => rw [advance_x, setX_x, if_pos ⟨rfl, hrd⟩]
  case others => rw [advance_x, setX_x, if_neg fun h => hne h.1]

/-! ### One row of the R-type table -/

/-- A row of the R-type table follows from three facts: the ALU computes the row's value with the operation `op`, R72
lists the instruction under its `funct7` and `funct3`, and its meaning is the shared one (R114) with `op`. The last two
are entries of `decodeRType` and `exec`, the same for all operands, and are looked up where a row does not give them. -/
theorem regRegRow_of_op (op : AluOp) {f7 : BitVec 7} {f3 : BitVec 3} {i : RegIdx → RegIdx → RegIdx → Instr}
    {val : Word → Word → Word} (value : ∀ a b, alu op a b = val a b)
    (listed : ∀ rd rs1 rs2, decodeRType f7 f3 rd rs1 rs2 = .ok (i rd rs1 rs2) := by intros; rfl)
    (meaning : ∀ rd rs1 rs2 s, exec (i rd rs1 rs2) s = execRegReg op rd rs1 rs2 s := by intros; rfl) :
    RegRegRow f7 f3 i val := by
  intro rd rs1 rs2
  refine ⟨(decode_encodeR f7 rs2 rs1 f3 rd).trans (listed rd rs1 rs2), fun s hr => ?_⟩
  refine ⟨_, (meaning rd rs1 rs2 s).trans (execRegReg_running op rd rs1 rs2 hr), ?_⟩
  rw [← value]
  exact writesReg_setX_advance hr rd _

/-! ### Values of the ALU that its definition spells otherwise than the statements -/

/-- The word of a comparison is 1 where it holds and 0 elsewhere (R97, R98). -/
theorem flagWord_decide (p : Prop) [Decidable p] : flagWord (decide p) = if p then 1 else 0 := by
  simp only [flagWord, decide_eq_true_eq]

/-- The high word of the unsigned product, from the product of integers (R107). -/
theorem alu_mulhu (a b : Word) :
    alu .mulhu a b = BitVec.ofInt 32 ((a.toNat : Int) * (b.toNat : Int) / 2 ^ 32) := by
  have product : (a.toNat : Int) * (b.toNat : Int) / 2 ^ 32 = ((a.toNat * b.toNat / 2 ^ 32 : Nat) : Int) := by norm_cast
  rw [product, BitVec.ofInt_natCast]
  rfl

/-! ### The statements -/

/-- Settles O7: each operation is a row by `regRegRow_of_op`, and R72 has no entry for the last word. -/
theorem registerOperationsWriteTheirResult : Obligations.RegisterOperationsWriteTheirResult := by
  refine ⟨?add, ?sub, ?sll, ?slt, ?sltu, ?xor, ?srl, ?sra, ?or, ?and, fun rd rs1 rs2 => ?illegal⟩
  case add => exact regRegRow_of_op .add fun _ _ => rfl
  case sub => exact regRegRow_of_op .sub fun _ _ => rfl
  case sll => exact regRegRow_of_op .sll fun _ _ => rfl
  case slt => exact regRegRow_of_op .slt fun _ _ => flagWord_decide _
  case sltu => exact regRegRow_of_op .sltu fun _ _ => flagWord_decide _
  case xor => exact regRegRow_of_op .xor fun _ _ => rfl
  case srl => exact regRegRow_of_op .srl fun _ _ => rfl
  case sra => exact regRegRow_of_op .sra fun _ _ => rfl
  case or => exact regRegRow_of_op .or fun _ _ => rfl
  case and => exact regRegRow_of_op .and fun _ _ => rfl
  case illegal => exact ⟨.rType, decode_encodeR 0b0100000#7 rs2 rs1 0b100#3 rd⟩

/-- Settles O8: each multiplication is a row by `regRegRow_of_op`; only MULHU's product needs its cast, `alu_mulhu`. -/
theorem multiplicationsWriteTheirResult : Obligations.MultiplicationsWriteTheirResult :=
  ⟨regRegRow_of_op .mul fun _ _ => rfl, regRegRow_of_op .mulh fun _ _ => rfl,
    regRegRow_of_op .mulhsu fun _ _ => rfl, regRegRow_of_op .mulhu alu_mulhu⟩

/-- Settles O9: both divisions are rows by `regRegRow_of_op`, whose values have their own case for a zero divisor. -/
theorem unsignedDivisionsWriteTheirResult : Obligations.UnsignedDivisionsWriteTheirResult :=
  ⟨regRegRow_of_op .divu fun _ _ => rfl, regRegRow_of_op .remu fun _ _ => rfl⟩

end Sys2Proof.Machine
end

section
/-! PROOF. The register-immediate instructions: the six operations on a sign-extended immediate, the three shifts by a
constant amount, and the shift words that are illegal (43_immediate_ops.md R133 to R142). -/

namespace Sys2Proof.Machine

open Claims (WritesReg RegImmRow ShiftImmRow)

/-! ### The shared meaning (R133) -/

/-- On a running core a register-immediate meaning writes the ALU's result to `rd`, goes on at `pc + 4`, and changes
nothing else. -/
theorem execRegImm_writesReg (op : AluOp) (rd rs1 : RegIdx) (b : Word) {s : State} (hr : s.status = .running) :
    ∃ t, execRegImm op rd rs1 b s = .next t ∧ WritesReg s t rd (alu op (s.x rs1) b) (s.pc + 4) :=
  ⟨_, execRegImm_running op rd rs1 b hr, writesReg_setX_advance hr rd _⟩

/-- A row with an immediate follows from three facts: the ALU computes the row's value with the operation `op`, R73
lists the instruction under its `funct3`, and its meaning is the shared one with `op` and `immI`. The last two are
entries of `decodeIAlu` and `exec`, the same for all operands, and are looked up where a row does not give them. -/
theorem regImmRow_of_op (op : AluOp) {f3 : BitVec 3} {i : RegIdx → RegIdx → BitVec 12 → Instr}
    {val : Word → Word → Word} (value : ∀ a b, alu op a b = val a b)
    (listed : ∀ rd rs1 imm, decodeIAlu f3 rd rs1 imm = .ok (i rd rs1 imm) := by intros; rfl)
    (meaning : ∀ rd rs1 imm s, exec (i rd rs1 imm) s = execRegImm op rd rs1 (immI imm) s := by intros; rfl) :
    RegImmRow f3 i val := by
  intro rd rs1 imm
  refine ⟨(decode_encodeI_alu imm rs1 f3 rd).trans (listed rd rs1 imm), fun s hr => ?_⟩
  rw [meaning, ← value]
  exact execRegImm_writesReg op rd rs1 (immI imm) hr

/-! ### Shift words (R70, R140 to R142) -/

/-- A shift word is an I-type word whose immediate is `instr[31:25]` above the shift amount (R70). -/
theorem decode_shiftWord (f7 : BitVec 7) (shamt rs1 : BitVec 5) (f3 : BitVec 3) (rd : RegIdx) :
    decode (f7 ++ shamt ++ rs1 ++ f3 ++ rd ++ 0b0010011#7) = decodeIAlu f3 rd rs1 (f7 ++ shamt) :=
  decode_encodeI_alu (f7 ++ shamt) rs1 f3 rd

/-- The left shifts of R73: SLLI, and no word with another upper field (R140). -/
theorem decodeIAlu_leftShift (f7 : BitVec 7) (shamt : BitVec 5) (rd rs1 : RegIdx) :
    decodeIAlu 0b001#3 rd rs1 (f7 ++ shamt) =
      if f7 = 0b0000000#7 then .ok (.slli rd rs1 shamt) else .error .iAlu := by
  simp [decodeIAlu]

/-- The right shifts of R73: SRLI and SRAI, and no word with another upper field (R141, R142). -/
theorem decodeIAlu_rightShift (f7 : BitVec 7) (shamt : BitVec 5) (rd rs1 : RegIdx) :
    decodeIAlu 0b101#3 rd rs1 (f7 ++ shamt) =
      if f7 = 0b0000000#7 then .ok (.srli rd rs1 shamt)
      else if f7 = 0b0100000#7 then .ok (.srai rd rs1 shamt) else .error .iAlu := by
  simp [decodeIAlu]

/-- The amount an immediate shift hands to the ALU is its five-bit field, unchanged. -/
@[simp] theorem shiftAmount_setWidth (shamt : BitVec 5) : shiftAmount (shamt.setWidth 32) = shamt.toNat := by
  rw [shiftAmount, BitVec.extractLsb'_setWidth_of_le (by decide), BitVec.extractLsb'_eq_self]

/-- A shift's row follows, as `regImmRow_of_op`, from its value, its entry in R73 and its meaning with `op`. -/
theorem shiftImmRow_of_op (op : AluOp) {f7 : BitVec 7} {f3 : BitVec 3} {i : RegIdx → RegIdx → BitVec 5 → Instr}
    {val : Word → Nat → Word} (value : ∀ a (n : BitVec 5), alu op a (n.setWidth 32) = val a n.toNat)
    (listed : ∀ rd rs1 shamt, decodeIAlu f3 rd rs1 (f7 ++ shamt) = .ok (i rd rs1 shamt))
    (meaning : ∀ rd rs1 shamt s, exec (i rd rs1 shamt) s = execRegImm op rd rs1 (shamt.setWidth 32) s := by
      intros; rfl) :
    ShiftImmRow f7 f3 i val := by
  intro rd rs1 shamt
  refine ⟨(decode_shiftWord f7 shamt rs1 f3 rd).trans (listed rd rs1 shamt), fun s hr => ?_⟩
  rw [meaning, ← value]
  exact execRegImm_writesReg op rd rs1 (shamt.setWidth 32) hr

/-- The immediate of an arithmetic right shift is 0x400 above the amount: its sign bit, `instr[31]`, is 0 (R142). -/
theorem immShift_srai (shamt : BitVec 5) : immShift 0b0100000#7 shamt = 0x400 + shamt.setWidth 32 := by
  have small : shamt.toNat < 2 ^ 5 := shamt.isLt
  have field : BitVec.toNat (w := 12) (0b0100000#7 ++ shamt) = 0x400 + shamt.toNat := by
    rw [BitVec.toNat_append, ← Nat.shiftLeft_add_eq_or_of_lt small]; rfl
  have positive : BitVec.msb (n := 12) (0b0100000#7 ++ shamt) = false := by
    rw [BitVec.msb_eq_false_iff_two_mul_lt, field]; omega
  apply BitVec.eq_of_toNat_eq
  rw [immShift, immI, BitVec.signExtend_eq_setWidth_of_msb_false positive, BitVec.toNat_setWidth, field]
  simp

/-! ### The statement -/

/-- Settles O13: the operations are rows by `regImmRow_of_op` and the shifts by `shiftImmRow_of_op`; which shift words
are listed, and which are not, is read off `decodeIAlu_leftShift` and `decodeIAlu_rightShift`. -/
theorem immediateOperationsWriteTheirResult : Obligations.ImmediateOperationsWriteTheirResult := by
  refine ⟨?addi, ?slti, ?sltiu, ?xori, ?ori, ?andi, ?slli, ?srli, ?srai, fun f7 rd rs1 shamt => ⟨?imm, ?left, ?right⟩⟩
  case addi => exact regImmRow_of_op .add fun _ _ => rfl
  case slti => exact regImmRow_of_op .slt fun _ _ => flagWord_decide _
  case sltiu => exact regImmRow_of_op .sltu fun _ _ => flagWord_decide _
  case xori => exact regImmRow_of_op .xor fun _ _ => rfl
  case ori => exact regImmRow_of_op .or fun _ _ => rfl
  case andi => exact regImmRow_of_op .and fun _ _ => rfl
  case slli =>
    exact shiftImmRow_of_op .sll (fun a n => by simp [alu, aluSll]) fun rd rs1 n => decodeIAlu_leftShift _ n rd rs1
  case srli =>
    exact shiftImmRow_of_op .srl (fun a n => by simp [alu, aluSrl]) fun rd rs1 n => decodeIAlu_rightShift _ n rd rs1
  case srai =>
    exact shiftImmRow_of_op .sra (fun a n => by simp [alu, aluSra]) fun rd rs1 n => decodeIAlu_rightShift _ n rd rs1
  case imm =>
    have word := (decode_shiftWord 0b0100000#7 shamt rs1 0b101#3 rd).trans (decodeIAlu_rightShift _ shamt rd rs1)
    rw [immOfWord_ok word]
    exact immShift_srai shamt
  case left =>
    intro h
    exact ⟨.iAlu, by rw [decode_shiftWord, decodeIAlu_leftShift, if_neg h]⟩
  case right =>
    intro h h'
    exact ⟨.iAlu, by rw [decode_shiftWord, decodeIAlu_rightShift, if_neg h, if_neg h']⟩

end Sys2Proof.Machine
end

section
/-! PROOF. The loads and the stores: what the words decode to, and what each completes with at every effective address
(44_loads_stores.md R143 to R154). -/

namespace Sys2Proof.Machine

open Claims (StoresBytes LoadRow StoreRow)

/-! ### Loads (R147 to R151) -/

/-- A load's row follows from three facts: `op` reads the row's value, R74 lists the instruction under its `funct3`, and
its meaning is the shared one (R146) with `op`. The last two are entries of `decodeLoad` and `exec`, the same for all
operands, and are looked up where a row does not give them. -/
theorem loadRow_of_op (op : LoadOp) {f3 : BitVec 3} {i : RegIdx → RegIdx → BitVec 12 → Instr}
    {val : Memory → Word → Word} (value : ∀ m a, op.value m a = val m a)
    (listed : ∀ rd rs1 imm, decodeLoad f3 rd rs1 imm = .ok (i rd rs1 imm) := by intros; rfl)
    (meaning : ∀ rd rs1 imm s, exec (i rd rs1 imm) s = execLoad op rd rs1 imm s := by intros; rfl) :
    LoadRow f3 i val := by
  intro rd rs1 imm
  refine ⟨(decode_encodeI_load imm rs1 f3 rd).trans (listed rd rs1 imm), fun s hr => ?_⟩
  refine ⟨_, (meaning rd rs1 imm s).trans (execLoad_running op rd rs1 imm hr), ?_⟩
  rw [← value]
  exact writesReg_setX_advance hr rd _

/-- Settles O14: each load is a row by `loadRow_of_op`, with the bytes and the extension its `LoadOp` reads. -/
theorem loadsWriteTheValueRead : Obligations.LoadsWriteTheValueRead :=
  ⟨loadRow_of_op .lb fun _ _ => rfl, loadRow_of_op .lh fun _ _ => rfl, loadRow_of_op .lw fun _ _ => rfl,
    loadRow_of_op .lbu fun _ _ => rfl, loadRow_of_op .lhu fun _ _ => rfl⟩

/-! ### Stores (R152 to R154) -/

/-- A store's width is at most 4 bytes (R52). -/
theorem Width.bytes_le_four (n : Width) : n.bytes ≤ 4 := by cases n <;> decide

/-- Byte `k` of the value stored is read back at distance `k` from the address, also across 0xFFFFFFFF (R48). -/
theorem memRead8_memWrite_add_ofNat {m : Memory} (hm : m.wf) (a : Word) (n : Width) (v : Word) {k : Nat}
    (hk : k < n.bytes) :
    memRead8 (memWrite m a n v) (a + BitVec.ofNat 32 k) = v.extractLsb' (8 * k) 8 := by
  have distance : (a + BitVec.ofNat 32 k - a).toNat = k := by
    have := n.bytes_le_four
    rw [BitVec.add_comm, BitVec.add_sub_cancel, BitVec.toNat_ofNat, Nat.mod_eq_of_lt (by omega)]
  rw [memRead8_memWrite m a _ n v hm, distance, if_pos hk]

/-- A store and the step to `pc + 4` change the bytes stored and `pc`, and nothing else (R12, R146). -/
theorem storesBytes_store_advance {s : State} (hr : s.status = .running) (a : Word) (n : Width) (v : Word) :
    StoresBytes s (s.store a n v).advance a n.bytes v := by
  refine ⟨fun hm => ⟨wf_memWrite a n v hm, fun k hk => ?stored⟩, fun b hb => ?others, ⟨fun _ => rfl, rfl⟩, rfl, hr,
    rfl, rfl, rfl, rfl, rfl, rfl, rfl, rfl, rfl⟩
  case stored => exact memRead8_memWrite_add_ofNat hm a n v hk
  case others => exact memRead8_memWrite_other s.mem a b n v hb

/-- A store word is an S-type word whose immediate is `instr[31:25]` above `instr[11:7]` (R65). -/
theorem decode_storeWord (hi : BitVec 7) (rs2 rs1 : RegIdx) (f3 : BitVec 3) (lo : BitVec 5) :
    decode (hi ++ rs2 ++ rs1 ++ f3 ++ lo ++ 0b0100011#7) = decodeStore f3 rs1 rs2 (hi ++ lo) := by
  have upper : (hi ++ lo).extractLsb' 5 7 = hi := by simp
  have lower : (hi ++ lo).extractLsb' 0 5 = lo := by simp
  have word := decode_encodeS (hi ++ lo) rs2 rs1 f3
  rwa [encodeS, upper, lower] at word

/-- A store's row follows, as `loadRow_of_op`, from its entry in R75 and its meaning with the width `n`. -/
theorem storeRow_of_width (n : Width) {f3 : BitVec 3} {i : RegIdx → RegIdx → BitVec 12 → Instr}
    (listed : ∀ rs1 rs2 imm, decodeStore f3 rs1 rs2 imm = .ok (i rs1 rs2 imm) := by intros; rfl)
    (meaning : ∀ rs1 rs2 imm s, exec (i rs1 rs2 imm) s = execStore n rs1 rs2 imm s := by intros; rfl) :
    StoreRow f3 i n.bytes := by
  intro rs1 rs2 hi lo
  refine ⟨(decode_storeWord hi rs2 rs1 f3 lo).trans (listed rs1 rs2 (hi ++ lo)), fun s hr => ?_⟩
  refine ⟨_, (meaning rs1 rs2 (hi ++ lo) s).trans (execStore_running n rs1 rs2 (hi ++ lo) hr), ?_⟩
  exact storesBytes_store_advance hr _ n (s.x rs2)

/-- Settles O15: each store is a row by `storeRow_of_width`, with the number of bytes of its width. -/
theorem storesWriteTheirBytes : Obligations.StoresWriteTheirBytes :=
  ⟨storeRow_of_width .byte, storeRow_of_width .half, storeRow_of_width .word⟩

end Sys2Proof.Machine
end

section
/-! PROOF. The branches and JAL: what the words decode to, and where each goes, or what it raises, for every offset a
word can spell (45_control_transfer.md R155 to R164). -/

namespace Sys2Proof.Machine

open Claims (Jumps Raises WritesReg BranchRow branchOffset branchWord)

/-! ### The effects of a control transfer, with their frames -/

/-- A jump changes `pc`, and nothing else (R12). -/
theorem jumps_goto {s : State} (hr : s.status = .running) (npc : Word) : Jumps s (s.goto npc) npc :=
  ⟨rfl, ⟨fun _ => rfl, rfl⟩, fun _ => rfl, hr, rfl, rfl, rfl, rfl, rfl, rfl, rfl, rfl, rfl⟩

/-- Going on at `pc + 4` is a jump there (R12). -/
theorem jumps_advance {s : State} (hr : s.status = .running) : Jumps s s.advance (s.pc + 4) := jumps_goto hr _

/-- A fault at the instruction's own address changes the status, and nothing else (60_exceptions.md R214). -/
theorem raises_raise (kind : FaultKind) (word : Word) (s : State) : Raises s (raise kind s.pc word s) kind word :=
  ⟨rfl, rfl, ⟨fun _ => rfl, rfl⟩, fun _ => rfl, rfl, rfl, rfl, rfl, rfl, rfl, rfl, rfl, rfl⟩

/-- A link and a jump change that register and `pc`, and nothing else: they differ from a register write that goes on at
`pc + 4` in the `pc` only. -/
theorem writesReg_setX_goto {s : State} (hr : s.status = .running) (rd : RegIdx) (v npc : Word) :
    WritesReg s ((s.setX rd v).goto npc) rd v npc := by
  obtain ⟨target, zero, others, cell, -, memory, status, pipeline⟩ := writesReg_setX_advance hr rd v
  exact ⟨target, zero, others, cell, rfl, memory, status, pipeline⟩

/-! ### The two outcomes by the offset (R157, R164) -/

/-- `misaligned_iff` for a word that is no multiple of 4 (60_exceptions.md R210). -/
theorem misaligned_eq_true_iff (v : Word) : misaligned v = true ↔ v.toNat % 4 ≠ 0 := by
  rw [← Bool.not_eq_false, ne_eq, misaligned_iff]

/-- A branch whose offset is a multiple of 4 goes where its condition says (R157). -/
theorem execBranch_aligned (c : BranchCond) (rs1 rs2 : RegIdx) {off : BitVec 13} (w : Word) {s : State}
    (hr : s.status = .running) (h : (immB off).toNat % 4 = 0) :
    execBranch c rs1 rs2 off w s =
      .next (if c.holds (s.x rs1) (s.x rs2) then s.goto (relativeTarget s.pc (immB off)) else s.advance) := by
  rw [execBranch_running c rs1 rs2 off w hr, (misaligned_iff _).2 h, if_neg Bool.false_ne_true]

/-- A branch whose offset is no multiple of 4 raises, whatever its condition says (R157). -/
theorem execBranch_misaligned (c : BranchCond) (rs1 rs2 : RegIdx) {off : BitVec 13} (w : Word) {s : State}
    (hr : s.status = .running) (h : (immB off).toNat % 4 ≠ 0) :
    execBranch c rs1 rs2 off w s = .next (raise .misalignedBranchTarget s.pc w s) := by
  rw [execBranch_running c rs1 rs2 off w hr, if_pos ((misaligned_eq_true_iff _).2 h)]

/-- A JAL whose offset is a multiple of 4 links and jumps (R164). -/
theorem execJal_aligned (rd : RegIdx) {off : BitVec 21} {s : State} (hr : s.status = .running)
    (h : (immJ off).toNat % 4 = 0) :
    execJal rd off s = .next ((s.setX rd (s.pc + 4)).goto (relativeTarget s.pc (immJ off))) := by
  rw [execJal, whenRunning_running hr, (misaligned_iff _).2 h, if_neg Bool.false_ne_true]

/-- A JAL whose offset is no multiple of 4 raises and links nothing (R164). -/
theorem execJal_misaligned (rd : RegIdx) {off : BitVec 21} {s : State} (hr : s.status = .running)
    (h : (immJ off).toNat % 4 ≠ 0) :
    execJal rd off s = .next (raise .misalignedBranchTarget s.pc (encode (.jal rd off)) s) := by
  rw [execJal, whenRunning_running hr, if_pos ((misaligned_eq_true_iff _).2 h)]

/-! ### Offsets and words from their fields (R66, R68) -/

/-- A branch offset with its fields is even (R66). -/
theorem evenOffset_branchOffset (b12 b11 : BitVec 1) (b10 : BitVec 6) (b4 : BitVec 4) :
    evenOffset (branchOffset b12 b11 b10 b4) = true := by
  simp only [evenOffset, branchOffset, BitVec.getLsbD_append]; simp

/-- The encoder puts the fields of a branch offset where the B format has them (R63). -/
theorem encodeB_branchOffset (f3 : BitVec 3) (rs1 rs2 : RegIdx) (b12 b11 : BitVec 1) (b10 : BitVec 6) (b4 : BitVec 4) :
    encodeB (branchOffset b12 b11 b10 b4) rs2 rs1 f3 0b1100011#7 = branchWord f3 rs1 rs2 b12 b11 b10 b4 := by
  unfold encodeB branchWord branchOffset
  apply BitVec.eq_of_getLsbD_eq
  intro i hi
  simp only [BitVec.getLsbD_append, BitVec.getLsbD_extractLsb']
  interval_cases i <;> simp

/-- A JAL offset with its fields is even (R68). -/
theorem evenOffset_jalOffset (b20 b11 : BitVec 1) (b19 : BitVec 8) (b10 : BitVec 10) :
    evenOffset (b20 ++ b19 ++ b11 ++ b10 ++ 0#1) = true := by
  simp only [evenOffset, BitVec.getLsbD_append]; simp

/-- The encoder puts the fields of a JAL offset where the J format has them (R63). -/
theorem encodeJ_jalOffset (rd : RegIdx) (b20 b11 : BitVec 1) (b19 : BitVec 8) (b10 : BitVec 10) :
    encodeJ (b20 ++ b19 ++ b11 ++ b10 ++ 0#1) rd 0b1101111#7 = b20 ++ b10 ++ b11 ++ b19 ++ rd ++ 0b1101111#7 := by
  unfold encodeJ
  apply BitVec.eq_of_getLsbD_eq
  intro i hi
  simp only [BitVec.getLsbD_append, BitVec.getLsbD_extractLsb']
  interval_cases i <;> simp

/-! ### Branches (R158 to R163) -/

/-- A branch's row follows from three facts: `c` holds as the row's condition does, R76 lists the instruction under its
`funct3`, and its meaning is the shared one (R157) with `c` and its own word. The last two are entries of `decodeBranch`
and of `exec` and `encode`, the same for all operands, and are looked up where a row does not give them. -/
theorem branchRow_of_cond (c : BranchCond) {f3 : BitVec 3} {i : RegIdx → RegIdx → BitVec 13 → Instr}
    {cond : Word → Word → Prop} (holds : ∀ a b, c.holds a b = true ↔ cond a b)
    (listed : ∀ rs1 rs2 off, decodeBranch f3 rs1 rs2 off = .ok (i rs1 rs2 off) := by intros; rfl)
    (meaning : ∀ rs1 rs2 off s,
      exec (i rs1 rs2 off) s = execBranch c rs1 rs2 off (encodeB off rs2 rs1 f3 0b1100011#7) s := by intros; rfl) :
    BranchRow f3 i cond := by
  intro rs1 rs2 b12 b11 b10 b4
  have even := evenOffset_branchOffset b12 b11 b10 b4
  rw [← encodeB_branchOffset]
  refine ⟨(decode_encodeB _ rs2 rs1 f3 even).trans (listed rs1 rs2 _), fun s hr => ?_⟩
  refine ⟨fun aligned => ?_, fun unaligned => ?_⟩
  · refine ⟨_, (meaning ..).trans (execBranch_aligned c rs1 rs2 _ hr aligned), fun taken => ?_, fun notTaken => ?_⟩
    · rw [if_pos ((holds _ _).2 taken)]
      exact jumps_goto hr _
    · rw [if_neg fun h => notTaken ((holds _ _).1 h)]
      exact jumps_advance hr
  · exact ⟨_, (meaning ..).trans (execBranch_misaligned c rs1 rs2 _ hr unaligned), raises_raise _ _ s⟩

/-- Settles O16: each branch is a row by `branchRow_of_cond`, with the condition its comparator decides. -/
theorem branchesGoToTheirTarget : Obligations.BranchesGoToTheirTarget := by
  refine ⟨?beq, ?bne, ?blt, ?bge, ?bltu, ?bgeu⟩
  case beq => exact branchRow_of_cond .eq fun _ _ => decide_eq_true_iff
  case bne => exact branchRow_of_cond .ne fun _ _ => by simp [BranchCond.holds]
  case blt => exact branchRow_of_cond .lt fun _ _ => decide_eq_true_iff
  case bge => exact branchRow_of_cond .ge fun _ _ => by simp [BranchCond.holds, lessSigned]
  case bltu => exact branchRow_of_cond .ltu fun _ _ => decide_eq_true_iff
  case bgeu => exact branchRow_of_cond .geu fun _ _ => by simp [BranchCond.holds, lessUnsigned]

/-! ### JAL (R164) -/

/-- Settles O17: the word is the encoder's, and the two outcomes are those of `execJal` by its offset. -/
theorem jalLinksAndJumps : Obligations.JalLinksAndJumps := by
  intro rd b20 b11 b19 b10
  have even := evenOffset_jalOffset b20 b11 b19 b10
  rw [← encodeJ_jalOffset]
  refine ⟨decode_encodeJ _ rd even, fun s hr => ⟨fun aligned => ?_, fun unaligned => ?_⟩⟩
  · exact ⟨_, execJal_aligned rd hr aligned, writesReg_setX_goto hr rd _ _⟩
  · exact ⟨_, execJal_misaligned rd hr unaligned, raises_raise _ _ s⟩

end Sys2Proof.Machine
end

section
/-! PROOF. LUI and AUIPC: what their words decode to, and the register each writes (46_upper_immediate.md R167 to
R169). -/

namespace Sys2Proof.Machine

open Claims (WritesReg)

/-- On a running core a register write that goes on at `pc + 4` completes, and changes nothing else: the shape LUI and
AUIPC share, each with its own value (R168, R169). -/
theorem whenRunning_setX_advance_writesReg {s : State} (hr : s.status = .running) (rd : RegIdx) (v : Word) :
    ∃ t, whenRunning s (s.setX rd v).advance = .next t ∧ WritesReg s t rd v (s.pc + 4) :=
  ⟨_, whenRunning_running hr, writesReg_setX_advance hr rd v⟩

/-- Settles O19: the words are the encoder's U format, and each instruction writes its value, with `immU` the immediate
above twelve zeros (R67), by `whenRunning_setX_advance_writesReg`. -/
theorem upperImmediatesWriteTheirResult : Obligations.UpperImmediatesWriteTheirResult := by
  intro rd imm
  refine ⟨?luiWord, ?auipcWord, fun s hr => ⟨?lui, ?auipc⟩⟩
  case luiWord => exact decode_encodeU_lui imm rd
  case auipcWord => exact decode_encodeU_auipc imm rd
  case lui => exact whenRunning_setX_advance_writesReg hr rd (immU imm)
  case auipc => exact whenRunning_setX_advance_writesReg hr rd (s.pc + immU imm)

end Sys2Proof.Machine
end

section
/-! PROOF. The clock cycle for the statements about it: what a step of a running core answers, and the statements' plain
words `WillWrite`, `wbVal` and `Flows` in the model's own terms (50_pipeline.md R170 to R175, R187, R188). -/

namespace Sys2Proof.Machine

open Claims (Flows WillWrite wbVal)

/-! ### What a step answers -/

/-- A cycle without a fault is `flowCycle`, which has a law for each field (R172). -/
theorem step_of_flows {s : State} (h : Flows s) : step s = .next s.flowCycle :=
  congrArg Host.Outcome.next (tick_of_no_fault h.1 h.2)

/-- Write-back takes place in every cycle a running core takes, also a halting one (R173, 60_exceptions.md R214). -/
theorem tick_regs {s : State} (hr : s.status = .running) : s.tick.regs = s.rf1 := by
  rcases tick_cases s with ⟨stopped, -⟩ | ⟨-, -, h⟩ | ⟨-, k, p, w, -, h⟩
  · exact absurd hr stopped
  · rw [h, flowCycle_regs]
  · rw [h, haltCycle_regs]

/-- The store takes place in every cycle a running core takes, also a halting one (R176, 60_exceptions.md R214). -/
theorem tick_mem {s : State} (hr : s.status = .running) : s.tick.mem = s.nextMem := by
  rcases tick_cases s with ⟨stopped, -⟩ | ⟨-, -, h⟩ | ⟨-, k, p, w, -, h⟩
  · exact absurd hr stopped
  · rw [h, flowCycle_mem]
  · rw [h, haltCycle_mem]

/-- A register after a cycle that does not halt is what decode reads in that cycle (R173). -/
@[simp] theorem flowCycle_x (s : State) (r : RegIdx) : s.flowCycle.x r = readReg s.rf1 r := by
  rw [State.x, flowCycle_regs]

/-! ### The latch that is written back (R173, R175) -/

/-- `Latch.writes` decides `WillWrite`. -/
theorem writes_iff_willWrite (L : Latch) : L.writes = true ↔ WillWrite L := by
  simp [Latch.writes, and_assoc]

/-- What a latch commits is `wbVal`. -/
theorem result_eq_wbVal (L : Latch) : L.result = wbVal L := rfl

/-- A latch that will not write leaves the register file as it is (R173). -/
theorem commitLatch_of_not_willWrite (rf : Vector Word 32) {L : Latch} (h : ¬WillWrite L) : commitLatch rf L = rf :=
  if_neg fun hw => h ((writes_iff_willWrite L).1 hw)

/-- A register decode reads: the value written back in this cycle, else the old one (R173). -/
theorem readReg_rf1 (s : State) (r : RegIdx) :
    readReg s.rf1 r = if WillWrite s.memwb ∧ r = s.memwb.rd then wbVal s.memwb else s.x r := by
  simp only [State.rf1, readReg_commitLatch, writes_iff_willWrite, result_eq_wbVal, State.x, eq_comm (a := r)]

/-- A counter after this cycle's release: one less for the register written back (R175). -/
theorem busyOf_busy1 (s : State) (r : RegIdx) :
    busyOf s.busy1 r = if WillWrite s.memwb ∧ r = s.memwb.rd then busyOf s.busy r - 1 else busyOf s.busy r := by
  unfold State.busy1 releaseLatch
  by_cases hw : WillWrite s.memwb
  · rw [if_pos ((writes_iff_willWrite _).2 hw), busyOf_clearBusy]
    by_cases hrd : r = s.memwb.rd
    · rw [if_pos hrd, if_pos ⟨hw, hrd⟩, hrd]
    · rw [if_neg hrd, if_neg fun h => hrd h.2]
  · rw [if_neg fun h => hw ((writes_iff_willWrite _).1 h), if_neg fun h => hw h.1]

/-! ### Decode: an instruction stalls or issues, not both (R187, R188) -/

/-- An instruction that stalls does not issue. -/
theorem issues_of_stalls {s : State} (h : s.stalls = true) : s.issues = false := by
  obtain ⟨-, -, -, hazard⟩ := (stalls_iff s).1 h
  simp [State.issues, hazard]

/-- Without a valid instruction in decode nothing issues. -/
theorem issues_of_ifid_bubble {s : State} (h : s.ifid.valid = false) : s.issues = false := by
  simp [State.issues, h]

/-- A valid instruction that is not squashed, does not fault and does not stall issues. -/
theorem issues_of_not_stalls {s : State} (hv : s.ifid.valid = true) (hq : s.squash = false) (hf : s.idFault = none)
    (hs : s.stalls = false) : s.issues = true := by
  simpa [State.issues, State.stalls, hv, hq, hf] using hs

/-- A cycle in which nothing issues puts a bubble into ID/EX (R187, R188). -/
theorem nextIdex_of_not_issues {s : State} (h : s.issues = false) : s.nextIdex = Latch.bubble := by
  simp [State.nextIdex, h]

/-- The instruction that issues fills ID/EX (R188). -/
theorem nextIdex_of_issues {s : State} (h : s.issues = true) : s.nextIdex = s.decoded := if_pos h

/-- A cycle in which nothing issues marks no register busy (R175, R187). -/
theorem nextBusy_of_not_issues {s : State} (h : s.issues = false) : s.nextBusy = s.busy1 := by
  rw [State.nextBusy, nextIdex_of_not_issues h]
  rfl

end Sys2Proof.Machine
end

section
/-! PROOF. Write-back and the memory stage (50_pipeline.md R173, R176). -/

namespace Sys2Proof.Machine

/-! ### Write-back (R173) -/

/-- Settles O25: after the cycle the registers are `rf1`, the file decode reads, so each clause is a case of
`readReg_rf1` or `busyOf_busy1`. -/
theorem writeBackCommitsAndDecodeSeesIt : Obligations.WriteBackCommitsAndDecodeSeesIt := by
  intro s hr
  have reads : ∀ r, s.tick.x r = readReg s.rf1 r := fun r => by rw [State.x, tick_regs hr]
  refine ⟨s.tick, rfl, fun hw => ⟨?written, fun r hne => ?others, ?released⟩, fun hw => ?held, (reads _).symm,
    (reads _).symm⟩
  case written => rw [reads, readReg_rf1, if_pos ⟨hw, rfl⟩]
  case others => rw [reads, readReg_rf1, if_neg fun h => hne h.2]
  case released => rw [busyOf_busy1, if_pos ⟨hw, rfl⟩]
  case held => rw [tick_regs hr, State.rf1, commitLatch_of_not_willWrite _ hw]

/-! ### The memory stage (R176) -/

/-- A latch that is no store leaves the data memory as it is. -/
theorem storeLatch_of_not_store (m : Memory) {L : Latch} (h : ¬(L.valid = true ∧ L.ctrl.memWrite = true)) :
    storeLatch m L = m := if_neg (by simpa using h)

/-- A store writes the low bytes of `rs2Val` at `aluResult`, as many as its `funct3` says. -/
theorem storeLatch_of_width (m : Memory) {L : Latch} (n : Width) (hv : L.valid = true) (hw : L.ctrl.memWrite = true)
    (hn : storeWidth? L.funct3 = some n) : storeLatch m L = memWrite m L.aluResult n L.rs2Val := by
  simp [storeLatch, hv, hw, hn]

/-- A latch that is no load has 0 as its memory value. -/
theorem loadData_of_not_load (m : Memory) {L : Latch} (h : ¬(L.valid = true ∧ L.ctrl.memRead = true)) :
    loadData m L = 0 := if_neg (by simpa using h)

/-- A load reads at `aluResult` with the width and extension its `funct3` says. -/
theorem loadData_of_op (m : Memory) {L : Latch} (op : LoadOp) (hv : L.valid = true) (hm : L.ctrl.memRead = true)
    (hop : loadOp? L.funct3 = some op) : loadData m L = op.value m L.aluResult := by
  simp [loadData, hv, hm, hop]

/-- Settles O26: the store is `storeLatch` by `tick_mem`, and without a fault MEM/WB is `memoryStage` of EX/MEM; each
listed `funct3` is an entry of `storeWidth?` or `loadOp?`. -/
theorem memoryStageLoadsAndStores : Obligations.MemoryStageLoadsAndStores := by
  intro s hr
  have store : s.tick.mem = storeLatch s.mem s.exmem := tick_mem hr
  refine ⟨s.tick, rfl, fun h => store.trans (storeLatch_of_not_store _ h), fun hv hw => ?stores, fun hf => ?loads⟩
  case stores =>
    have width : ∀ n, storeWidth? s.exmem.funct3 = some n →
        s.tick.mem = memWrite s.mem s.exmem.aluResult n s.exmem.rs2Val :=
      fun n hn => store.trans (storeLatch_of_width _ n hv hw hn)
    exact ⟨fun h => width .byte (by rw [h]; rfl), fun h => width .half (by rw [h]; rfl),
      fun h => width .word (by rw [h]; rfl)⟩
  case loads =>
    have latch : s.tick.memwb = memoryStage s.mem s.exmem := by
      rw [tick_of_no_fault hr hf, flowCycle_memwb, State.nextMemwb]
    rw [latch]
    refine ⟨rfl, fun h => loadData_of_not_load _ h, fun hv hm => ?_⟩
    have value : ∀ op, loadOp? s.exmem.funct3 = some op →
        (memoryStage s.mem s.exmem).memData = op.value s.mem s.exmem.aluResult :=
      fun op hop => loadData_of_op _ op hv hm hop
    exact ⟨fun h => value .lb (by rw [h]; rfl), fun h => value .lh (by rw [h]; rfl),
      fun h => value .lw (by rw [h]; rfl), fun h => value .lbu (by rw [h]; rfl),
      fun h => value .lhu (by rw [h]; rfl)⟩

end Sys2Proof.Machine
end

section
/-! PROOF. The execute stage and the resolution of control transfers (50_pipeline.md R180, R192, R193; 41_alu_core.md
R113). -/

namespace Sys2Proof.Machine

open Claims (Flows Cond)

/-! ### The result of the execute stage (R113, R180) -/

/-- The classes without a result of their own take the ALU's (R113). -/
theorem exResult_of_alu {L : Latch} (a b : Word) (h : L.ctrl.kind ∉ [Kind.lui, .auipc, .jal, .jalr]) :
    exResult L a b = alu L.ctrl.aluOp a (if L.ctrl.aluSrc = true then L.imm else b) := by
  unfold exResult
  cases hk : L.ctrl.kind
  case lui | auipc | jal | jalr => simp [hk] at h
  all_goals rfl

/-- Settles O28: EX/MEM is `executeStage` of ID/EX, whose `aluResult` is `exResult`, the multiplexer of R113. -/
theorem executeStageMakesTheResult : Obligations.ExecuteStageMakesTheResult := by
  intro s h
  refine ⟨s.flowCycle, step_of_flows h, fun hb => ?bubble, fun hv => ?executed⟩
  case bubble => simp [State.nextExmem, executeStage, hb]
  case executed =>
    have latch : s.flowCycle.exmem =
        { s.idex with rs1Val := s.exA, rs2Val := s.exB, aluResult := exResult s.idex s.exA s.exB } := by
      rw [flowCycle_exmem, State.nextExmem, executeStage, if_pos hv]
    rw [latch]
    refine ⟨rfl, fun hk => ?lui, fun hk => ?auipc, fun hk => ?link, exResult_of_alu _ _⟩
    case lui => simp [exResult, hk]
    case auipc => simp [exResult, hk]
    case link => rcases hk with hk | hk <;> simp [exResult, hk]

/-! ### `Resolve` (R192) -/

/-- The six `funct3` values of the branches select a condition, the one R156 gives them. -/
theorem branchCond?_holds_iff {f3 : BitVec 3} (h2 : f3 ≠ 0b010#3) (h3 : f3 ≠ 0b011#3) :
    ∃ c, branchCond? f3 = some c ∧ ∀ a b, c.holds a b = true ↔ Cond f3 a b := by
  have listed : f3 = 0b000#3 ∨ f3 = 0b001#3 ∨ f3 = 0b100#3 ∨ f3 = 0b101#3 ∨ f3 = 0b110#3 ∨ f3 = 0b111#3 := by
    revert f3; decide
  rcases listed with rfl | rfl | rfl | rfl | rfl | rfl
  · exact ⟨.eq, rfl, fun a b => by simp [Cond, BranchCond.holds]⟩
  · exact ⟨.ne, rfl, fun a b => by simp [Cond, BranchCond.holds]⟩
  · exact ⟨.lt, rfl, fun a b => by simp [Cond, BranchCond.holds, lessSigned]⟩
  · exact ⟨.ge, rfl, fun a b => by simp [Cond, BranchCond.holds, lessSigned]⟩
  · exact ⟨.ltu, rfl, fun a b => by simp [Cond, BranchCond.holds, lessUnsigned]⟩
  · exact ⟨.geu, rfl, fun a b => by simp [Cond, BranchCond.holds, lessUnsigned]⟩

/-- A branch redirects to its target when its condition holds, and else stays (R192). -/
theorem resolve_branch {L : Latch} {c : BranchCond} (a b : Word) (hk : L.ctrl.kind = .branch)
    (hc : branchCond? L.funct3 = some c) :
    resolve L a b = if c.holds a b then .redirect (L.pc + L.imm) else .stay := by
  simp only [resolve, hk, hc, relativeTarget]

/-- A word is a multiple of 4 exactly when its bits 0 and 1 are clear (60_exceptions.md R210). -/
theorem misaligned_eq_bits (v : Word) : misaligned v = (v.getLsbD 0 || v.getLsbD 1) := by
  have nonzero : ∀ low : BitVec 2, (low != 0#2) = (low.getLsbD 0 || low.getLsbD 1) := by decide
  rw [misaligned, nonzero]
  simp

/-- A JALR target has bit 0 cleared, so it is misaligned exactly by its bit 1 (60_exceptions.md R211). -/
theorem misaligned_jalrTarget (base imm : Word) :
    misaligned (jalrTarget base imm) = (jalrTarget base imm).getLsbD 1 := by
  have bit0 : (jalrTarget base imm).getLsbD 0 = false := by simp [jalrTarget]
  rw [misaligned_eq_bits, bit0, Bool.false_or]

/-- A JALR raises when bit 1 of its target is set, and else redirects to the target (R192). -/
theorem resolve_jalr {L : Latch} (a b : Word) (hk : L.ctrl.kind = .jalr) :
    resolve L a b = if (jalrTarget a L.imm).getLsbD 1 then .fault .misalignedBranchTarget L.pc L.instr
      else .redirect (jalrTarget a L.imm) := by
  simp only [resolve, hk, misaligned_jalrTarget]

/-- Settles O29: `resolve` by the class of the latch; a branch by the condition of its `funct3`, a JALR by bit 1 of its
target. -/
theorem resolveAnswersTargetOrFault : Obligations.ResolveAnswersTargetOrFault := by
  intro L a b
  refine ⟨fun hk h2 h3 => ?branch, fun hk => ?jal, fun hk => ⟨fun hm => ?unaligned, fun hm => ?aligned⟩⟩
  case branch =>
    obtain ⟨c, hc, holds⟩ := branchCond?_holds_iff h2 h3
    rw [resolve_branch a b hk hc]
    exact ⟨fun taken => if_pos ((holds a b).2 taken), fun notTaken => if_neg fun h => notTaken ((holds a b).1 h)⟩
  case jal => simp only [resolve, hk, relativeTarget]
  case unaligned => exact (resolve_jalr a b hk).trans (if_pos hm)
  case aligned => exact (resolve_jalr a b hk).trans (if_neg (Bool.eq_false_iff.1 hm))

/-! ### The redirect (R193) -/

/-- The policy leaves the resolution of transfers to one of the two stages (R191). -/
theorem exResolution_stay_or_idResolution_stay (s : State) : s.exResolution = .stay ∨ s.idResolution = .stay := by
  cases hp : s.policy with
  | noForwarding => exact .inr (idResolution_noForwarding hp)
  | forwarding => exact .inl (exResolution_forwarding hp)

/-- A redirect from decode is the redirect, since execute then resolves nothing (R172). -/
theorem redirect_of_id {s : State} {t : Word} (h : s.idResolution = .redirect t) : s.redirect = some t := by
  have stay : s.exResolution = .stay := (exResolution_stay_or_idResolution_stay s).resolve_right (by simp [h])
  simp [State.redirect, stay, h]

/-- Settles O35: a redirect of either stage is the cycle's redirect, which is the next `pc`; the policy names the one
stage that resolves. -/
theorem redirectSetsThePc : Obligations.RedirectSetsThePc := by
  refine ⟨fun s h target hres => ⟨s.flowCycle, step_of_flows h, ?_⟩, exResolution_stay_or_idResolution_stay⟩
  have redirect : s.redirect = some target := hres.elim redirect_of_ex redirect_of_id
  simp [State.nextPc, redirect]

end Sys2Proof.Machine
end

section
/-! PROOF. Decode: when an instruction stalls under `NoForwarding`, what a stall holds, and what an issue fills
(50_pipeline.md R185, R187, R188). -/

namespace Sys2Proof.Machine

open Claims (Flows ReadsSource)

/-- Under `NoForwarding` there is a hazard exactly when a source the instruction reads has a pending write (R185). -/
theorem busyHazard_decoded_iff (s : State) :
    busyHazard s.busy1 s.decoded = true ↔ ∃ r, ReadsSource s r ∧ 0 < (busyOf s.busy1 r).toNat := by
  have pending : ∀ r, busyOf s.busy1 r ≠ 0 ↔ 0 < (busyOf s.busy1 r).toNat := fun r => by
    rw [Nat.pos_iff_ne_zero, ne_eq, ne_eq, ← BitVec.toNat_inj]; rfl
  simp only [busyHazard, Bool.or_eq_true, Bool.and_eq_true, bne_iff_ne, pending]
  constructor
  · rintro (⟨⟨uses, nonzero⟩, busy⟩ | ⟨⟨uses, nonzero⟩, busy⟩)
    · exact ⟨s.decoded.rs1, ⟨nonzero, .inl ⟨uses, rfl⟩⟩, busy⟩
    · exact ⟨s.decoded.rs2, ⟨nonzero, .inr ⟨uses, rfl⟩⟩, busy⟩
  · rintro ⟨r, ⟨nonzero, ⟨uses, rfl⟩ | ⟨uses, rfl⟩⟩, busy⟩
    · exact .inl ⟨⟨uses, nonzero⟩, busy⟩
    · exact .inr ⟨⟨uses, nonzero⟩, busy⟩

/-- Settles O31: the stall is the hazard, the hazard is a busy source by `busyHazard_decoded_iff`, and the counter after
the release is `busyOf_busy1`. -/
theorem noForwardingStallsOnABusySource : Obligations.NoForwardingStallsOnABusySource := by
  intro s hp hv hq hf
  calc s.stalls = true
    _ ↔ busyHazard s.busy1 s.decoded = true := by simp [stalls_iff, hv, hq, hf, State.hasHazard, hp]
    _ ↔ ∃ r, ReadsSource s r ∧ 0 < (busyOf s.busy1 r).toNat := busyHazard_decoded_iff s
    _ ↔ _ := by simp only [busyOf_busy1]

/-- Nothing redirects in a cycle in which decode stalls: execute does not, since the instruction is not
squashed, and decode does not, since nothing issues (R187, R193, R194). -/
theorem redirect_of_stalls {s : State} (h : s.stalls = true) : s.redirect = none := by
  obtain ⟨-, squash, -, -⟩ := (stalls_iff s).1 h
  refine (redirect_none s).2 ⟨(squash_false_iff s).1 squash, fun t => ?_⟩
  rw [idResolution_of_not_issues (issues_of_stalls h)]
  exact Resolution.noConfusion

/-- Settles O33: a stall issues nothing and redirects nothing, so ID/EX, the busy counters, IF/ID and `pc` are those of
a cycle without either. -/
theorem stallHoldsDecodeAndFetch : Obligations.StallHoldsDecodeAndFetch := by
  intro s h hs
  have noIssue : s.issues = false := issues_of_stalls hs
  have noRedirect : s.redirect = none := redirect_of_stalls hs
  refine ⟨s.flowCycle, step_of_flows h, ?idex, ?ifid, ?pc, idResolution_of_not_issues noIssue, fun r => ?busy⟩
  case idex => rw [flowCycle_idex, nextIdex_of_not_issues noIssue]
  case ifid => simp [State.nextIfid, noRedirect, hs]
  case pc => simp [State.nextPc, noRedirect, hs]
  case busy => rw [flowCycle_busy, nextBusy_of_not_issues noIssue, busyOf_busy1]

/-- Settles O34: a bubble in IF/ID issues nothing; else the instruction issues, and ID/EX is `decodeStage` over the
registers as they are after this cycle's write-back. -/
theorem issueFillsIdEx : Obligations.IssueFillsIdEx := by
  intro s h
  refine ⟨s.flowCycle, step_of_flows h, fun hb => ?bubble, fun hv hs hq => ?issued⟩
  case bubble => rw [flowCycle_idex, nextIdex_of_not_issues (issues_of_ifid_bubble hb)]
  case issued =>
    obtain ⟨-, noDecodeFault, -⟩ := (faultOf_none s).1 h.2
    rw [flowCycle_idex, nextIdex_of_issues (issues_of_not_stalls hv hq noDecodeFault hs), flowCycle_x, flowCycle_x]
    rfl

end Sys2Proof.Machine
end

section
/-! PROOF. The decoder and the encoder invert each other (30_encoding.md R63 to R81, R89). -/

namespace Sys2Proof.Machine

/-! ### Decode after encode -/

/-- Settles O1: the family `RoundTrip` has a lemma for each constructor. -/
theorem decodeOfEncodeIsTheInstruction : Obligations.DecodeOfEncodeIsTheInstruction := by
  intro i
  cases i with
  | add rd rs1 rs2 => exact Laws.RoundTrip.add rd rs1 rs2
  | sub rd rs1 rs2 => exact Laws.RoundTrip.sub rd rs1 rs2
  | sll rd rs1 rs2 => exact Laws.RoundTrip.sll rd rs1 rs2
  | slt rd rs1 rs2 => exact Laws.RoundTrip.slt rd rs1 rs2
  | sltu rd rs1 rs2 => exact Laws.RoundTrip.sltu rd rs1 rs2
  | xor rd rs1 rs2 => exact Laws.RoundTrip.xor rd rs1 rs2
  | srl rd rs1 rs2 => exact Laws.RoundTrip.srl rd rs1 rs2
  | sra rd rs1 rs2 => exact Laws.RoundTrip.sra rd rs1 rs2
  | or rd rs1 rs2 => exact Laws.RoundTrip.or rd rs1 rs2
  | and rd rs1 rs2 => exact Laws.RoundTrip.and rd rs1 rs2
  | mul rd rs1 rs2 => exact Laws.RoundTrip.mul rd rs1 rs2
  | mulh rd rs1 rs2 => exact Laws.RoundTrip.mulh rd rs1 rs2
  | mulhsu rd rs1 rs2 => exact Laws.RoundTrip.mulhsu rd rs1 rs2
  | mulhu rd rs1 rs2 => exact Laws.RoundTrip.mulhu rd rs1 rs2
  | div rd rs1 rs2 => exact Laws.RoundTrip.div rd rs1 rs2
  | divu rd rs1 rs2 => exact Laws.RoundTrip.divu rd rs1 rs2
  | rem rd rs1 rs2 => exact Laws.RoundTrip.rem rd rs1 rs2
  | remu rd rs1 rs2 => exact Laws.RoundTrip.remu rd rs1 rs2
  | addi rd rs1 imm => exact Laws.RoundTrip.addi rd rs1 imm
  | slti rd rs1 imm => exact Laws.RoundTrip.slti rd rs1 imm
  | sltiu rd rs1 imm => exact Laws.RoundTrip.sltiu rd rs1 imm
  | xori rd rs1 imm => exact Laws.RoundTrip.xori rd rs1 imm
  | ori rd rs1 imm => exact Laws.RoundTrip.ori rd rs1 imm
  | andi rd rs1 imm => exact Laws.RoundTrip.andi rd rs1 imm
  | slli rd rs1 shamt => exact Laws.RoundTrip.slli rd rs1 shamt
  | srli rd rs1 shamt => exact Laws.RoundTrip.srli rd rs1 shamt
  | srai rd rs1 shamt => exact Laws.RoundTrip.srai rd rs1 shamt
  | lb rd rs1 imm => exact Laws.RoundTrip.lb rd rs1 imm
  | lh rd rs1 imm => exact Laws.RoundTrip.lh rd rs1 imm
  | lw rd rs1 imm => exact Laws.RoundTrip.lw rd rs1 imm
  | lbu rd rs1 imm => exact Laws.RoundTrip.lbu rd rs1 imm
  | lhu rd rs1 imm => exact Laws.RoundTrip.lhu rd rs1 imm
  | sb rs1 rs2 imm => exact Laws.RoundTrip.sb rs1 rs2 imm
  | sh rs1 rs2 imm => exact Laws.RoundTrip.sh rs1 rs2 imm
  | sw rs1 rs2 imm => exact Laws.RoundTrip.sw rs1 rs2 imm
  | beq rs1 rs2 off => exact Laws.RoundTrip.beq rs1 rs2 off
  | bne rs1 rs2 off => exact Laws.RoundTrip.bne rs1 rs2 off
  | blt rs1 rs2 off => exact Laws.RoundTrip.blt rs1 rs2 off
  | bge rs1 rs2 off => exact Laws.RoundTrip.bge rs1 rs2 off
  | bltu rs1 rs2 off => exact Laws.RoundTrip.bltu rs1 rs2 off
  | bgeu rs1 rs2 off => exact Laws.RoundTrip.bgeu rs1 rs2 off
  | jal rd off => exact Laws.RoundTrip.jal rd off
  | jalr rd rs1 imm => exact Laws.RoundTrip.jalr rd rs1 imm
  | lui rd imm => exact Laws.RoundTrip.lui rd imm
  | auipc rd imm => exact Laws.RoundTrip.auipc rd imm

/-! ### Encode after decode: each table of the decoder, then the word -/

/-- An instruction of the table of R72 encodes to the R-type word of its entry. -/
theorem encode_of_decodeRType {f7 : BitVec 7} {f3 : BitVec 3} {rd rs1 rs2 : RegIdx} {i : Instr}
    (h : decodeRType f7 f3 rd rs1 rs2 = .ok i) :
    encode i = encodeR f7 rs2 rs1 f3 rd 0b0110011#7 ∧ i.wellFormed = true := by
  unfold decodeRType at h
  split at h <;> cases h <;> exact ⟨rfl, rfl⟩

/-- A shift amount under its upper field is the whole I-type immediate (R70). -/
theorem shiftImm_eq {imm : BitVec 12} {f7 : BitVec 7} (h : imm.extractLsb' 5 7 = f7) :
    f7 ++ imm.extractLsb' 0 5 = imm := by rw [← h, imm_split]

/-- An instruction of the table of R73 encodes to the I-type word of its entry. -/
theorem encode_of_decodeIAlu {f3 : BitVec 3} {rd rs1 : RegIdx} {imm : BitVec 12} {i : Instr}
    (h : decodeIAlu f3 rd rs1 imm = .ok i) :
    encode i = encodeI imm rs1 f3 rd 0b0010011#7 ∧ i.wellFormed = true := by
  unfold decodeIAlu at h
  split at h
  case h_7 =>
    split at h <;> cases h
    next upper => exact ⟨by rw [encode, shiftImm_eq upper], rfl⟩
  case h_8 =>
    split at h
    next upper => cases h; exact ⟨by rw [encode, shiftImm_eq upper], rfl⟩
    next =>
      split at h <;> cases h
      next upper => exact ⟨by rw [encode, shiftImm_eq upper], rfl⟩
  all_goals cases h <;> exact ⟨rfl, rfl⟩

/-- An instruction of the table of R74 encodes to the I-type word of its entry. -/
theorem encode_of_decodeLoad {f3 : BitVec 3} {rd rs1 : RegIdx} {imm : BitVec 12} {i : Instr}
    (h : decodeLoad f3 rd rs1 imm = .ok i) :
    encode i = encodeI imm rs1 f3 rd 0b0000011#7 ∧ i.wellFormed = true := by
  unfold decodeLoad at h
  split at h <;> cases h <;> exact ⟨rfl, rfl⟩

/-- An instruction of the table of R75 encodes to the S-type word of its entry. -/
theorem encode_of_decodeStore {f3 : BitVec 3} {rs1 rs2 : RegIdx} {imm : BitVec 12} {i : Instr}
    (h : decodeStore f3 rs1 rs2 imm = .ok i) :
    encode i = encodeS imm rs2 rs1 f3 0b0100011#7 ∧ i.wellFormed = true := by
  unfold decodeStore at h
  split at h <;> cases h <;> exact ⟨rfl, rfl⟩

/-- An instruction of the table of R76 with an even offset encodes to the B-type word of its entry. -/
theorem encode_of_decodeBranch {f3 : BitVec 3} {rs1 rs2 : RegIdx} {off : BitVec 13} {i : Instr}
    (even : evenOffset off = true) (h : decodeBranch f3 rs1 rs2 off = .ok i) :
    encode i = encodeB off rs2 rs1 f3 0b1100011#7 ∧ i.wellFormed = true := by
  unfold decodeBranch at h
  split at h <;> cases h <;> exact ⟨rfl, even⟩

/-- Settles O2: by its opcode a word is decoded in one table, whose instructions encode to the word with the same
fields; a word is put together from its fields. -/
theorem encodeOfDecodeIsTheWord : Obligations.EncodeOfDecodeIsTheWord := by
  intro w i h
  unfold decode at h
  split at h
  next op =>
    obtain ⟨word, wf⟩ := encode_of_decodeRType h
    exact ⟨by rw [word, ← op, encodeR_fields], wf⟩
  next op =>
    obtain ⟨word, wf⟩ := encode_of_decodeIAlu h
    exact ⟨by rw [word, ← op, encodeI_fields], wf⟩
  next op =>
    obtain ⟨word, wf⟩ := encode_of_decodeLoad h
    exact ⟨by rw [word, ← op, encodeI_fields], wf⟩
  next op =>
    obtain ⟨word, wf⟩ := encode_of_decodeStore h
    exact ⟨by rw [word, ← op, encodeS_fields], wf⟩
  next op =>
    obtain ⟨word, wf⟩ := encode_of_decodeBranch (evenOffset_immBField w) h
    exact ⟨by rw [word, ← op, encodeB_fields], wf⟩
  next op =>
    cases h
    exact ⟨by rw [encode, ← op, encodeJ_fields], evenOffset_immJField w⟩
  next op =>
    split at h <;> cases h
    next f3 => exact ⟨by rw [encode, ← op, ← f3, encodeI_fields], rfl⟩
  next op =>
    cases h
    exact ⟨by rw [encode, ← op, encodeU_fields], rfl⟩
  next op =>
    cases h
    exact ⟨by rw [encode, ← op, encodeU_fields], rfl⟩
  next => cases h

end Sys2Proof.Machine
end

section
/-! PROOF. The decoder accepts the rows of the opcode table and no other word, and the control signals of every word are
those of its class (30_encoding.md R69 to R88). -/

namespace Sys2Proof.Machine

open Claims (tableRow rTypeOp iTypeOp shiftImmOp)

/-! ### The table a word is decoded in, by its opcode (R71) -/

/-- An R-type word is decoded in the table of R72. -/
theorem decode_of_rAlu {w : Word} (h : opcodeField w = 0b0110011#7) :
    decode w = decodeRType (funct7Field w) (funct3Field w) (rdField w) (rs1Field w) (rs2Field w) := by
  simp [decode, h]

/-- An immediate operation is decoded in the table of R73. -/
theorem decode_of_iAlu {w : Word} (h : opcodeField w = 0b0010011#7) :
    decode w = decodeIAlu (funct3Field w) (rdField w) (rs1Field w) (immIField w) := by simp [decode, h]

/-- A load is decoded in the table of R74. -/
theorem decode_of_load {w : Word} (h : opcodeField w = 0b0000011#7) :
    decode w = decodeLoad (funct3Field w) (rdField w) (rs1Field w) (immIField w) := by simp [decode, h]

/-- A store is decoded in the table of R75. -/
theorem decode_of_store {w : Word} (h : opcodeField w = 0b0100011#7) :
    decode w = decodeStore (funct3Field w) (rs1Field w) (rs2Field w) (immSField w) := by simp [decode, h]

/-- A branch is decoded in the table of R76. -/
theorem decode_of_branch {w : Word} (h : opcodeField w = 0b1100011#7) :
    decode w = decodeBranch (funct3Field w) (rs1Field w) (rs2Field w) (immBField w) := by simp [decode, h]

/-- Every word with the opcode of JAL is legal (R77). -/
theorem decode_of_jal {w : Word} (h : opcodeField w = 0b1101111#7) :
    decode w = .ok (.jal (rdField w) (immJField w)) := by simp [decode, h]

/-- A word with the opcode of JALR is legal with `funct3` 000 only (R78). -/
theorem decode_of_jalr {w : Word} (h : opcodeField w = 0b1100111#7) :
    decode w = if funct3Field w = 0b000#3 then .ok (.jalr (rdField w) (rs1Field w) (immIField w))
      else .error .jalr := by simp [decode, h]

/-- Every word with the opcode of LUI is legal (R79). -/
theorem decode_of_lui {w : Word} (h : opcodeField w = 0b0110111#7) :
    decode w = .ok (.lui (rdField w) (immUField w)) := by simp [decode, h]

/-- Every word with the opcode of AUIPC is legal (R79). -/
theorem decode_of_auipc {w : Word} (h : opcodeField w = 0b0010111#7) :
    decode w = .ok (.auipc (rdField w) (immUField w)) := by simp [decode, h]

/-! ### The masks of the opcode table -/

/-- The mask with `funct7` keeps `funct7`, `funct3` and the opcode. -/
theorem and_funct7Mask (w : Word) :
    w &&& 0xFE00707F = encodeR (funct7Field w) 0 0 (funct3Field w) 0 (opcodeField w) := by
  unfold encodeR funct7Field funct3Field opcodeField
  apply BitVec.eq_of_getLsbD_eq
  intro i hi
  simp only [BitVec.getLsbD_append, BitVec.getLsbD_extractLsb', BitVec.getLsbD_and]
  interval_cases i <;> simp

/-- The mask without `funct7` keeps `funct3` and the opcode. -/
theorem and_funct3Mask (w : Word) :
    w &&& 0x0000707F = encodeI 0 0 (funct3Field w) 0 (opcodeField w) := by
  unfold encodeI funct3Field opcodeField
  apply BitVec.eq_of_getLsbD_eq
  intro i hi
  simp only [BitVec.getLsbD_append, BitVec.getLsbD_extractLsb', BitVec.getLsbD_and]
  interval_cases i <;> simp

/-- The mask of an opcode alone keeps the opcode. -/
theorem and_opcodeMask (w : Word) : w &&& 0x0000007F = encodeU 0 0 (opcodeField w) := by
  unfold encodeU opcodeField
  apply BitVec.eq_of_getLsbD_eq
  intro i hi
  simp only [BitVec.getLsbD_append, BitVec.getLsbD_extractLsb', BitVec.getLsbD_and]
  interval_cases i <;> simp

/-! ### The rows of the opcode table -/

/-- The mask with `funct7` on an R-type word. -/
theorem encodeR_and_mask (f7 : BitVec 7) (rs2 rs1 : RegIdx) (f3 : BitVec 3) (rd : RegIdx) (op : BitVec 7) :
    encodeR f7 rs2 rs1 f3 rd op &&& 0xFE00707F = encodeR f7 0 0 f3 0 op := by
  rw [and_funct7Mask]; simp

/-- The mask without `funct7` on an I-type word. -/
theorem encodeI_and_mask (imm : BitVec 12) (rs1 : RegIdx) (f3 : BitVec 3) (rd : RegIdx) (op : BitVec 7) :
    encodeI imm rs1 f3 rd op &&& 0x0000707F = encodeI 0 0 f3 0 op := by
  rw [and_funct3Mask]; simp

/-- The mask without `funct7` on an S-type word. -/
theorem encodeS_and_mask (imm : BitVec 12) (rs2 rs1 : RegIdx) (f3 : BitVec 3) (op : BitVec 7) :
    encodeS imm rs2 rs1 f3 op &&& 0x0000707F = encodeI 0 0 f3 0 op := by
  rw [and_funct3Mask]; simp

/-- The mask without `funct7` on a B-type word. -/
theorem encodeB_and_mask (off : BitVec 13) (rs2 rs1 : RegIdx) (f3 : BitVec 3) (op : BitVec 7) :
    encodeB off rs2 rs1 f3 op &&& 0x0000707F = encodeI 0 0 f3 0 op := by
  rw [and_funct3Mask]; simp

/-- The mask of the opcode on a U-type word. -/
theorem encodeU_and_mask (imm : BitVec 20) (rd : RegIdx) (op : BitVec 7) :
    encodeU imm rd op &&& 0x0000007F = encodeU 0 0 op := by
  rw [and_opcodeMask]; simp

/-- The mask of the opcode on a J-type word. -/
theorem encodeJ_and_mask (off : BitVec 21) (rd : RegIdx) (op : BitVec 7) :
    encodeJ off rd op &&& 0x0000007F = encodeU 0 0 op := by
  rw [and_opcodeMask]; simp

/-- An encoded instruction matches its row: the mask keeps the fields its format fixes. An immediate shift has them where
the R format does, its amount in the place of `rs2` (R70). -/
theorem encode_and_mask (i : Instr) : encode i &&& (tableRow i).1 = (tableRow i).2 := by
  cases i
  case add | sub | sll | slt | sltu | xor | srl | sra | or | and | mul | mulh | mulhsu | mulhu | div | divu | rem | remu =>
    exact encodeR_and_mask ..
  case slli rd rs1 shamt => exact encodeR_and_mask 0b0000000 shamt rs1 0b001 rd 0b0010011
  case srli rd rs1 shamt => exact encodeR_and_mask 0b0000000 shamt rs1 0b101 rd 0b0010011
  case srai rd rs1 shamt => exact encodeR_and_mask 0b0100000 shamt rs1 0b101 rd 0b0010011
  case addi | slti | sltiu | xori | ori | andi | lb | lh | lw | lbu | lhu | jalr => exact encodeI_and_mask ..
  case sb | sh | sw => exact encodeS_and_mask ..
  case beq | bne | blt | bge | bltu | bgeu => exact encodeB_and_mask ..
  case lui | auipc => exact encodeU_and_mask ..
  case jal => exact encodeJ_and_mask ..

/-- A word that matches a row with `funct7` has its `funct7`, `funct3` and opcode. -/
theorem fields_of_funct7Mask {w : Word} {f7 : BitVec 7} {f3 : BitVec 3} {op : BitVec 7}
    (h : w &&& 0xFE00707F = encodeR f7 0 0 f3 0 op) : funct7Field w = f7 ∧ funct3Field w = f3 ∧ opcodeField w = op := by
  rw [and_funct7Mask] at h
  exact ⟨by simpa using congrArg funct7Field h, by simpa using congrArg funct3Field h,
    by simpa using congrArg opcodeField h⟩

/-- A word that matches a row without `funct7` has its `funct3` and opcode. -/
theorem fields_of_funct3Mask {w : Word} {f3 : BitVec 3} {op : BitVec 7} (h : w &&& 0x0000707F = encodeI 0 0 f3 0 op) :
    funct3Field w = f3 ∧ opcodeField w = op := by
  rw [and_funct3Mask] at h
  exact ⟨by simpa using congrArg funct3Field h, by simpa using congrArg opcodeField h⟩

/-- A word that matches a row of an opcode alone has that opcode. -/
theorem opcode_of_opcodeMask {w : Word} {op : BitVec 7} (h : w &&& 0x0000007F = encodeU 0 0 op) : opcodeField w = op := by
  rw [and_opcodeMask] at h
  simpa using congrArg opcodeField h

/-- The upper field of an I-type immediate is `instr[31:25]` (R70). -/
theorem immIField_eq (w : Word) : immIField w = funct7Field w ++ rs2Field w := by
  unfold immIField funct7Field rs2Field
  apply BitVec.eq_of_getLsbD_eq
  intro i hi
  simp only [BitVec.getLsbD_append, BitVec.getLsbD_extractLsb']
  interval_cases i <;> simp

/-- A word that matches an R-type row is decoded in the table of R72 under the row's fields. -/
theorem decode_of_rRow {w : Word} (f7 : BitVec 7) (f3 : BitVec 3)
    (h : w &&& 0xFE00707F = encodeR f7 0 0 f3 0 0b0110011#7) :
    decode w = decodeRType f7 f3 (rdField w) (rs1Field w) (rs2Field w) := by
  obtain ⟨upper, middle, op⟩ := fields_of_funct7Mask h
  rw [decode_of_rAlu op, upper, middle]

/-- A word that matches a shift's row is decoded in the table of R73 under the row's fields. -/
theorem decode_of_shiftRow {w : Word} (f7 : BitVec 7) (f3 : BitVec 3)
    (h : w &&& 0xFE00707F = encodeR f7 0 0 f3 0 0b0010011#7) :
    decode w = decodeIAlu f3 (rdField w) (rs1Field w) (f7 ++ rs2Field w) := by
  obtain ⟨upper, middle, op⟩ := fields_of_funct7Mask h
  rw [decode_of_iAlu op, immIField_eq, upper, middle]

/-- A word that matches an immediate operation's row is decoded in the table of R73 under the row's `funct3`. -/
theorem decode_of_immRow {w : Word} (f3 : BitVec 3) (h : w &&& 0x0000707F = encodeI 0 0 f3 0 0b0010011#7) :
    decode w = decodeIAlu f3 (rdField w) (rs1Field w) (immIField w) := by
  obtain ⟨middle, op⟩ := fields_of_funct3Mask h
  rw [decode_of_iAlu op, middle]

/-- A word that matches a load's row is decoded in the table of R74 under the row's `funct3`. -/
theorem decode_of_loadRow {w : Word} (f3 : BitVec 3) (h : w &&& 0x0000707F = encodeI 0 0 f3 0 0b0000011#7) :
    decode w = decodeLoad f3 (rdField w) (rs1Field w) (immIField w) := by
  obtain ⟨middle, op⟩ := fields_of_funct3Mask h
  rw [decode_of_load op, middle]

/-- A word that matches a store's row is decoded in the table of R75 under the row's `funct3`. -/
theorem decode_of_storeRow {w : Word} (f3 : BitVec 3) (h : w &&& 0x0000707F = encodeI 0 0 f3 0 0b0100011#7) :
    decode w = decodeStore f3 (rs1Field w) (rs2Field w) (immSField w) := by
  obtain ⟨middle, op⟩ := fields_of_funct3Mask h
  rw [decode_of_store op, middle]

/-- A word that matches a branch's row is decoded in the table of R76 under the row's `funct3`. -/
theorem decode_of_branchRow {w : Word} (f3 : BitVec 3) (h : w &&& 0x0000707F = encodeI 0 0 f3 0 0b1100011#7) :
    decode w = decodeBranch f3 (rs1Field w) (rs2Field w) (immBField w) := by
  obtain ⟨middle, op⟩ := fields_of_funct3Mask h
  rw [decode_of_branch op, middle]

/-- A word that matches a row decodes to an instruction of that row: the fields the row fixes select the instruction in
the row's table, whatever the operands. -/
theorem decode_of_tableRow (w : Word) (j : Instr) (h : w &&& (tableRow j).1 = (tableRow j).2) :
    ∃ i, decode w = .ok i ∧ tableRow i = tableRow j := by
  cases j with
  | add => exact ⟨_, decode_of_rRow 0b0000000 0b000 h, rfl⟩
  | sub => exact ⟨_, decode_of_rRow 0b0100000 0b000 h, rfl⟩
  | sll => exact ⟨_, decode_of_rRow 0b0000000 0b001 h, rfl⟩
  | slt => exact ⟨_, decode_of_rRow 0b0000000 0b010 h, rfl⟩
  | sltu => exact ⟨_, decode_of_rRow 0b0000000 0b011 h, rfl⟩
  | xor => exact ⟨_, decode_of_rRow 0b0000000 0b100 h, rfl⟩
  | srl => exact ⟨_, decode_of_rRow 0b0000000 0b101 h, rfl⟩
  | sra => exact ⟨_, decode_of_rRow 0b0100000 0b101 h, rfl⟩
  | or => exact ⟨_, decode_of_rRow 0b0000000 0b110 h, rfl⟩
  | and => exact ⟨_, decode_of_rRow 0b0000000 0b111 h, rfl⟩
  | mul => exact ⟨_, decode_of_rRow 0b0000001 0b000 h, rfl⟩
  | mulh => exact ⟨_, decode_of_rRow 0b0000001 0b001 h, rfl⟩
  | mulhsu => exact ⟨_, decode_of_rRow 0b0000001 0b010 h, rfl⟩
  | mulhu => exact ⟨_, decode_of_rRow 0b0000001 0b011 h, rfl⟩
  | div => exact ⟨_, decode_of_rRow 0b0000001 0b100 h, rfl⟩
  | divu => exact ⟨_, decode_of_rRow 0b0000001 0b101 h, rfl⟩
  | rem => exact ⟨_, decode_of_rRow 0b0000001 0b110 h, rfl⟩
  | remu => exact ⟨_, decode_of_rRow 0b0000001 0b111 h, rfl⟩
  | addi => exact ⟨_, decode_of_immRow 0b000 h, rfl⟩
  | slti => exact ⟨_, decode_of_immRow 0b010 h, rfl⟩
  | sltiu => exact ⟨_, decode_of_immRow 0b011 h, rfl⟩
  | xori => exact ⟨_, decode_of_immRow 0b100 h, rfl⟩
  | ori => exact ⟨_, decode_of_immRow 0b110 h, rfl⟩
  | andi => exact ⟨_, decode_of_immRow 0b111 h, rfl⟩
  | slli => exact ⟨_, (decode_of_shiftRow 0b0000000 0b001 h).trans (decodeIAlu_leftShift ..), rfl⟩
  | srli => exact ⟨_, (decode_of_shiftRow 0b0000000 0b101 h).trans (decodeIAlu_rightShift ..), rfl⟩
  | srai => exact ⟨_, (decode_of_shiftRow 0b0100000 0b101 h).trans (decodeIAlu_rightShift ..), rfl⟩
  | lb => exact ⟨_, decode_of_loadRow 0b000 h, rfl⟩
  | lh => exact ⟨_, decode_of_loadRow 0b001 h, rfl⟩
  | lw => exact ⟨_, decode_of_loadRow 0b010 h, rfl⟩
  | lbu => exact ⟨_, decode_of_loadRow 0b100 h, rfl⟩
  | lhu => exact ⟨_, decode_of_loadRow 0b101 h, rfl⟩
  | sb => exact ⟨_, decode_of_storeRow 0b000 h, rfl⟩
  | sh => exact ⟨_, decode_of_storeRow 0b001 h, rfl⟩
  | sw => exact ⟨_, decode_of_storeRow 0b010 h, rfl⟩
  | beq => exact ⟨_, decode_of_branchRow 0b000 h, rfl⟩
  | bne => exact ⟨_, decode_of_branchRow 0b001 h, rfl⟩
  | blt => exact ⟨_, decode_of_branchRow 0b100 h, rfl⟩
  | bge => exact ⟨_, decode_of_branchRow 0b101 h, rfl⟩
  | bltu => exact ⟨_, decode_of_branchRow 0b110 h, rfl⟩
  | bgeu => exact ⟨_, decode_of_branchRow 0b111 h, rfl⟩
  | jal => exact ⟨_, decode_of_jal (opcode_of_opcodeMask h), rfl⟩
  | jalr =>
    obtain ⟨middle, op⟩ := fields_of_funct3Mask (f3 := 0b000) (op := 0b1100111) h
    exact ⟨_, (decode_of_jalr op).trans (if_pos middle), rfl⟩
  | lui => exact ⟨_, decode_of_lui (opcode_of_opcodeMask h), rfl⟩
  | auipc => exact ⟨_, decode_of_auipc (opcode_of_opcodeMask h), rfl⟩

/-- Settles O3: a legal word is the encoding of its instruction, which matches the row by `encode_and_mask`; a word
that matches a row decodes in it by `decode_of_tableRow`. -/
theorem decoderAcceptsExactlyTheOpcodeTable : Obligations.DecoderAcceptsExactlyTheOpcodeTable := by
  refine ⟨fun w i h => ?_, decode_of_tableRow⟩
  rw [← (encodeOfDecodeIsTheWord w i h).1]
  exact encode_and_mask i

/-- Settles O4: each word is decoded by evaluation. -/
theorem wordsOfTheSpecDecode : Obligations.WordsOfTheSpecDecode := by
  unfold Obligations.WordsOfTheSpecDecode
  decide

/-! ### Control signals and immediates (R69, R84) -/

/-- The operation of an R-type instruction is the one R72 lists under its fields, and it has no immediate. -/
theorem op_imm_of_decodeRType {f7 : BitVec 7} {f3 : BitVec 3} {rd rs1 rs2 : RegIdx} {i : Instr}
    (h : decodeRType f7 f3 rd rs1 rs2 = .ok i) : (f7, f3, aluOpOf i) ∈ rTypeOp ∧ immOf i = 0 := by
  unfold decodeRType at h
  split at h <;> cases h <;> exact ⟨by simp [aluOpOf, rTypeOp], rfl⟩

/-- The operation of an immediate instruction is the one R73 lists under its fields, and its immediate is `immI`. -/
theorem op_imm_of_decodeIAlu {f3 : BitVec 3} {rd rs1 : RegIdx} {imm : BitVec 12} {i : Instr}
    (h : decodeIAlu f3 rd rs1 imm = .ok i) :
    ((f3, aluOpOf i) ∈ iTypeOp ∨ (imm.extractLsb' 5 7, f3, aluOpOf i) ∈ shiftImmOp) ∧ immOf i = immI imm := by
  unfold decodeIAlu at h
  split at h
  case h_7 =>
    split at h <;> cases h
    next upper => exact ⟨.inr (by simp [upper, aluOpOf, shiftImmOp]), by rw [immOf, immShift, shiftImm_eq upper]⟩
  case h_8 =>
    split at h
    next upper =>
      cases h
      exact ⟨.inr (by simp [upper, aluOpOf, shiftImmOp]), by rw [immOf, immShift, shiftImm_eq upper]⟩
    next =>
      split at h <;> cases h
      next upper => exact ⟨.inr (by simp [upper, aluOpOf, shiftImmOp]), by rw [immOf, immShift, shiftImm_eq upper]⟩
  all_goals cases h <;> exact ⟨.inl (by simp [aluOpOf, iTypeOp]), rfl⟩

/-- A load adds, and its immediate is `immI`. -/
theorem op_imm_of_decodeLoad {f3 : BitVec 3} {rd rs1 : RegIdx} {imm : BitVec 12} {i : Instr}
    (h : decodeLoad f3 rd rs1 imm = .ok i) : aluOpOf i = .add ∧ immOf i = immI imm := by
  unfold decodeLoad at h
  split at h <;> cases h <;> exact ⟨rfl, rfl⟩

/-- A store adds, and its immediate is `immS`. -/
theorem op_imm_of_decodeStore {f3 : BitVec 3} {rs1 rs2 : RegIdx} {imm : BitVec 12} {i : Instr}
    (h : decodeStore f3 rs1 rs2 imm = .ok i) : aluOpOf i = .add ∧ immOf i = immS imm := by
  unfold decodeStore at h
  split at h <;> cases h <;> exact ⟨rfl, rfl⟩

/-- A branch subtracts, and its immediate is `immB`. -/
theorem op_imm_of_decodeBranch {f3 : BitVec 3} {rs1 rs2 : RegIdx} {off : BitVec 13} {i : Instr}
    (h : decodeBranch f3 rs1 rs2 off = .ok i) : aluOpOf i = .sub ∧ immOf i = immB off := by
  unfold decodeBranch at h
  split at h <;> cases h <;> exact ⟨rfl, rfl⟩

/-- The bundle of a legal word is that of the class its opcode selects, with the instruction's operation (R84, R86). -/
theorem controlOfWord_of_kind {w : Word} {i : Instr} {k : Kind} (h : decode w = .ok i) (hk : kindOf i = k) :
    controlOfWord w = classCtrl k (aluOpOf i) := by
  rw [controlOfWord_ok h, controlOf, hk]

/-- Settles O6: an illegal word has the bundle of R87; a legal one that of its class, with the operation and the
immediate of the table its opcode selects. -/
theorem controlSignalsFollowTheTable : Obligations.ControlSignalsFollowTheTable := by
  intro w
  refine ⟨fun e h => ?illegal, fun i h => ?legal⟩
  case illegal => simp [controlOfWord, immOfWord, h, classCtrl]
  case legal =>
    have control {k : Kind} (hk : kindOf i = k) := controlOfWord_of_kind h hk
    rw [immOfWord_ok h]
    refine ⟨fun op => ?rAlu, fun op => ?iAlu, fun op => ?load, fun op => ?store, fun op => ?branch, fun op => ?jal,
      fun op => ?jalr, fun op => ?upper⟩
    case rAlu =>
      rw [decode_of_rAlu op] at h
      rw [control (kindOf_of_decodeRType h)]
      exact ⟨⟨rfl, rfl, rfl, rfl, rfl, rfl, rfl⟩, op_imm_of_decodeRType h⟩
    case iAlu =>
      rw [decode_of_iAlu op] at h
      rw [control (kindOf_of_decodeIAlu h)]
      have table := op_imm_of_decodeIAlu h
      rw [immIField_eq, shift_funct7, ← immIField_eq] at table
      exact ⟨⟨rfl, rfl, rfl, rfl, rfl, rfl, rfl⟩, table⟩
    case load =>
      rw [decode_of_load op] at h
      rw [control (kindOf_of_decodeLoad h)]
      exact ⟨⟨rfl, rfl, rfl, rfl, rfl, rfl, rfl⟩, op_imm_of_decodeLoad h⟩
    case store =>
      rw [decode_of_store op] at h
      rw [control (kindOf_of_decodeStore h)]
      exact ⟨⟨rfl, rfl, rfl, rfl, rfl, rfl, rfl⟩, op_imm_of_decodeStore h⟩
    case branch =>
      rw [decode_of_branch op] at h
      rw [control (kindOf_of_decodeBranch h)]
      exact ⟨⟨rfl, rfl, rfl, rfl, rfl, rfl, rfl⟩, op_imm_of_decodeBranch h⟩
    case jal =>
      rw [decode_of_jal op] at h
      cases h
      rw [control rfl]
      exact ⟨⟨rfl, rfl, rfl, rfl, rfl, rfl, rfl⟩, rfl, rfl⟩
    case jalr =>
      rw [decode_of_jalr op] at h
      split at h <;> cases h
      rw [control rfl]
      exact ⟨⟨rfl, rfl, rfl, rfl, rfl, rfl, rfl⟩, rfl, rfl⟩
    case upper =>
      rcases op with op | op
      · rw [decode_of_lui op] at h
        cases h
        rw [control rfl]
        exact ⟨⟨rfl, rfl, rfl, rfl, rfl, rfl, rfl⟩, rfl, rfl⟩
      · rw [decode_of_auipc op] at h
        cases h
        rw [control rfl]
        exact ⟨⟨rfl, rfl, rfl, rfl, rfl, rfl, rfl⟩, rfl, rfl⟩

end Sys2Proof.Machine
end

section
/-! PROOF. Signed division and the multiplications' two words: what the ALU computes, in the integers
(41_alu_core.md R104 to R112, 42_register_ops.md R129, R131). -/

namespace Sys2Proof.Machine

/-! ### Signed division (R108, R110) -/

/-- The product of the signs with the quotient of the magnitudes is the quotient rounded toward zero. -/
theorem sign_mul_sign_mul_natAbs_div (a b : Int) :
    a.sign * b.sign * ((a.natAbs / b.natAbs : Nat) : Int) = a.tdiv b := by
  rw [← Int.sign_mul_natAbs (a.tdiv b), Int.natAbs_tdiv, Int.sign_tdiv]
  split
  next small => simp [Nat.div_eq_of_lt small]
  next => rfl

/-- Outside its corners DIV gives the quotient rounded toward zero (R108). -/
theorem aluDiv_of_no_corner {a b : Word} (hb : b ≠ 0) (ho : ¬(a = 0x80000000 ∧ b = 0xFFFFFFFF)) :
    aluDiv a b = BitVec.ofInt 32 (a.toInt.tdiv b.toInt) := by
  rw [aluDiv, if_neg hb, if_neg ho, sign_mul_sign_mul_natAbs_div]

/-- Outside its corners that quotient is a signed word, so cutting it loses nothing. -/
theorem toInt_aluDiv {a b : Word} (hb : b ≠ 0) (ho : ¬(a = 0x80000000 ∧ b = 0xFFFFFFFF)) :
    (aluDiv a b).toInt = a.toInt.tdiv b.toInt := by
  rw [aluDiv_of_no_corner hb ho, ← BitVec.toInt_sdiv_of_ne_or_ne a b (not_and_or.1 ho), BitVec.ofInt_toInt]

/-- Outside its corners REM gives the remainder with the sign of the dividend (R110). -/
theorem aluRem_of_no_corner {a b : Word} (hb : b ≠ 0) (ho : ¬(a = 0x80000000 ∧ b = 0xFFFFFFFF)) :
    aluRem a b = BitVec.ofInt 32 (a.toInt.tmod b.toInt) := by
  rw [aluRem, if_neg hb, if_neg ho, toInt_aluDiv hb ho, ← Int.tmod_def]

/-- That remainder is a signed word. -/
theorem toInt_aluRem {a b : Word} (hb : b ≠ 0) (ho : ¬(a = 0x80000000 ∧ b = 0xFFFFFFFF)) :
    (aluRem a b).toInt = a.toInt.tmod b.toInt := by
  rw [aluRem_of_no_corner hb ho, ← BitVec.toInt_srem, BitVec.ofInt_toInt]

/-- DIV for every operand pair, its corners included. -/
theorem alu_div (a b : Word) :
    alu .div a b = if b = 0 then 0xFFFFFFFF else if a = 0x80000000 ∧ b = 0xFFFFFFFF then 0x80000000
      else BitVec.ofInt 32 (a.toInt.tdiv b.toInt) := by
  simp only [alu, aluDiv, sign_mul_sign_mul_natAbs_div]

/-- REM for every operand pair, its corners included. -/
theorem alu_rem (a b : Word) :
    alu .rem a b = if b = 0 then a else if a = 0x80000000 ∧ b = 0xFFFFFFFF then 0
      else BitVec.ofInt 32 (a.toInt.tmod b.toInt) := by
  by_cases hb : b = 0
  · rw [if_pos hb, alu, aluRem, if_pos hb]
  · by_cases ho : a = 0x80000000 ∧ b = 0xFFFFFFFF
    · rw [if_neg hb, if_pos ho, alu, aluRem, if_neg hb, if_pos ho]
    · rw [if_neg hb, if_neg ho, alu, aluRem_of_no_corner hb ho]

/-- Settles O10: both divisions are rows by `regRegRow_of_op`. -/
theorem signedDivisionsWriteTheirResult : Obligations.SignedDivisionsWriteTheirResult :=
  ⟨regRegRow_of_op .div alu_div, regRegRow_of_op .rem alu_rem⟩

/-! ### Quotient and remainder together (R112) -/

/-- DIVU by a divisor that is not 0 is the quotient: it fits a word. -/
theorem toNat_aluDivu (a : Word) {b : Word} (hb : b ≠ 0) : (aluDivu a b).toNat = a.toNat / b.toNat := by
  rw [aluDivu, if_neg hb, BitVec.toNat_ofNat, Nat.mod_eq_of_lt ((Nat.div_le_self _ _).trans_lt a.isLt)]

/-- REMU by a divisor that is not 0 is the remainder: it fits a word. -/
theorem toNat_aluRemu (a : Word) {b : Word} (hb : b ≠ 0) : (aluRemu a b).toNat = a.toNat % b.toNat := by
  rw [aluRemu, if_neg hb, BitVec.toNat_ofNat, Nat.mod_eq_of_lt ((Nat.mod_le _ _).trans_lt a.isLt)]

/-- Settles O11: outside the corners the results are the quotient and remainder of the integers; for a zero divisor the
product vanishes and the remainder is the dividend. -/
theorem quotientAndRemainderMakeTheDividend : Obligations.QuotientAndRemainderMakeTheDividend := by
  intro a b
  refine ⟨fun hb ho => ?signed, fun hb => ?unsigned, fun hb => ?zero⟩
  case signed =>
    have divisor : 0 < b.toInt.natAbs := Int.natAbs_pos.2 fun h => hb (BitVec.toInt_inj.1 h)
    simp only [alu, toInt_aluDiv hb ho, toInt_aluRem hb ho]
    refine ⟨(Int.mul_tdiv_add_tmod _ _).symm, ?_⟩
    rw [Int.natAbs_tmod]
    exact Nat.mod_lt _ divisor
  case unsigned =>
    have divisor : 0 < b.toNat := Nat.pos_of_ne_zero fun h => hb (BitVec.eq_of_toNat_eq h)
    simp only [alu, toNat_aluDivu a hb, toNat_aluRemu a hb]
    exact ⟨(Nat.div_add_mod _ _).symm, Nat.mod_lt _ divisor⟩
  case zero =>
    subst hb
    simp [alu, aluRem, aluRemu]

/-! ### The 64-bit product from its two words (R104 to R107) -/

/-- The high and the low word of an integer, each cut to 32 bits, make the integer cut to 64. -/
theorem ofInt_append_ofInt (x : Int) :
    (BitVec.ofInt 32 (x / 2 ^ 32) ++ BitVec.ofInt 32 x : BitVec 64) = BitVec.ofInt 64 x := by
  apply BitVec.eq_of_toNat_eq
  rw [BitVec.toNat_append, ← Nat.shiftLeft_add_eq_or_of_lt (BitVec.isLt _), Nat.shiftLeft_eq]
  simp only [BitVec.toNat_ofInt]
  omega

/-- A word extended by sign is its signed value as 64 bits. -/
theorem ofInt_toInt_signExtend (a : Word) : BitVec.ofInt 64 a.toInt = a.signExtend 64 := rfl

/-- A word extended by zeros is its unsigned value as 64 bits. -/
theorem ofInt_toNat_setWidth (a : Word) : BitVec.ofInt 64 (a.toNat : Int) = a.setWidth 64 := by
  rw [BitVec.ofInt_natCast, BitVec.ofNat_toNat]

/-- MUL is the product of the words themselves, the same for every signedness (R104). -/
theorem alu_mul (a b : Word) : alu .mul a b = a * b := by
  rw [alu, aluMul, BitVec.ofInt_mul, BitVec.ofInt_toInt, BitVec.ofInt_toInt]

/-- The low word of a product is the product of the words. -/
theorem ofInt_mul_words {a b : Word} {x y : Int} (hx : BitVec.ofInt 32 x = a) (hy : BitVec.ofInt 32 y = b) :
    alu .mul a b = BitVec.ofInt 32 (x * y) := by
  rw [alu_mul, BitVec.ofInt_mul, hx, hy]

/-- An unsigned word is cut from its own value. -/
theorem ofInt_toNat (a : Word) : BitVec.ofInt 32 (a.toNat : Int) = a := by
  rw [BitVec.ofInt_natCast, BitVec.ofNat_toNat, BitVec.setWidth_eq]

/-- Settles O12: in each signedness the two words are those of one integer product, and the extended operands multiply to
that product cut to 64 bits. -/
theorem highAndLowWordsMakeTheProduct : Obligations.HighAndLowWordsMakeTheProduct := by
  intro a b
  refine ⟨?signed, ?mixed, ?unsigned⟩
  case signed =>
    rw [ofInt_mul_words BitVec.ofInt_toInt BitVec.ofInt_toInt, ← ofInt_toInt_signExtend, ← ofInt_toInt_signExtend,
      ← BitVec.ofInt_mul]
    exact ofInt_append_ofInt _
  case mixed =>
    rw [ofInt_mul_words BitVec.ofInt_toInt (ofInt_toNat b), ← ofInt_toInt_signExtend, ← ofInt_toNat_setWidth,
      ← BitVec.ofInt_mul]
    exact ofInt_append_ofInt _
  case unsigned =>
    rw [alu_mulhu, ofInt_mul_words (ofInt_toNat a) (ofInt_toNat b), ← ofInt_toNat_setWidth, ← ofInt_toNat_setWidth,
      ← BitVec.ofInt_mul]
    exact ofInt_append_ofInt _

end Sys2Proof.Machine
end

section
/-! PROOF. The instructions' meanings as a whole: JALR, what no meaning does to a stopped core or to the memory's canonical
form, and that every meaning is what the stages make of the instruction's word (00_scope.md R13; 45_control_transfer.md
R165; 20_memory.md R43). -/

namespace Sys2Proof.Machine

/-! ### JALR (R165) -/

/-- Clearing bit 0 leaves bit 1, so a JALR target is misaligned exactly by bit 1 of the sum (60_exceptions.md R211). -/
theorem misaligned_jalrTarget_eq_sum_bit (base imm : Word) :
    misaligned (jalrTarget base imm) = (base + imm).getLsbD 1 := by
  rw [misaligned_jalrTarget]
  simp [jalrTarget]

/-- Settles O18: the word is the encoder's, and the two outcomes are those of `execJalr` by bit 1 of the sum. -/
theorem jalrLinksAndJumps : Obligations.JalrLinksAndJumps := by
  intro rd rs1 imm
  refine ⟨decode_encodeI_jalr imm rs1 rd, fun s hr => ?_⟩
  have meaning : exec (.jalr rd rs1 imm) s = .next
      (if (s.x rs1 + imm.signExtend 32).getLsbD 1 then raise .misalignedBranchTarget s.pc (encode (.jalr rd rs1 imm)) s
       else (s.setX rd (s.pc + 4)).goto (jalrTarget (s.x rs1) (immI imm))) := by
    rw [← misaligned_jalrTarget_eq_sum_bit]
    exact whenRunning_running hr
  refine ⟨fun aligned => ⟨_, meaning, ?_⟩, fun unaligned => ⟨_, meaning, ?_⟩⟩
  · rw [if_neg (Bool.eq_false_iff.1 aligned)]
    exact writesReg_setX_goto hr rd _ _
  · rw [if_pos unaligned]
    exact raises_raise _ _ s

/-! ### Every meaning runs only on a running core, and changes memory by a store only -/

/-- Every meaning is guarded by the status (10_state.md R37), and its effect on memory, if any, is one `MemWrite`. -/
theorem exec_eq_whenRunning (i : Instr) (s : State) :
    ∃ t, exec i s = whenRunning s t ∧ (t.mem = s.mem ∨ ∃ a n v, t.mem = memWrite s.mem a n v) := by
  cases i
  case sb rs1 rs2 imm => exact ⟨_, rfl, .inr ⟨effectiveAddress (s.x rs1) (immS imm), .byte, s.x rs2, rfl⟩⟩
  case sh rs1 rs2 imm => exact ⟨_, rfl, .inr ⟨effectiveAddress (s.x rs1) (immS imm), .half, s.x rs2, rfl⟩⟩
  case sw rs1 rs2 imm => exact ⟨_, rfl, .inr ⟨effectiveAddress (s.x rs1) (immS imm), .word, s.x rs2, rfl⟩⟩
  case beq | bne | blt | bge | bltu | bgeu =>
    refine ⟨_, rfl, .inl ?_⟩
    split
    · rfl
    · split <;> rfl
  case jal | jalr =>
    refine ⟨_, rfl, .inl ?_⟩
    split <;> rfl
  all_goals exact ⟨_, rfl, .inl rfl⟩

/-- No instruction changes a stopped core (60_exceptions.md R216). -/
theorem exec_of_stopped (i : Instr) {s : State} (h : s.status ≠ .running) : exec i s = .next s := by
  obtain ⟨t, meaning, -⟩ := exec_eq_whenRunning i s
  rw [meaning, whenRunning_stopped h]

/-- Every instruction keeps the memory canonical. -/
theorem exec_wf {i : Instr} {s t : State} (hm : s.mem.wf) (h : exec i s = .next t) : t.mem.wf := by
  obtain ⟨u, meaning, effect⟩ := exec_eq_whenRunning i s
  rw [meaning, whenRunning_next] at h
  cases h
  split
  · rcases effect with same | ⟨a, n, v, store⟩
    · rwa [same]
    · rw [store]
      exact wf_memWrite a n v hm
  · exact hm

/-- Every cycle keeps the memory canonical: it changes it by EX/MEM's store at most (R176). -/
theorem tick_wf {s : State} (hm : s.mem.wf) : s.tick.mem.wf := by
  by_cases hr : s.status = .running
  · rw [tick_mem hr]
    exact wf_storeLatch s.exmem hm
  · rwa [tick_of_not_running hr]

/-- Settles O23: every change of the memory is a `MemWrite`, which keeps the form, and a canonical memory is determined
by its bytes. -/
theorem memoryKeepsItsCanonicalForm : Obligations.MemoryKeepsItsCanonicalForm := by
  refine ⟨fun m a n v => wf_memWrite a n v, fun i s t => exec_wf, fun s t hm h => ?_, fun m n => memory_ext_words⟩
  cases h
  exact tick_wf hm

/-! ### The stages in a row, class by class (R13) -/

section Stages

variable {s : State} (hr : s.status = .running)
include hr

/-- The register-register meaning is what the stages make of an R-type word of its operation (R114). -/
theorem execRegReg_eq_runAlone {op : AluOp} {f7 : BitVec 7} {rs2 rs1 : RegIdx} {f3 : BitVec 3} {rd : RegIdx}
    (hc : controlOfWord (encodeR f7 rs2 rs1 f3 rd 0b0110011#7) = classCtrl .rAlu op) :
    execRegReg op rd rs1 rs2 s = .next (s.runAlone (encodeR f7 rs2 rs1 f3 rd 0b0110011#7)) := by
  rw [execRegReg_running op rd rs1 rs2 hr, runAlone_rr s _ op hc]
  simp

/-- The register-immediate meaning is what the stages make of its word (R133). The second operand is the word's immediate,
or any other the operation does not tell from it (R70). -/
theorem execRegImm_eq_runAlone {op : AluOp} {imm : BitVec 12} {rs1 : RegIdx} {f3 : BitVec 3} {rd : RegIdx} {b : Word}
    (hc : controlOfWord (encodeI imm rs1 f3 rd 0b0010011#7) = classCtrl .iAlu op)
    (hb : ∀ a, alu op a (immOfWord (encodeI imm rs1 f3 rd 0b0010011#7)) = alu op a b) :
    execRegImm op rd rs1 b s = .next (s.runAlone (encodeI imm rs1 f3 rd 0b0010011#7)) := by
  rw [execRegImm_running op rd rs1 b hr, runAlone_ri s _ op hc, hb]
  simp

/-- The load meaning is what the stages make of a load's word (R146). -/
theorem execLoad_eq_runAlone {o : LoadOp} {imm : BitVec 12} {rs1 : RegIdx} {f3 : BitVec 3} {rd : RegIdx}
    (hc : controlOfWord (encodeI imm rs1 f3 rd 0b0000011#7) = classCtrl .load .add)
    (hi : immOfWord (encodeI imm rs1 f3 rd 0b0000011#7) = immI imm) (ho : loadOp? f3 = some o) :
    execLoad o rd rs1 imm s = .next (s.runAlone (encodeI imm rs1 f3 rd 0b0000011#7)) := by
  rw [execLoad_running o rd rs1 imm hr, runAlone_load s _ o hc (by simpa using ho), hi]
  simp [effectiveAddress]

/-- The store meaning is what the stages make of a store's word (R146). -/
theorem execStore_eq_runAlone {n : Width} {imm : BitVec 12} {rs2 rs1 : RegIdx} {f3 : BitVec 3}
    (hc : controlOfWord (encodeS imm rs2 rs1 f3 0b0100011#7) = classCtrl .store .add)
    (hi : immOfWord (encodeS imm rs2 rs1 f3 0b0100011#7) = immS imm) (hn : storeWidth? f3 = some n) :
    execStore n rs1 rs2 imm s = .next (s.runAlone (encodeS imm rs2 rs1 f3 0b0100011#7)) := by
  rw [execStore_running n rs1 rs2 imm hr, runAlone_store s _ n hc (by simpa using hn), hi]
  simp [effectiveAddress]

/-- The branch meaning is what the stages make of a branch's word (R157). -/
theorem execBranch_eq_runAlone {c : BranchCond} {off : BitVec 13} {rs2 rs1 : RegIdx} {f3 : BitVec 3}
    (hc : controlOfWord (encodeB off rs2 rs1 f3 0b1100011#7) = classCtrl .branch .sub)
    (hi : immOfWord (encodeB off rs2 rs1 f3 0b1100011#7) = immB off) (hb : branchCond? f3 = some c) :
    execBranch c rs1 rs2 off (encodeB off rs2 rs1 f3 0b1100011#7) s =
      .next (s.runAlone (encodeB off rs2 rs1 f3 0b1100011#7)) := by
  rw [execBranch_running c rs1 rs2 off _ hr, runAlone_branch s _ c hc (by simpa using hb), hi]
  simp

end Stages

/-- Settles O54: `runAlone` of the word is, class by class, the effect the instruction rules state; the word's fields,
control bundle and immediate are those of the instruction, since it decodes to it. -/
theorem stagesInARowAreTheMeaning : Obligations.StagesInARowAreTheMeaning := by
  intro i s wf hr
  have word := decodeOfEncodeIsTheInstruction i wf
  have hc := controlOfWord_ok word
  have hi := immOfWord_ok word
  cases i
  case add | sub | sll | slt | sltu | xor | srl | sra | or | and | mul | mulh | mulhsu | mulhu | div | divu | rem | remu =>
    exact execRegReg_eq_runAlone hr hc
  case addi | slti | sltiu | xori | ori | andi => exact execRegImm_eq_runAlone hr hc fun a => congrArg (alu _ a) hi
  case slli => exact execRegImm_eq_runAlone hr hc fun a => (congrArg (alu _ a) hi).trans (shift_operand _ _ a _ (.inl rfl))
  case srli => exact execRegImm_eq_runAlone hr hc fun a => (congrArg (alu _ a) hi).trans (shift_operand _ _ a _ (.inr (.inl rfl)))
  case srai => exact execRegImm_eq_runAlone hr hc fun a => (congrArg (alu _ a) hi).trans (shift_operand _ _ a _ (.inr (.inr rfl)))
  case lb | lh | lw | lbu | lhu => exact execLoad_eq_runAlone hr hc hi rfl
  case sb | sh | sw => exact execStore_eq_runAlone hr hc hi rfl
  case beq | bne | blt | bge | bltu | bgeu => exact execBranch_eq_runAlone hr hc hi rfl
  case jal =>
    rw [runAlone_jal s _ hc, hi, encode, rdField_encodeJ]
    exact whenRunning_running hr
  case jalr =>
    rw [runAlone_jalr s _ hc, hi, encode, rdField_encodeI, rs1Field_encodeI]
    exact whenRunning_running hr
  case lui =>
    rw [runAlone_lui s _ hc, hi, encode, rdField_encodeU]
    exact whenRunning_running hr
  case auipc =>
    rw [runAlone_auipc s _ hc, hi, encode, rdField_encodeU]
    exact whenRunning_running hr

end Sys2Proof.Machine
end

section
/-! PROOF. The operands of execute and of transfers, and the load-use stall: the bypass network and where transfers
resolve (50_pipeline.md R177 to R193). -/

namespace Sys2Proof.Machine

open Claims (WillWrite IsBypass ReadsSource)

/-! ### The bypass (R178, R189) -/

/-- The multiplexer picks its first latch, its second, or the value read, as `IsBypass` says. -/
theorem forwardEx_isBypass (first second : Latch) (r : RegIdx) (v : Word) :
    IsBypass first second r v (forwardEx first second r v) := by
  have picks (L : Latch) : (L.writes && L.rd == r) = true ↔ WillWrite L ∧ L.rd = r := by
    rw [Bool.and_eq_true, writes_iff_willWrite, beq_iff_eq]
  refine ⟨fun h1 => ?first, fun h1 h2 => ?second, fun h1 h2 => ?read⟩ <;> unfold forwardEx
  case first => rw [if_pos ((picks _).2 h1)]
  case second => rw [if_neg (mt (picks _).1 h1), if_pos ((picks _).2 h2), result_eq_wbVal]
  case read => rw [if_neg (mt (picks _).1 h1), if_neg (mt (picks _).1 h2)]

/-- Settles O27: the policy and the source-use bit select the value read or the bypass, by cases. -/
theorem executeTakesItsOperandsThroughTheBypass : Obligations.ExecuteTakesItsOperandsThroughTheBypass := by
  intro s
  refine ⟨fun hp => by simp only [State.exA, State.exB, hp, and_self], fun hp => ?_⟩
  simp only [State.exA, State.exB, hp]
  refine ⟨fun h => ?_, fun h => ?_, fun h => ?_, fun h => ?_⟩
  · rw [if_pos h]; exact forwardEx_isBypass ..
  · rw [h]; rfl
  · rw [if_pos h]; exact forwardEx_isBypass ..
  · rw [h]; rfl

/-! ### Where transfers resolve (R181, R190, R191) -/

/-- The three classes of transfers. -/
theorem isTransfer_iff (L : Latch) : L.isTransfer = true ↔ L.ctrl.kind ∈ [Kind.branch, .jal, .jalr] := by
  unfold Latch.isTransfer
  cases L.ctrl.kind <;> simp

/-- A latch of another class is no transfer. -/
theorem isTransfer_eq_false_iff (L : Latch) : L.isTransfer = false ↔ L.ctrl.kind ∉ [Kind.branch, .jal, .jalr] := by
  rw [← Bool.not_eq_true, isTransfer_iff]

/-- Under `NoForwarding` execute resolves a valid transfer in ID/EX on the operands decode read (R181). -/
theorem exResolution_of_transfer {s : State} (hp : s.policy = .noForwarding) (hv : s.idex.valid = true)
    (ht : s.idex.isTransfer = true) : s.exResolution = resolve s.idex s.idex.rs1Val s.idex.rs2Val := by
  simp only [State.exResolution, hp, hv, ht, State.exA, State.exB, Bool.and_self, if_true]

/-- Execute resolves nothing for a latch that is no transfer (R181). -/
theorem exResolution_of_no_transfer {s : State} (ht : s.idex.isTransfer = false) : s.exResolution = .stay := by
  unfold State.exResolution
  cases s.policy <;> simp [ht]

/-- Under `Forwarding` decode resolves a transfer that issues on the operands of its bypass (R190). -/
theorem idResolution_of_transfer {s : State} (hp : s.policy = .forwarding) (hi : s.issues = true)
    (ht : s.decoded.isTransfer = true) :
    s.idResolution = resolve s.decoded (bypassDecode s.nextExmem s.nextMemwb s.rf1 s.decoded.rs1)
      (bypassDecode s.nextExmem s.nextMemwb s.rf1 s.decoded.rs2) := by
  simp only [State.idResolution, hp, hi, ht, Bool.and_self, if_true]

/-- Decode resolves nothing for an instruction that is no transfer (R190). -/
theorem idResolution_of_no_transfer {s : State} (ht : s.decoded.isTransfer = false) : s.idResolution = .stay := by
  unfold State.idResolution
  cases s.policy <;> simp [ht]

/-- Settles O30: the policy leaves resolution to one stage, which resolves a transfer and nothing else; decode's operands
are those of its bypass. -/
theorem transfersResolveWhereThePolicySays : Obligations.TransfersResolveWhereThePolicySays := by
  intro s
  refine ⟨fun hp => ⟨idResolution_noForwarding hp, fun hv hk => ?_, fun h => ?_⟩,
    fun hp => ⟨exResolution_forwarding hp, fun hi hk => ?_, fun h => ?_⟩⟩
  · exact exResolution_of_transfer hp hv ((isTransfer_iff _).2 hk)
  · exact h.elim exResolution_of_bubble fun hk => exResolution_of_no_transfer ((isTransfer_eq_false_iff _).2 hk)
  · exact ⟨_, _, forwardEx_isBypass .., forwardEx_isBypass .., idResolution_of_transfer hp hi ((isTransfer_iff _).2 hk)⟩
  · exact h.elim idResolution_of_not_issues fun hk => idResolution_of_no_transfer ((isTransfer_eq_false_iff _).2 hk)

/-! ### The load-use stall (R186) -/

/-- Under `Forwarding` there is a hazard exactly when a load in ID/EX writes a source the instruction reads (R186). -/
theorem loadUseHazard_decoded_iff (s : State) :
    loadUseHazard s.idex s.decoded = true ↔
      s.idex.valid = true ∧ s.idex.ctrl.memRead = true ∧ ReadsSource s s.idex.rd := by
  simp only [loadUseHazard, Bool.and_eq_true, Bool.or_eq_true, bne_iff_ne, beq_iff_eq, ReadsSource, and_assoc]
  rfl

/-- Nothing is squashed under `Forwarding`: execute redirects nothing (R181, R194). -/
theorem squash_forwarding {s : State} (hp : s.policy = .forwarding) : s.squash = false := by
  rw [State.squash, exResolution_forwarding hp]

/-- Settles O32: the stall is the hazard, which is `loadUseHazard_decoded_iff`. -/
theorem forwardingStallsOnALoadUseOnly : Obligations.ForwardingStallsOnALoadUseOnly := by
  intro s hp hv hf
  rw [← loadUseHazard_decoded_iff]
  simp [stalls_iff, hv, squash_forwarding hp, hf, State.hasHazard, hp]

end Sys2Proof.Machine
end

section
/-! PROOF. One clock cycle, part by part: what it keeps and counts, the flush of a redirect, fetch, the busy counters, the
trace row and completion (50_pipeline.md R172 to R200). -/

namespace Sys2Proof.Machine

open Claims (WillWrite Outside slotOf)

/-! ### What every cycle keeps and counts -/

/-- No cycle changes the program (20_memory.md R45). -/
@[simp] theorem tick_prog (s : State) : s.tick.prog = s.prog := by
  rcases tick_cases s with ⟨-, h⟩ | ⟨-, -, h⟩ | ⟨-, k, p, w, -, h⟩ <;> simp [h]

/-- No cycle changes the policy (10_state.md R40). -/
@[simp] theorem tick_policy (s : State) : s.tick.policy = s.policy := by
  rcases tick_cases s with ⟨-, h⟩ | ⟨-, -, h⟩ | ⟨-, k, p, w, -, h⟩ <;> simp [h]

/-- No cycle writes cell 0 (R17). -/
@[simp] theorem tick_cell_zero (s : State) : s.tick.regs[0] = s.regs[0] := by
  rcases tick_cases s with ⟨-, h⟩ | ⟨-, -, h⟩ | ⟨-, k, p, w, -, h⟩ <;> simp [h, State.rf1]

/-- A running core counts its cycle and appends its row, with no modifiers if it halts (R39, R200). -/
theorem tick_trace {s : State} (hr : s.status = .running) :
    s.tick.cycle = s.cycle + 1 ∧ s.tick.trace = s.trace ++
      [if s.faultOf = none then s.traceRow s.fetchMod s.decodeMod else s.traceRow .none .none] := by
  rcases tick_cases s with ⟨stopped, -⟩ | ⟨-, hf, h⟩ | ⟨-, k, p, w, hf, h⟩
  · exact absurd hr stopped
  · rw [h, if_pos hf]
    exact ⟨flowCycle_cycle s, flowCycle_trace s⟩
  · rw [h, if_neg (by simp [hf])]
    exact ⟨haltCycle_cycle s k p w, haltCycle_trace s k p w⟩

/-- Settles O24: a step is `tick`, which keeps program, policy and cell 0, counts and traces a running cycle, and holds a
stopped core. -/
theorem stepTakesOneCycle : Obligations.StepTakesOneCycle := by
  intro s
  refine ⟨s.tick, rfl, tick_prog s, tick_policy s, tick_cell_zero s, tick_of_not_running, fun hr => ?_⟩
  obtain ⟨cycle, trace⟩ := tick_trace hr
  exact ⟨cycle, _, trace⟩

/-! ### The flush of a redirect (R194, R195) -/

/-- A squashed instruction raises no fault in decode (R183). -/
theorem idFault_of_squash {s : State} (h : s.squash = true) : s.idFault = none := by simp [State.idFault, h]

/-- A squashed instruction does not stall (R187). -/
theorem stalls_of_squash {s : State} (h : s.squash = true) : s.stalls = false := by simp [State.stalls, h]

/-- A squashed instruction does not issue (R188). -/
theorem issues_of_squash {s : State} (h : s.squash = true) : s.issues = false := by simp [State.issues, h]

/-- Settles O36: under `NoForwarding` the redirect is execute's and squashes decode; under `Forwarding` it is decode's, of
the instruction that issues. -/
theorem redirectFlushesTheYounger : Obligations.RedirectFlushesTheYounger := by
  intro s h hr
  obtain ⟨target, redirect⟩ := Option.ne_none_iff_exists'.1 hr
  refine ⟨s.flowCycle, step_of_flows h, by simp [State.nextIfid, redirect], fun hp => ?stall, fun hp => ?forward⟩
  case stall =>
    have ex : s.exResolution = .redirect target :=
      (redirect_some redirect).resolve_right fun h => by simp [idResolution_noForwarding hp] at h
    have squash : s.squash = true := (squash_iff s).2 ⟨target, ex⟩
    have noIssue := issues_of_squash squash
    exact ⟨by rw [flowCycle_idex, nextIdex_of_not_issues noIssue],
      by rw [flowCycle_busy, nextBusy_of_not_issues noIssue], idFault_of_squash squash, stalls_of_squash squash⟩
  case forward =>
    have issues : s.issues = true :=
      ((redirect_some redirect).resolve_left fun h => by simp [exResolution_forwarding hp] at h).2
    rw [flowCycle_idex, nextIdex_of_issues issues]

/-! ### Fetch (R196, R197) -/

/-- An address at which the program has a word is inside it. -/
theorem inBounds_of_getElem? {s : State} {a w : Word} (h : s.prog[a.toNat / 4]? = some w) :
    s.inBounds a = true ∧ s.progWord a = w := by
  obtain ⟨inside, -⟩ := List.getElem?_eq_some_iff.1 h
  exact ⟨decide_eq_true (by omega), by simp [State.progWord, h]⟩

/-- An address is outside the program exactly when it is not in bounds. -/
theorem inBounds_eq_false_iff (s : State) (a : Word) : s.inBounds a = false ↔ Outside s a := by
  simp [State.inBounds, Outside]

/-- Settles O37: without a redirect, the stall and the bounds of `pc` select the three cases of IF/ID and `pc`. -/
theorem fetchFollowsThePc : Obligations.FetchFollowsThePc := by
  intro s h hr
  refine ⟨s.flowCycle, step_of_flows h, fun hs => ?stalled, fun hs w hw => ?fetched, fun hs out => ?outside⟩ <;>
    rw [flowCycle_pc, flowCycle_ifid]
  case stalled => simp [State.nextIfid, State.nextPc, hr, hs]
  case fetched =>
    obtain ⟨inside, word⟩ := inBounds_of_getElem? hw
    simp [State.nextIfid, State.nextPc, hr, hs, inside, word, fetchedLatch]
  case outside =>
    have outside := (inBounds_eq_false_iff s s.pc).2 out
    simp [State.nextIfid, State.nextPc, hr, hs, outside]

/-! ### The busy counters (R175) -/

/-- A counter after a latch has entered ID/EX: one more for the register it will write. -/
theorem busyOf_markLatch (b : Vector (BitVec 2) 32) (L : Latch) (r : RegIdx) :
    busyOf (markLatch b L) r = if WillWrite L ∧ L.rd = r then busyOf b r + 1 else busyOf b r := by
  unfold markLatch
  by_cases hw : WillWrite L
  · rw [if_pos ((writes_iff_willWrite _).2 hw), busyOf_markBusy]
    by_cases hrd : r = L.rd
    · rw [if_pos hrd, if_pos ⟨hw, hrd.symm⟩, hrd]
    · rw [if_neg hrd, if_neg fun h => hrd h.2.symm]
  · rw [if_neg fun h => hw ((writes_iff_willWrite _).1 h), if_neg fun h => hw h.1]

/-- A counter after a cycle that does not halt: released by MEM/WB, marked by the new ID/EX. -/
theorem busyOf_flowCycle (s : State) (r : RegIdx) :
    busyOf s.flowCycle.busy r =
      (if WillWrite s.memwb ∧ s.memwb.rd = r then busyOf s.busy r - 1 else busyOf s.busy r) +
        if WillWrite s.flowCycle.idex ∧ s.flowCycle.idex.rd = r then 1 else 0 := by
  rw [flowCycle_busy, State.nextBusy, busyOf_markLatch, busyOf_busy1, flowCycle_idex]
  simp only [eq_comm (a := r)]
  split <;> simp

/-- Settles O38: each clause is a case of `busyOf_flowCycle`. -/
theorem busyCountersMarkAndRelease : Obligations.BusyCountersMarkAndRelease := by
  intro s h
  refine ⟨s.flowCycle, step_of_flows h, fun r => ?_⟩
  rw [busyOf_flowCycle]
  refine ⟨fun release noMark => ?_, fun noRelease mark => ?_, fun same => ?_⟩
  · rw [if_pos release, if_neg noMark, add_zero]
  · rw [if_neg noRelease, if_pos mark]
  · by_cases release : WillWrite s.memwb ∧ s.memwb.rd = r
    · rw [if_pos release, if_pos (same.1 release), BitVec.sub_add_cancel]
    · rw [if_neg release, if_neg (mt same.2 release), add_zero]

/-! ### The trace row (R200) -/

/-- Settles O39: the row is `traceRow`, with this cycle's modifiers or, if it halts, none. -/
theorem everyCycleAppendsItsTraceRow : Obligations.EveryCycleAppendsItsTraceRow := by
  intro s hr
  obtain ⟨-, trace⟩ := tick_trace hr
  have row (f d : SlotMod) : s.traceRow f d =
      { fetch := if s.pc.toNat < 4 * s.prog.length then .occ s.pc f else .empty, decode := slotOf s.ifid d,
        execute := slotOf s.idex .none, memory := slotOf s.exmem .none, writeBack := slotOf s.memwb .none } := by
    simp only [State.traceRow, State.inBounds, decide_eq_true_eq]
    rfl
  by_cases hf : s.faultOf = none
  · rw [if_pos hf, row] at trace
    refine ⟨s.tick, rfl, s.fetchMod, s.decodeMod, trace, fun h => absurd hf h, fun _ => ⟨?_, ?_, ?_, ?_, ?_, ?_⟩⟩
    · exact fun h => if_pos (Option.isSome_iff_ne_none.2 h)
    · exact fun h hs => by simp [State.fetchMod, h, hs]
    · exact fun h hs => by simp [State.fetchMod, h, hs]
    · exact fun hq => if_pos hq
    · exact fun hq hs => by simp [State.decodeMod, hq, hs]
    · exact fun hq hs => by simp [State.decodeMod, hq, hs]
  · rw [if_neg hf, row] at trace
    exact ⟨s.tick, rfl, .none, .none, trace, fun _ => ⟨rfl, rfl⟩, fun h => absurd h hf⟩

/-! ### Completion (R199) -/

/-- The completion condition, part by part. -/
theorem drainedOut_iff (s : State) :
    s.drainedOut = true ↔ s.ifid.valid = false ∧ s.idex.valid = false ∧ s.exmem.valid = false ∧
      s.memwb.valid = false ∧ Outside s s.pc := by
  simp only [State.drainedOut, Bool.and_eq_true, Bool.not_eq_true', inBounds_eq_false_iff, and_assoc]

/-- Completing changes the status only, which the condition does not read. -/
theorem completeIfDrained_drainedOut (s : State) : s.completeIfDrained.drainedOut = s.drainedOut := by
  unfold State.completeIfDrained
  split <;> rfl

/-- The status after a cycle that does not halt. -/
theorem flowCycle_status (s : State) :
    s.flowCycle.status = if s.flowCycle.drainedOut = true then .completed else s.status := by
  rw [State.flowCycle, completeIfDrained_status, completeIfDrained_drainedOut]

/-- Settles O40: the status is that of `flowCycle_status`, and the condition is `drainedOut_iff`. -/
theorem completesWhenDrained : Obligations.CompletesWhenDrained := by
  intro s h
  refine ⟨s.flowCycle, step_of_flows h, ?_⟩
  rw [← drainedOut_iff, flowCycle_status, h.1]
  by_cases out : s.flowCycle.drainedOut = true <;> simp [out]

end Sys2Proof.Machine
end

section
/-! PROOF. Faults: which word and which instruction raises one, and the halting cycle (60_exceptions.md R209 to R214). -/

namespace Sys2Proof.Machine

/-! ### The faults of decode (R183) -/

/-- Exactly the words that do not decode have the illegal bundle (30_encoding.md R87). -/
theorem controlOfWord_illegal_iff (w : Word) : (controlOfWord w).illegal = true ↔ ∃ e, decode w = .error e := by
  cases h : decode w with
  | ok i => simp [controlOfWord_ok h]
  | error e => simp [controlOfWord, h, classCtrl]

/-- An illegal word raises (R209). -/
theorem decodeFault_of_illegal {D : Latch} (h : D.ctrl.illegal = true) : decodeFault D = some .illegalOpcode := if_pos h

/-- A legal branch or JAL whose immediate is not a multiple of 4 raises (R210). -/
theorem decodeFault_of_misaligned {D : Latch} (legal : D.ctrl.illegal = false) (hk : D.ctrl.kind ∈ [Kind.branch, .jal])
    (hm : misaligned D.imm = true) : decodeFault D = some .misalignedBranchTarget := by
  have kind : D.ctrl.kind = .branch ∨ D.ctrl.kind = .jal := by simpa using hk
  simp [decodeFault, legal, kind, hm]

/-- Decode raises for these two reasons only (R183). -/
theorem decodeFault_some {D : Latch} {k : FaultKind} (h : decodeFault D = some k) :
    (k = .illegalOpcode ∧ D.ctrl.illegal = true) ∨
      (k = .misalignedBranchTarget ∧ D.ctrl.kind ∈ [Kind.branch, .jal] ∧ misaligned D.imm = true) := by
  unfold decodeFault at h
  split at h
  next illegal =>
    cases h
    exact .inl ⟨rfl, illegal⟩
  next =>
    split at h <;> cases h
    next transfer =>
      right
      simpa using transfer

/-- The fault of decode is that of the word in IF/ID, if it is valid and not squashed (R183). -/
theorem idFault_some_iff (s : State) (k : FaultKind) :
    s.idFault = some k ↔ s.ifid.valid = true ∧ s.squash = false ∧ decodeFault s.decoded = some k := by
  unfold State.idFault
  by_cases hv : s.ifid.valid = true <;> by_cases hq : s.squash = true <;> simp [hv, hq]

/-! ### The fault of a cycle, by priority (R213) -/

/-- Execute's fault comes first. -/
theorem faultOf_of_ex {s : State} {k : FaultKind} {p w : Word} (h : s.exResolution = .fault k p w) :
    s.faultOf = some (k, p, w) := by simp [State.faultOf, h]

/-- Then that of the word in decode. -/
theorem faultOf_of_idFault {s : State} {k : FaultKind} (hx : ∀ k p w, s.exResolution ≠ .fault k p w)
    (h : s.idFault = some k) : s.faultOf = some (k, s.ifid.pc, s.ifid.instr) := by
  unfold State.faultOf
  cases hr : s.exResolution with
  | fault k p w => exact absurd hr (hx k p w)
  | stay => simp [h]
  | redirect t => simp [h]

/-- A fault decode resolves to is the cycle's: its instruction issues, so its word raised none, and execute resolves
nothing. -/
theorem faultOf_of_idResolution {s : State} {k : FaultKind} {p w : Word} (h : s.idResolution = .fault k p w) :
    s.faultOf = some (k, p, w) := by
  obtain ⟨hp, issues, -, -⟩ := idResolution_of_ne_stay (s := s) (by simp [h])
  obtain ⟨-, -, noFault, -⟩ := (issues_iff s).1 issues
  simp [State.faultOf, exResolution_forwarding hp, noFault, h]

/-- A cycle with a fault ends halted with it (R214). -/
theorem tick_status_of_fault {s : State} {k : FaultKind} {p w : Word} (hr : s.status = .running)
    (h : s.faultOf = some (k, p, w)) : s.tick.status = .halted k p w := by
  rw [tick_of_fault hr h, haltCycle_status]

/-- Without a fault a running core does not end halted. -/
theorem flowCycle_not_halted {s : State} (hr : s.status = .running) (k : FaultKind) (p w : Word) :
    s.flowCycle.status ≠ .halted k p w := by
  rw [flowCycle_status, hr]
  split <;> simp

/-- A running core that ends halted had this fault. -/
theorem faultOf_of_halted {s : State} {k : FaultKind} {p w : Word} (hr : s.status = .running)
    (h : s.tick.status = .halted k p w) : s.faultOf = some (k, p, w) := by
  cases hf : s.faultOf with
  | none =>
    rw [tick_of_no_fault hr hf] at h
    exact absurd h (flowCycle_not_halted hr k p w)
  | some f =>
    obtain ⟨k', p', w'⟩ := f
    rw [tick_status_of_fault hr hf] at h
    cases h
    rfl

/-- Settles O41: the status is halted exactly with the cycle's fault, which is one of the three by `faultOf_some`. -/
theorem haltsOnTheseFaultsOnly : Obligations.HaltsOnTheseFaultsOnly := by
  intro s hr
  refine ⟨s.tick, rfl, fun p w h => tick_status_of_fault hr (faultOf_of_ex h), fun hx hv hq => ⟨?illegal, ?misaligned⟩,
    fun k p w h => tick_status_of_fault hr (faultOf_of_idResolution h), fun k p w h => ?only⟩
  case illegal =>
    intro illegal
    have fault := decodeFault_of_illegal (D := s.decoded) ((controlOfWord_illegal_iff _).2 illegal)
    exact tick_status_of_fault hr (faultOf_of_idFault hx ((idFault_some_iff s _).2 ⟨hv, hq, fault⟩))
  case misaligned =>
    intro i word hk hm
    have legal : s.decoded.ctrl.illegal = false := (congrArg Ctrl.illegal (controlOfWord_ok word)).trans (controlOf_illegal i)
    have fault := decodeFault_of_misaligned legal hk ((misaligned_eq_true_iff _).2 hm)
    exact tick_status_of_fault hr (faultOf_of_idFault hx ((idFault_some_iff s _).2 ⟨hv, hq, fault⟩))
  case only =>
    rcases faultOf_some (faultOf_of_halted hr h) with ex | ⟨fault, rfl, rfl, -⟩ | ⟨inDecode, -, -⟩
    · obtain ⟨hp, -, -, resolved⟩ := exResolution_of_ne_stay (s := s) (by simp [ex])
      obtain ⟨kind, -, hk, hpc, hw⟩ := resolve_fault (resolved.symm.trans ex)
      exact .inl ⟨ex, hp, kind, hk, hpc, hw⟩
    · obtain ⟨hv, hq, fault⟩ := (idFault_some_iff s k).1 fault
      refine .inr ⟨hv, hq, rfl, rfl, ?_⟩
      rcases decodeFault_some fault with ⟨hk, illegal⟩ | ⟨hk, kind, hm⟩
      · exact .inl ⟨hk, (controlOfWord_illegal_iff _).1 illegal⟩
      · exact .inr (.inl ⟨hk, kind, (misaligned_eq_true_iff _).1 hm⟩)
    · obtain ⟨hp, issues, -, resolved⟩ := idResolution_of_ne_stay (s := s) (by simp [inDecode])
      obtain ⟨hv, hq, -, -⟩ := (issues_iff s).1 issues
      obtain ⟨kind, -, hk, rfl, rfl⟩ := resolve_fault (resolved.symm.trans inDecode)
      exact .inr ⟨hv, hq, rfl, rfl, .inr (.inr ⟨hk, hp, issues, kind, inDecode⟩)⟩

/-- Settles O42: the halting cycle is `haltCycle`, whose registers are those after write-back and whose counters those
after the release. -/
theorem haltingCycleFinishesOnlyWriteBackAndStore : Obligations.HaltingCycleFinishesOnlyWriteBackAndStore := by
  intro s k p w hr hf
  have halt := tick_of_fault hr hf
  refine ⟨s.haltCycle k p w, congrArg _ halt, rfl, rfl, rfl, rfl, rfl, rfl, rfl, by simp, rfl, fun hw => ?written,
    fun r hne => ?others, busyOf_busy1 s⟩
  case written => rw [State.x, haltCycle_regs, readReg_rf1, if_pos ⟨hw, rfl⟩]
  case others => rw [State.x, haltCycle_regs, readReg_rf1, if_neg hne]

end Sys2Proof.Machine
end

section
/-! PROOF. The host's calls: reset, loading, running and reading, and that a stopped core stays stopped
(70_reset_and_hazards.md R225 to R229; 60_exceptions.md R216). -/

namespace Sys2Proof.Machine

/-! ### Reset and loading (R226, R227) -/

/-- Every register reads 0 after reset. -/
theorem readReg_replicate (r : RegIdx) : readReg (Vector.replicate 32 0) r = 0 := by simp [readReg]

/-- Every busy counter is 0 after reset. -/
theorem busyOf_replicate (r : RegIdx) : busyOf (Vector.replicate 32 0) r = 0 := by simp [busyOf]

/-- Settles O44: every piece is the value `resetWith` gives it. -/
theorem resetPutsEveryPieceAtItsValue : Obligations.ResetPutsEveryPieceAtItsValue :=
  ⟨fun _ _ => ⟨_, rfl, readReg_replicate, fun _ => Vector.getElem_replicate _, rfl, rfl, rfl, rfl, rfl,
    busyOf_replicate, fun _ => rfl, rfl, rfl, rfl, rfl, rfl⟩, rfl⟩

/-- Word `k` of a program of legal length is at address `4k` (20_memory.md R45). -/
theorem progWord_four_mul {s : State} (hl : s.prog.length ≤ maxProgramWords) {k : Nat} (hk : k < s.prog.length) :
    s.progWord (BitVec.ofNat 32 (4 * k)) = s.prog.getD k 0 := by
  have index : (BitVec.ofNat 32 (4 * k)).toNat / 4 = k := by
    unfold maxProgramWords at hl
    rw [BitVec.toNat_ofNat]
    omega
  rw [State.progWord, index]

/-- `loadProgram` accepts exactly the programs of legal length, and resets the core with them. -/
theorem loadProgram_ok_iff (policy : Policy) (words : List Word) (s : State) :
    loadProgram policy words = .ok s ↔
      words ≠ [] ∧ words.length ≤ maxProgramWords ∧ s = State.resetWith policy words := by
  unfold loadProgram
  split
  next empty => simp [empty]
  next nonempty =>
    split
    next long => simp [Nat.not_le.2 long]
    next legal => simp [nonempty, Nat.not_lt.1 legal, eq_comm]

/-- Settles O45: the three lengths are the three branches of `loadProgram`. -/
theorem loadProgramRefusesOrResets : Obligations.LoadProgramRefusesOrResets := by
  intro policy words
  refine ⟨fun h => ?empty, fun h1 h2 => ⟨?legal, fun k hk => progWord_four_mul (by exact h2) hk⟩, fun h => ?long⟩
  case empty => rw [loadProgram, if_pos (List.length_eq_zero_iff.1 h)]
  case legal => exact (loadProgram_ok_iff ..).2 ⟨List.ne_nil_of_length_pos h1, h2, rfl⟩
  case long =>
    have nonempty : words ≠ [] := List.ne_nil_of_length_pos (by omega)
    rw [loadProgram, if_neg nonempty, if_pos (by exact h)]

/-! ### Runs (R228) -/

/-- A run of a stopped core takes no cycle. -/
theorem runCycles_of_stopped {s : State} (h : s.status ≠ .running) (n : Nat) : runCycles n s = (0, s) := by
  cases n with
  | zero => rfl
  | succ n =>
    rw [runCycles]
    cases hs : s.status with
    | running => exact absurd hs h
    | halted => rfl
    | completed => rfl

/-- A run of a running core takes a cycle and goes on. -/
theorem runCycles_of_running {s : State} (h : s.status = .running) (n : Nat) :
    runCycles (n + 1) s = ((runCycles n s.tick).1 + 1, (runCycles n s.tick).2) := by
  have tick : s.tick = s.clockCycle := by rw [State.tick, h]
  rw [runCycles, h, tick]

/-- Settles O43: a step is `tick`, a run takes cycles only while running, and every meaning is guarded by the status. -/
theorem stoppedCoreStaysStopped : Obligations.StoppedCoreStaysStopped :=
  fun _ n i h => ⟨congrArg _ (tick_of_not_running h), runCycles_of_stopped h n, exec_of_stopped i h⟩

/-- A run takes at most the cycles given, fewer only if the core has stopped, and counts those it takes. -/
theorem runCycles_count (n : Nat) (s : State) :
    (runCycles n s).1 ≤ n ∧ ((runCycles n s).1 < n → (runCycles n s).2.status ≠ .running) ∧
      (runCycles n s).2.cycle = s.cycle + (runCycles n s).1 := by
  induction n generalizing s with
  | zero => exact ⟨le_rfl, fun h => absurd h (Nat.lt_irrefl 0), rfl⟩
  | succ n ih =>
    by_cases hr : s.status = .running
    · obtain ⟨most, stopped, counted⟩ := ih s.tick
      rw [runCycles_of_running hr]
      refine ⟨by simpa using most, fun h => stopped (by simpa using h), ?_⟩
      dsimp only
      rw [counted, (tick_trace hr).1]
      omega
    · rw [runCycles_of_stopped hr]
      exact ⟨Nat.zero_le _, fun _ => hr, rfl⟩

/-- Two runs in a row are one. -/
theorem runCycles_add (a b : Nat) (s : State) :
    runCycles (a + b) s = ((runCycles a s).1 + (runCycles b (runCycles a s).2).1, (runCycles b (runCycles a s).2).2) := by
  induction a generalizing s with
  | zero => simp [runCycles]
  | succ a ih =>
    by_cases hr : s.status = .running
    · rw [Nat.add_right_comm, runCycles_of_running hr, runCycles_of_running hr, ih]
      simp only [Nat.add_right_comm]
    · simp only [runCycles_of_stopped hr]

/-- Settles O46: the count is `runCycles_count`, the sum is `runCycles_add`. -/
theorem runsAddUp : Obligations.RunsAddUp :=
  ⟨fun _ => rfl, runCycles_count, fun a b s => by rw [runCycles_add]; exact ⟨rfl, rfl⟩,
    fun _ _ => rfl⟩

/-! ### Reading (R229) -/

/-- Settles O47: a register index is below 32, and a word read is its four bytes. -/
theorem hostReadsRegistersAndMemory : Obligations.HostReadsRegistersAndMemory := by
  intro s
  have register (i : RegIdx) : readRegister s i.toNat = some (s.x i).toInt := by
    rw [readRegister, if_pos i.isLt, BitVec.ofNat_toNat, BitVec.setWidth_eq]
    rfl
  refine ⟨register, (register 0).trans ?_, fun n h => if_neg (Nat.not_lt.2 h), fun a => rfl⟩
  rw [x_zero]
  rfl

/-! ### The cycle count and the trace are never read (R202, R220) -/

/-- Completing two cores that differ in cycle count and trace only. -/
theorem completeIfDrained_congr {s t : State} (h : t = { s with cycle := t.cycle, trace := t.trace }) :
    t.completeIfDrained = { s.completeIfDrained with cycle := t.cycle, trace := t.trace } := by
  have same : t.drainedOut = s.drainedOut := by rw [h]; rfl
  rw [State.completeIfDrained, State.completeIfDrained, same]
  split
  · rw [h]
  · exact h

/-- A cycle of a core with another cycle count and trace differs in these two only. -/
theorem tick_with_trace (s : State) (c : Nat) (tr : List TraceRow) :
    ∃ c' tr', ({ s with cycle := c, trace := tr } : State).tick = { s.tick with cycle := c', trace := tr' } := by
  rcases tick_cases s with ⟨stopped, h⟩ | ⟨hr, hf, h⟩ | ⟨hr, k, p, w, hf, h⟩
  · exact ⟨c, tr, by rw [h, tick_of_not_running (s := { s with cycle := c, trace := tr }) stopped]⟩
  · rw [h, tick_of_no_fault (s := { s with cycle := c, trace := tr }) hr hf]
    unfold State.flowCycle
    exact ⟨_, _, completeIfDrained_congr rfl⟩
  · rw [h, tick_of_fault (s := { s with cycle := c, trace := tr }) hr hf]
    exact ⟨_, _, rfl⟩

/-- Settles O48: by `tick_with_trace` the two results differ in cycle count and trace only. -/
theorem traceAndCycleCountAreNeverRead : Obligations.TraceAndCycleCountAreNeverRead := by
  intro s c tr t t' h h'
  cases h
  cases h'
  obtain ⟨c', tr', same⟩ := tick_with_trace s c tr
  rw [same]
  exact ⟨rfl, rfl, rfl, rfl, rfl, rfl, rfl, rfl, rfl, rfl, rfl⟩

end Sys2Proof.Machine
end

section
/-! PROOF. The invariants: they hold after reset and every step keeps them; stalls are short and something issues or the
core stops (10_state.md R23, R31, R34; 50_pipeline.md R203, R204). -/

namespace Sys2Proof.Machine

/-! ### Reset -/

/-- After reset with a program of legal length the invariant holds: everything is 0 or a bubble. -/
theorem resetWith_coherent (policy : Policy) {prog : List Word} (h : prog.length ≤ maxProgramWords) :
    (State.resetWith policy prog).Coherent := by
  have canonical : Memory.wf [] := by simp [Memory.wf]
  have counts : (State.resetWith policy prog).busyExact := fun r => congrArg BitVec.toNat (busyOf_replicate r)
  exact ⟨canonical, Vector.getElem_replicate _, rfl, h, .inl rfl, .inl rfl, .inl rfl, .inl rfl,
    ⟨rfl, rfl, rfl, fun _ => rfl⟩, fun _ => counts, rfl⟩

/-- After reset ID/EX is a bubble, which reads nothing. -/
theorem resetWith_operandsReady (policy : Policy) (prog : List Word) : (State.resetWith policy prog).operandsReady :=
  fun h => absurd h Bool.false_ne_true

/-- Settles O49: `State.reset` is `resetWith` of the empty program. -/
theorem resetIsCoherent : Obligations.ResetIsCoherent :=
  ⟨resetWith_coherent _ (Nat.zero_le _), resetWith_operandsReady _ _,
    fun policy prog h => ⟨resetWith_coherent policy h, resetWith_operandsReady policy prog⟩⟩

/-! ### Every step keeps `Coherent` -/

/-- Which latches hold words of the program does not change in a cycle, as the program does not. -/
theorem flowCycle_fetchedAt (s : State) (L : Latch) : s.flowCycle.fetchedAt L ↔ s.fetchedAt L := by
  simp only [State.fetchedAt, State.inBounds, State.progWord, flowCycle_prog]

/-- A cycle that does not halt keeps the invariant: each part is one lemma of Laws/Invariant.lean. -/
theorem flowCycle_coherent {s : State} (h : s.Coherent) (hr : s.status = .running) : s.flowCycle.Coherent := by
  have ⟨canonical, cell, _, length, _, _, _, _, _, counts, traced⟩ := h
  simp only [State.Coherent, State.ifidOk, State.laterOk, State.unfilledZero, State.busyExact, State.pending,
    flowCycle_fetchedAt, flowCycle_mem, flowCycle_regs, flowCycle_pc, flowCycle_prog, flowCycle_ifid, flowCycle_idex,
    flowCycle_exmem, flowCycle_memwb, flowCycle_busy, flowCycle_trace, flowCycle_cycle]
  exact ⟨wf_storeLatch _ canonical, (commitLatch_cell_zero _ _).trans cell, nextPc_aligned h, length, nextIfid_ok h,
    nextIdex_ok h, nextExmem_ok h, nextMemwb_ok h, unfilled_next h, fun _ => busyExact_next (counts hr),
    by simp [traced]⟩

/-- A halting cycle keeps the invariant: `pc` and the latches stay, and the counters count on a running core only. -/
theorem haltCycle_coherent {s : State} (h : s.Coherent) (k : FaultKind) (p w : Word) :
    (s.haltCycle k p w).Coherent := by
  obtain ⟨canonical, cell, aligned, length, ifid, idex, exmem, memwb, unfilled, -, traced⟩ := h
  exact ⟨wf_storeLatch _ canonical, (commitLatch_cell_zero _ _).trans cell, aligned, length, ifid, idex, exmem, memwb,
    unfilled, fun running => by simp at running, by simp [traced]⟩

/-- Every cycle keeps the invariant. -/
theorem tick_coherent {s : State} (h : s.Coherent) : s.tick.Coherent := by
  rcases tick_cases s with ⟨-, tick⟩ | ⟨hr, -, tick⟩ | ⟨-, k, p, w, -, tick⟩ <;> rw [tick]
  · exact h
  · exact flowCycle_coherent h hr
  · exact haltCycle_coherent h k p w

/-- Settles O50: a step is `tick`. -/
theorem everyStepKeepsCoherent : Obligations.EveryStepKeepsCoherent := by
  intro s t h hstep
  cases hstep
  exact tick_coherent h

/-! ### Every step keeps `operandsReady` (R203) -/

/-- After a cycle that does not halt, ID/EX holds what has issued, whose operands are those of program order by
`operandsReady_issue`, or a bubble. -/
theorem flowCycle_operandsReady {s : State} (h : s.Coherent) (hr : s.status = .running) (hf : s.faultOf = none) :
    s.flowCycle.operandsReady := by
  intro valid
  by_cases issues : s.issues = true
  · rw [flow_rf2 (exFaults_of_no_fault hf), flowCycle_idex, nextIdex_of_issues issues]
    exact operandsReady_issue h hr issues
  · rw [flowCycle_idex, nextIdex_of_not_issues (Bool.eq_false_iff.2 issues)] at valid
    exact absurd valid Bool.false_ne_true

/-- Every cycle keeps the operands ready; a halting one keeps the latches, and the registers of program order. -/
theorem tick_operandsReady {s : State} (h : s.Coherent) (ready : s.operandsReady) : s.tick.operandsReady := by
  rcases tick_cases s with ⟨-, tick⟩ | ⟨hr, hf, tick⟩ | ⟨-, k, p, w, -, tick⟩ <;> rw [tick]
  · exact ready
  · exact flowCycle_operandsReady h hr hf
  · rw [State.operandsReady, halt_rf2 h]
    exact ready

/-- Settles O51: a step is `tick`. -/
theorem everyStepKeepsOperandsReady : Obligations.EveryStepKeepsOperandsReady := by
  intro s t h ready hstep
  cases hstep
  exact tick_operandsReady h ready

/-! ### Without pending work there is no hazard (R185, R186) -/

/-- A bubble has no pending write. -/
theorem pendingOn_of_invalid {L : Latch} (h : L.valid = false) (r : RegIdx) : L.pendingOn r = 0 := by
  simp [Latch.pendingOn, Latch.writes, h]

/-- Under `Forwarding` only a load in ID/EX makes a hazard (R186). -/
theorem hasHazard_of_idex_bubble {s : State} (hp : s.policy = .forwarding) (hid : s.idex.valid = false) :
    s.hasHazard = false := by
  simp [State.hasHazard, hp, loadUseHazard, hid]

/-- With bubbles in ID/EX and EX/MEM nothing is pending after this cycle's release, so decode sees no hazard. -/
theorem hasHazard_of_bubbles {s : State} (counts : s.busyExact) (hid : s.idex.valid = false)
    (hex : s.exmem.valid = false) : s.hasHazard = false := by
  cases hp : s.policy with
  | noForwarding =>
    have free (r : RegIdx) : busyOf s.busy1 r = 0 := by
      apply BitVec.eq_of_toNat_eq
      rw [busy1_eq counts, pendingOn_of_invalid hid, pendingOn_of_invalid hex]
      rfl
    simp [State.hasHazard, hp, busyHazard, free]
  | forwarding => exact hasHazard_of_idex_bubble hp hid

/-- An instruction without a hazard does not stall. -/
theorem stalls_of_no_hazard {s : State} (h : s.hasHazard = false) : s.stalls = false := by simp [State.stalls, h]

/-- A bubble in ID/EX leaves execute nothing to resolve, so decode is not squashed (R181, R194). -/
theorem squash_of_idex_bubble {s : State} (h : s.idex.valid = false) : s.squash = false :=
  (squash_false_iff s).2 fun t => by simp [exResolution_of_bubble h]

/-- Execute makes a bubble of a bubble (R180). -/
theorem nextExmem_of_idex_bubble {s : State} (h : s.idex.valid = false) : s.nextExmem = Latch.bubble := by
  simp [State.nextExmem, executeStage, h]

/-! ### What a cycle that does not halt leaves in the latches -/

/-- A cycle whose successor runs did not fault. -/
theorem faultOf_of_tick_running {s : State} (hr : s.status = .running) (ht : s.tick.status = .running) :
    s.faultOf = none := by
  cases hf : s.faultOf with
  | none => rfl
  | some f =>
    obtain ⟨k, p, w⟩ := f
    rw [tick_status_of_fault hr hf] at ht
    cases ht

/-- A core that runs after a cycle ran before it. -/
theorem running_of_tick_running {s : State} (ht : s.tick.status = .running) : s.status = .running := by
  by_contra hr
  exact hr (tick_of_not_running hr ▸ ht)

/-- A running cycle without a fault in which nothing issues puts a bubble into ID/EX. -/
theorem tick_idex_of_no_issue {s : State} (hr : s.status = .running) (hf : s.faultOf = none) (hi : s.issues = false) :
    s.tick.idex.valid = false := by
  rw [tick_of_no_fault hr hf, flowCycle_idex, nextIdex_of_not_issues hi]
  rfl

/-- Execute and memory make bubbles of bubbles (R176, R180). -/
theorem tick_back_bubbles {s : State} (hr : s.status = .running) (hf : s.faultOf = none) :
    (s.idex.valid = false → s.tick.exmem.valid = false) ∧ (s.exmem.valid = false → s.tick.memwb.valid = false) := by
  rw [tick_of_no_fault hr hf, flowCycle_exmem, flowCycle_memwb]
  exact ⟨fun hid => by rw [nextExmem_of_idex_bubble hid]; rfl, fun hex => hex⟩

/-! ### Stalls are short (R204) -/

/-- A cycle that stalls, with nothing to fault in execute, flows. -/
theorem faultOf_of_stalls {s : State} (hs : s.stalls = true) (hx : s.exResolution = .stay) : s.faultOf = none := by
  obtain ⟨-, -, noFault, -⟩ := (stalls_iff s).1 hs
  refine (faultOf_none s).2 ⟨fun k p w => by simp [hx], noFault, fun k p w => ?_⟩
  simp [idResolution_of_not_issues (issues_of_stalls hs)]

/-- Settles O52: the first stall leaves a bubble in ID/EX, which ends it under `Forwarding`; under `NoForwarding` the
second leaves one in EX/MEM too, and then no source is busy. -/
theorem stallsAreShort : Obligations.StallsAreShort := by
  intro s h hr hs
  refine ⟨fun hp hs1 running2 => ?noForwarding, fun hp => ?forwarding⟩
  case noForwarding =>
    have running1 := running_of_tick_running running2
    have hf0 := faultOf_of_tick_running hr running1
    have hf1 := faultOf_of_tick_running running1 running2
    have idex1 := tick_idex_of_no_issue hr hf0 (issues_of_stalls hs)
    have idex2 := tick_idex_of_no_issue running1 hf1 (issues_of_stalls hs1)
    have exmem2 := (tick_back_bubbles running1 hf1).1 idex1
    obtain ⟨-, -, -, -, -, -, -, -, -, counts, -⟩ := tick_coherent (tick_coherent h)
    exact stalls_of_no_hazard (hasHazard_of_bubbles (counts running2) idex2 exmem2)
  case forwarding =>
    have hf0 := faultOf_of_stalls hs (exResolution_forwarding hp)
    have idex1 := tick_idex_of_no_issue hr hf0 (issues_of_stalls hs)
    exact stalls_of_no_hazard (hasHazard_of_idex_bubble ((tick_policy s).trans hp) idex1)

/-! ### Progress (R233) -/

/-- With a bubble in ID/EX, an instruction in decode that does not issue stalls, and is still there after the cycle. -/
theorem tick_ifid_of_no_issue {s : State} (hr : s.status = .running) (hf : s.faultOf = none)
    (hid : s.idex.valid = false) (hi : s.issues = false) (hv : s.ifid.valid = true) :
    s.stalls = true ∧ s.tick.ifid = s.ifid := by
  obtain ⟨-, noFault, -⟩ := (faultOf_none s).1 hf
  have stalls : s.stalls = true := by
    by_contra h
    rw [issues_of_not_stalls hv (squash_of_idex_bubble hid) noFault (Bool.eq_false_iff.2 h)] at hi
    cases hi
  refine ⟨stalls, ?_⟩
  rw [tick_of_no_fault hr hf, flowCycle_ifid]
  simp [State.nextIfid, redirect_of_stalls stalls, stalls]

/-- The bounds of the program do not change, as the program does not. -/
@[simp] theorem tick_inBounds (s : State) (a : Word) : s.tick.inBounds a = s.inBounds a := by simp [State.inBounds]

/-- With bubbles in decode and ID/EX a cycle fetches a word exactly if `pc` is inside the program, and else holds `pc`. -/
theorem tick_of_idle_front {s : State} (hr : s.status = .running) (hf : s.faultOf = none) (hif : s.ifid.valid = false)
    (hid : s.idex.valid = false) :
    s.tick.ifid.valid = s.inBounds s.pc ∧ (s.inBounds s.pc = false → s.tick.pc = s.pc) := by
  have noRedirect : s.redirect = none :=
    redirect_of_stay (exResolution_of_bubble hid) (idResolution_of_not_issues (issues_of_ifid_bubble hif))
  have noStall : s.stalls = false := by simp [State.stalls, hif]
  rw [tick_of_no_fault hr hf, flowCycle_ifid, flowCycle_pc]
  by_cases inside : s.inBounds s.pc = true <;>
    simp [State.nextIfid, State.nextPc, noRedirect, noStall, inside, fetchedLatch, Latch.bubble]

/-- A running core does not end a cycle with nothing left to do (R199). -/
theorem tick_drainedOut_of_running {s : State} (hr : s.status = .running) (hf : s.faultOf = none)
    (ht : s.tick.status = .running) : s.tick.drainedOut = false := by
  rw [tick_of_no_fault hr hf] at ht ⊢
  by_contra out
  rw [flowCycle_status, if_pos (by simpa using out)] at ht
  cases ht

/-- Settles O53: without an issue bubbles fill ID/EX, EX/MEM and MEM/WB one after the other. By the third cycle there is
no hazard, so decode is empty, and was in the second; then fetch found nothing, and the core completes. -/
theorem anInstructionIssuesWithinThreeCycles : Obligations.AnInstructionIssuesWithinThreeCycles := by
  intro s h
  by_contra! idle
  obtain ⟨issues0, issues1, issues2, running3⟩ := idle
  have running2 := running_of_tick_running running3
  have running1 := running_of_tick_running running2
  have running0 := running_of_tick_running running1
  have hf0 := faultOf_of_tick_running running0 running1
  have hf1 := faultOf_of_tick_running running1 running2
  have hf2 := faultOf_of_tick_running running2 running3
  have idex1 := tick_idex_of_no_issue running0 hf0 (Bool.eq_false_iff.2 issues0)
  have idex2 := tick_idex_of_no_issue running1 hf1 (Bool.eq_false_iff.2 issues1)
  have idex3 := tick_idex_of_no_issue running2 hf2 (Bool.eq_false_iff.2 issues2)
  have exmem2 := (tick_back_bubbles running1 hf1).1 idex1
  obtain ⟨exmem3, memwb3⟩ := (tick_back_bubbles running2 hf2).imp (· idex2) (· exmem2)
  have ifid2 : s.tick.tick.ifid.valid = false := by
    by_contra valid
    obtain ⟨stalls, -⟩ :=
      tick_ifid_of_no_issue running2 hf2 idex2 (Bool.eq_false_iff.2 issues2) (by simpa using valid)
    obtain ⟨-, -, -, -, -, -, -, -, -, counts, -⟩ := tick_coherent (tick_coherent h)
    rw [stalls_of_no_hazard (hasHazard_of_bubbles (counts running2) idex2 exmem2)] at stalls
    cases stalls
  have ifid1 : s.tick.ifid.valid = false := by
    by_contra valid
    obtain ⟨-, held⟩ :=
      tick_ifid_of_no_issue running1 hf1 idex1 (Bool.eq_false_iff.2 issues1) (by simpa using valid)
    exact valid (held ▸ ifid2)
  obtain ⟨fetch1, hold1⟩ := tick_of_idle_front running1 hf1 ifid1 idex1
  obtain ⟨fetch2, hold2⟩ := tick_of_idle_front running2 hf2 ifid2 idex2
  have outside1 : s.tick.inBounds s.tick.pc = false := fetch1.symm.trans ifid2
  have outside2 : s.tick.tick.inBounds s.tick.tick.pc = false := by rw [hold1 outside1, tick_inBounds, outside1]
  have outside3 : s.tick.tick.tick.inBounds s.tick.tick.tick.pc = false := by
    rw [hold2 outside2, tick_inBounds, outside2]
  have drained := (drainedOut_iff _).2
    ⟨fetch2.trans outside2, idex3, exmem3, memwb3, (inBounds_eq_false_iff _ _).1 outside3⟩
  rw [tick_drainedOut_of_running running2 hf2 running3] at drained
  cases drained

end Sys2Proof.Machine
end

section
/-! PROOF. One cycle of the pipeline against one step of sequential execution, in program order: an issue is the execution
of the next instruction, a halt is its fault (00_scope.md R13; 50_pipeline.md R203; 60_exceptions.md R214). -/

namespace Sys2Proof.Machine

/-! ### A step of sequential execution is the stages in a row -/

/-- A word that decode rejects, alone in the pipeline, raises. -/
theorem runAlone_of_decodeFault {s : State} {w : Word} {k : FaultKind}
    (h : decodeFault (decodeStage (fetchedLatch s.pc w) s.regs) = some k) : s.runAlone w = raise k s.pc w s := by
  simp only [State.runAlone, h]

/-- A word that decode accepts, alone in the pipeline, raises what its resolution raises. -/
theorem runAlone_of_resolve_fault {s : State} {w w' : Word} {D : Latch} {k : FaultKind} {p : Word}
    (hD : decodeStage (fetchedLatch s.pc w) s.regs = D) (accepted : decodeFault D = none)
    (h : resolve D D.rs1Val D.rs2Val = .fault k p w') : s.runAlone w = raise k p w' s := by
  simp only [State.runAlone, hD, accepted, State.finishAlone, h]

/-- A word that decode accepts and whose resolution raises nothing, alone in the pipeline, leaves the status. -/
theorem runAlone_status {s : State} {w : Word} {D : Latch} (hD : decodeStage (fetchedLatch s.pc w) s.regs = D)
    (accepted : decodeFault D = none) (h : ∀ k p w', resolve D D.rs1Val D.rs2Val ≠ .fault k p w') :
    (s.runAlone w).status = s.status := by
  simp only [State.runAlone, hD, accepted, State.finishAlone]
  cases hr : resolve D D.rs1Val D.rs2Val with
  | fault k p w' => exact absurd hr (h k p w')
  | stay => rfl
  | redirect t => rfl

/-- Sequential execution has an instruction to run: the core runs, and `pc` is inside the program. -/
def State.active (s : State) : Prop := s.status = .running ∧ s.inBounds s.pc = true

/-- A step of sequential execution is what the stages make of the word at `pc`, illegal or not. -/
theorem sequentialStep_of_active {s : State} (h : s.active) : s.sequentialStep = s.runAlone (s.progWord s.pc) := by
  obtain ⟨hr, inside⟩ := h
  simp only [State.sequentialStep, hr, inside, if_true]
  cases word : decode (s.progWord s.pc) with
  | ok i =>
    obtain ⟨encoded, wf⟩ := encodeOfDecodeIsTheWord _ i word
    simp only [stagesInARowAreTheMeaning i s wf hr, encoded]
  | error e =>
    exact (runAlone_of_decodeFault (decodeFault_of_illegal ((controlOfWord_illegal_iff _).2 ⟨e, word⟩))).symm

/-- Without an instruction to run a step of sequential execution does nothing. -/
theorem sequentialStep_of_not_active {s : State} (h : ¬s.active) : s.sequentialStep = s := by
  unfold State.sequentialStep
  cases hr : s.status with
  | running => exact if_neg fun inside => h ⟨hr, inside⟩
  | halted => rfl
  | completed => rfl

/-! ### A halt is the fault of the next instruction in program order -/

/-- `Resolve` reads of a latch its address, word, `funct3`, immediate and control bundle. -/
theorem resolve_latch_congr {L M : Latch} (pc : L.pc = M.pc) (instr : L.instr = M.instr) (f3 : L.funct3 = M.funct3)
    (imm : L.imm = M.imm) (ctrl : L.ctrl = M.ctrl) (a b : Word) : resolve L a b = resolve M a b := by
  simp only [resolve, pc, instr, f3, imm, ctrl]

/-- A latch past decode resolves as the decoding of its own word does. -/
theorem resolve_decodeStage {L : Latch} (h : L.decodedFromWord) (rf : Vector Word 32) (a b : Word) :
    resolve (decodeStage (fetchedLatch L.pc L.instr) rf) a b = resolve L a b := by
  obtain ⟨-, -, f3, -, -, -, imm, ctrl, -⟩ := h
  exact resolve_latch_congr (L := decodeStage (fetchedLatch L.pc L.instr) rf) (M := L) rfl rfl f3.symm imm.symm
    ctrl.symm a b

/-- The decode fault reads of a latch its immediate and control bundle. -/
theorem decodeFault_congr {D E : Latch} (imm : D.imm = E.imm) (ctrl : D.ctrl = E.ctrl) :
    decodeFault D = decodeFault E := by
  simp only [decodeFault, imm, ctrl]

/-- A latch past decode was accepted by decode, as its word is. -/
theorem decodeFault_decodeStage {L : Latch} (h : L.decodedFromWord) (rf : Vector Word 32) :
    decodeFault (decodeStage (fetchedLatch L.pc L.instr) rf) = none := by
  obtain ⟨-, -, -, -, -, -, imm, ctrl, accepted⟩ := h
  exact (decodeFault_congr imm.symm ctrl.symm).trans accepted

/-- A valid latch past decode is a fetched and decoded instruction. -/
theorem laterOk_of_valid {s : State} {L : Latch} (h : s.laterOk L) (hv : L.valid = true) :
    s.fetchedAt L ∧ L.decodedFromWord := by
  rcases h with rfl | ⟨-, fetched, decoded⟩
  · cases hv
  · exact ⟨fetched, decoded⟩

/-- A fault in execute leaves EX/MEM and MEM/WB to finish, the faulting JALR not. -/
theorem rf3_of_exFaults {s : State} (h : s.exFaults = true) : s.rf3 = s.rf2 := by
  simp [State.rf3, State.idexDone, h]

/-- Decode's instruction is the next in program order unless execute resolves something. -/
theorem programPc_of_ifid {s : State} (hx : s.exResolution = .stay) (hv : s.ifid.valid = true) :
    s.programPc = s.ifid.pc := by
  rw [programPc_stay hx, if_pos hv]

/-- The next instruction in program order of a cycle that faults is the one at fault: it is in the program, at the address
and with the word of the fault record, and alone in the pipeline it raises that fault. -/
theorem runAlone_of_fault {s : State} (h : s.Coherent) (ready : s.operandsReady) (hr : s.status = .running)
    {k : FaultKind} {p w : Word} (hf : s.faultOf = some (k, p, w)) :
    s.programPc = p ∧ s.inBounds p = true ∧ s.progWord p = w ∧ s.drained.runAlone w = raise k p w s.drained := by
  have ⟨_, _, _, _, _, idex, _⟩ := h
  rcases faultOf_some hf with ex | ⟨inWord, rfl, rfl, noEx⟩ | ⟨inDecode, -, -⟩
  · obtain ⟨-, valid, -, resolved⟩ := exResolution_of_ne_stay (s := s) (by simp [ex])
    have fault : resolve s.idex s.exA s.exB = .fault k p w := resolved.symm.trans ex
    obtain ⟨-, -, -, rfl, rfl⟩ := resolve_fault fault
    obtain ⟨⟨-, inside, word⟩, decoded⟩ := laterOk_of_valid idex valid
    have pc : s.drained.pc = s.idex.pc := by simp [State.programPc, ex]
    have regs : s.drained.regs = s.rf2 := rf3_of_exFaults (by simp [State.exFaults, ex])
    refine ⟨pc, inside, word.symm, ?_⟩
    have ⟨_, _, _, rs1, rs2, _, _, ctrl, _⟩ := decoded
    obtain ⟨kind, op, bundle⟩ := controlOfWord_eq s.idex.instr
    have operands : resolve s.idex (readReg s.rf2 (rs1Field s.idex.instr)) (readReg s.rf2 (rs2Field s.idex.instr)) =
        .fault k s.idex.pc s.idex.instr := by
      rw [← rs1, ← rs2, ← fault]
      exact (resolve_congr (ctrl.trans bundle) (ready valid)).symm
    exact runAlone_of_resolve_fault (by rw [pc, regs]) (decodeFault_decodeStage decoded s.rf2)
      ((resolve_decodeStage decoded s.rf2 _ _).trans operands)
  · obtain ⟨valid, squash, fault⟩ := (idFault_some_iff s k).1 inWord
    have stay : s.exResolution = .stay := by
      cases hx : s.exResolution with
      | stay => rfl
      | redirect t => exact absurd hx ((squash_false_iff s).1 squash t)
      | fault k p w => exact absurd hx (noEx k p w)
    obtain ⟨-, ⟨-, inside, word⟩, -⟩ := ifid_of_valid h valid
    have pc : s.drained.pc = s.ifid.pc := programPc_of_ifid stay valid
    refine ⟨pc, inside, word.symm, ?_⟩
    rw [← pc]
    exact runAlone_of_decodeFault fault
  · obtain ⟨hp, issues, -, -⟩ := idResolution_of_ne_stay (s := s) (by simp [inDecode])
    obtain ⟨valid, -, -, -⟩ := (issues_iff s).1 issues
    obtain ⟨kind, op, bundle, -⟩ := kind_of_issue issues
    have resolved := ((issue_resolution h hr issues bundle).2 hp).symm.trans inDecode
    obtain ⟨-, -, -, rfl, rfl⟩ := resolve_fault resolved
    obtain ⟨-, ⟨-, inside, word⟩, -⟩ := ifid_of_valid h valid
    have pc : s.drained.pc = s.ifid.pc := programPc_of_ifid (exResolution_forwarding hp) valid
    refine ⟨pc, inside, word.symm, ?_⟩
    exact runAlone_of_resolve_fault (D := decodeStage s.ifid s.rf3) (by rw [pc]; rfl) (idFault_none_of_issues issues)
      resolved

/-- The state of program order of a cycle that faults has an instruction to run, and its next step raises that fault. -/
theorem sequentialStep_of_fault {s : State} (h : s.Coherent) (ready : s.operandsReady) (hr : s.status = .running)
    {k : FaultKind} {p w : Word} (hf : s.faultOf = some (k, p, w)) :
    s.drained.active ∧ s.drained.sequentialStep = raise k p w s.drained := by
  obtain ⟨rfl, inside, rfl, raised⟩ := runAlone_of_fault h ready hr hf
  have active : s.drained.active := ⟨hr, inside⟩
  exact ⟨active, (sequentialStep_of_active active).trans raised⟩

/-- Settles O57: the halting cycle's fault is raised by the next step of program order, and neither changes registers,
memory or `pc` there. -/
theorem haltingIsRaisingInProgramOrder : Obligations.HaltingIsRaisingInProgramOrder := by
  intro s t k p w h ready hr hstep halted
  cases hstep
  have hf := faultOf_of_halted hr halted
  obtain ⟨-, raised⟩ := sequentialStep_of_fault h ready hr hf
  refine ⟨by rw [raised, raise_status], (runAlone_of_fault h ready hr hf).1, ?_, by rw [raised]; rfl⟩
  rw [tick_of_fault hr hf]
  exact halt_drained h k p w

/-! ### An issue is the execution of the next instruction in program order -/

/-- The instruction that issues is legal. -/
theorem decode_of_issues {s : State} (h : s.issues = true) : ∃ i, decode s.ifid.instr = .ok i := by
  have legal := (decodeFault_none (idFault_none_of_issues h)).1
  cases word : decode s.ifid.instr with
  | ok i => exact ⟨i, rfl⟩
  | error e => exact absurd ((controlOfWord_illegal_iff _).2 ⟨e, word⟩) (Bool.eq_false_iff.1 legal)

/-- The instruction that issues is the next in program order. -/
theorem drained_pc_of_issues {s : State} (hf : s.faultOf = none) (h : s.issues = true) : s.drained.pc = s.ifid.pc :=
  programPc_of_ifid (issue_exResolution hf h) ((issues_iff s).1 h).1

/-- Settles O56: a step that does not halt is `flowCycle`; without an issue `drained_no_issue` says what it does in program
order, with one `drained_issue_alone`, whose stages in a row are `exec`. -/
theorem issuingIsExecutingInProgramOrder : Obligations.IssuingIsExecutingInProgramOrder := by
  intro s t h hr hstep notHalted
  cases hstep
  have hf : s.faultOf = none := by
    cases hf : s.faultOf with
    | none => rfl
    | some f => exact absurd (tick_status_of_fault hr hf) (notHalted f.1 f.2.1 f.2.2)
  rw [tick_of_no_fault hr hf]
  refine ⟨drained_no_issue hf, fun issues => ?_⟩
  obtain ⟨i, word⟩ := decode_of_issues issues
  obtain ⟨encoded, wf⟩ := encodeOfDecodeIsTheWord _ i word
  refine ⟨i, _, word, drained_pc_of_issues hf issues, stagesInARowAreTheMeaning i s.drained wf hr, ?_⟩
  rw [encoded]
  exact drained_issue_alone h hr hf issues

/-! ### One instruction with nothing ahead of it -/

/-- With bubbles past decode, registers and memory are already those of program order. -/
theorem drained_of_empty_back {s : State} (hid : s.idex.valid = false) (hex : s.exmem.valid = false)
    (hwb : s.memwb.valid = false) : s.rf3 = s.regs ∧ s.mem3 = s.mem := by
  have idle {L : Latch} (h : L.valid = false) (rf : Vector Word 32) : commitLatch rf L = rf := by
    simp [commitLatch, Latch.writes, h]
  refine ⟨?_, ?_⟩
  · rw [rf3_bubble hid, State.rf2, State.rf1, idle hwb, idle (L := s.nextMemwb) hex]
  · rw [mem3_bubble hid, State.nextMem, storeLatch_of_not_store s.mem (by simp [hex])]

/-- The word of a fetched latch is the program's word at its address. -/
theorem getElem?_of_fetchedAt {s : State} {L : Latch} (h : s.fetchedAt L) : s.prog[L.pc.toNat / 4]? = some L.instr := by
  obtain ⟨-, inside, word⟩ := h
  have below : L.pc.toNat / 4 < s.prog.length := by
    have := of_decide_eq_true inside
    omega
  rw [word, State.progWord, List.getD_eq_getElem?_getD, List.getElem?_eq_getElem below]
  rfl

/-- Settles O55: with nothing ahead there is no hazard, so the instruction issues, and `drained_issue_alone` says what it
makes of program order; or the cycle faults, which is the instruction's own fault by `runAlone_of_fault`. -/
theorem stepRunsTheDecodedInstruction : Obligations.StepRunsTheDecodedInstruction := by
  intro s i h hr valid word idex exmem memwb
  have hid : s.idex.valid = false := by rw [idex]; rfl
  have hex : s.exmem.valid = false := by rw [exmem]; rfl
  have hwb : s.memwb.valid = false := by rw [memwb]; rfl
  have ⟨_, _, _, _, _, _, _, _, _, counts, _⟩ := h
  have ready : s.operandsReady := fun hv => absurd hv (Bool.eq_false_iff.1 hid)
  obtain ⟨regs, mem⟩ := drained_of_empty_back hid hex hwb
  have pc : s.programPc = s.ifid.pc := programPc_of_ifid (exResolution_of_bubble hid) valid
  have drained : s.drained = { s with pc := s.ifid.pc } := by rw [State.drained, regs, mem, pc]
  have rf1 : s.rf1 = s.regs := by rw [State.rf1, memwb, commitLatch_bubble]
  have nextMem : s.nextMem = s.mem := by rw [State.nextMem, exmem, storeLatch_bubble]
  obtain ⟨-, fetched, -⟩ := ifid_of_valid h valid
  obtain ⟨encoded, wf⟩ := encodeOfDecodeIsTheWord _ i word
  refine ⟨getElem?_of_fetchedAt fetched, s.tick, _, rfl, stagesInARowAreTheMeaning i _ wf hr, ?_⟩
  rw [encoded, ← drained]
  cases hf : s.faultOf with
  | none =>
    obtain ⟨-, noFault, -⟩ := (faultOf_none s).1 hf
    have issues : s.issues = true := (issues_iff s).2
      ⟨valid, squash_of_idex_bubble hid, noFault, hasHazard_of_bubbles (counts hr) hid hex⟩
    left
    rw [tick_of_no_fault hr hf, flowCycle_status, flowCycle_idex, flowCycle_regs, flowCycle_mem,
      nextIdex_of_issues issues, drained_issue_alone h hr hf issues]
    have busy : s.flowCycle.drainedOut = false := by
      simp [State.drainedOut, nextIdex_of_issues issues, State.decoded, decodeStage]
    exact ⟨by rw [busy]; exact hr, rfl, rfl, rfl, rf1, nextMem, rfl⟩
  | some f =>
    obtain ⟨k, p, w⟩ := f
    obtain ⟨rfl, -, rfl, raised⟩ := runAlone_of_fault h ready hr hf
    right
    rw [pc, ← fetched.2.2] at raised
    rw [raised, tick_of_fault hr hf, haltCycle_status, haltCycle_regs, haltCycle_mem, raise_regs, raise_mem, raise_status,
      drained, rf1, nextMem, pc, ← fetched.2.2]
    exact ⟨rfl, by simp, rfl, rfl⟩

end Sys2Proof.Machine
end

section
/-! PROOF. Runs of the pipeline against runs of sequential execution: refinement, progress, and that the two policies give
the same results (00_scope.md R13; 50_pipeline.md R203; 70_reset_and_hazards.md R233). -/

namespace Sys2Proof.Machine

open Claims (Outside)

/-! ### Sequential execution reads program, registers, memory, `pc` and status only -/

/-- Two states agree in all that sequential execution reads and changes. -/
def State.Agrees (u v : State) : Prop := u.arch = v.arch ∧ u.prog = v.prog ∧ u.status = v.status

/-- One instruction alone in the pipeline makes agreeing states of agreeing ones. -/
theorem runAlone_agrees {u v : State} (h : u.Agrees v) (w : Word) : (u.runAlone w).Agrees (v.runAlone w) := by
  obtain ⟨arch, prog, status⟩ := h
  have regs : u.regs = v.regs := congrArg Prod.fst arch
  have mem : u.mem = v.mem := congrArg (fun a => a.2.1) arch
  have pc : u.pc = v.pc := congrArg (fun a => a.2.2) arch
  simp only [State.runAlone, State.finishAlone, regs, mem, pc]
  split
  next => exact ⟨arch, prog, rfl⟩
  next =>
    split
    · exact ⟨arch, prog, rfl⟩
    · exact ⟨rfl, prog, status⟩
    · exact ⟨rfl, prog, status⟩

/-- One instruction alone in the pipeline leaves the program. -/
@[simp] theorem runAlone_prog (s : State) (w : Word) : (s.runAlone w).prog = s.prog := by
  unfold State.runAlone State.finishAlone
  split
  · rfl
  · split <;> rfl

/-- Agreeing states have an instruction to run, or not, together. -/
theorem active_congr {u v : State} (h : u.Agrees v) : u.active ↔ v.active := by
  obtain ⟨arch, prog, status⟩ := h
  have pc : u.pc = v.pc := congrArg (fun a => a.2.2) arch
  simp only [State.active, State.inBounds, pc, prog, status]

/-- A step of sequential execution makes agreeing states of agreeing ones. -/
theorem sequentialStep_agrees {u v : State} (h : u.Agrees v) : u.sequentialStep.Agrees v.sequentialStep := by
  by_cases active : u.active
  · have word : u.progWord u.pc = v.progWord v.pc := by
      rw [State.progWord, State.progWord, h.2.1, show u.pc = v.pc from congrArg (fun a => a.2.2) h.1]
    rw [sequentialStep_of_active active, sequentialStep_of_active ((active_congr h).1 active), word]
    exact runAlone_agrees h _
  · rw [sequentialStep_of_not_active active, sequentialStep_of_not_active (mt (active_congr h).2 active)]
    exact h

/-- A run of sequential execution makes agreeing states of agreeing ones. -/
theorem sequentialRun_agrees {u v : State} (h : u.Agrees v) (n : Nat) :
    (State.sequentialRun n u).Agrees (State.sequentialRun n v) := by
  induction n generalizing u v with
  | zero => exact h
  | succ n ih => exact ih (sequentialStep_agrees h)

/-- The last step of a run of sequential execution. -/
theorem sequentialRun_succ (n : Nat) (s : State) :
    State.sequentialRun (n + 1) s = (State.sequentialRun n s).sequentialStep := by
  induction n generalizing s with
  | zero => rfl
  | succ n ih => exact ih s.sequentialStep

/-- The last cycle of a run of the pipeline: a stopped core stays as it is. -/
theorem runCycles_succ (n : Nat) (s : State) : (runCycles (n + 1) s).2 = (runCycles n s).2.tick := by
  rw [runCycles_add]
  by_cases hr : (runCycles n s).2.status = .running
  · rw [runCycles_of_running hr]
    rfl
  · rw [runCycles_of_stopped hr, tick_of_not_running hr]

/-! ### Refinement, by the status of the pipeline -/

/-- A running or completed pipeline refines a running state of sequential execution. -/
theorem refines_of_running {t u : State} (arch : t.drained.arch = u.arch) (prog : t.prog = u.prog)
    (hu : u.status = .running) (ht : t.status = .running ∨ (t.status = .completed ∧ t.drainedOut = true)) :
    t.Refines u := by
  refine ⟨arch, prog, ?_⟩
  rcases ht with running | ⟨completed, out⟩
  · simpa only [running]
  · simpa only [completed] using ⟨hu, out⟩

/-- A halted pipeline refines a state of sequential execution with the same fault. -/
theorem refines_of_halted {t u : State} (arch : t.drained.arch = u.arch) (prog : t.prog = u.prog) {k : FaultKind}
    {p w : Word} (hu : u.status = .halted k p w) (ht : t.status = .halted k p w) : t.Refines u := by
  refine ⟨arch, prog, ?_⟩
  simpa only [ht]

/-- What a running pipeline refines, its state in program order agrees with. -/
theorem agrees_of_refines {t u : State} (h : t.Refines u) (hr : t.status = .running) : t.drained.Agrees u := by
  obtain ⟨arch, prog, status⟩ := h
  simp only [hr] at status
  exact ⟨arch, prog, hr.trans status.symm⟩

/-- What a halted pipeline refines has halted with the same fault. -/
theorem status_of_refines_halted {t u : State} (h : t.Refines u) {k : FaultKind} {p w : Word}
    (ht : t.status = .halted k p w) : u.status = .halted k p w := by
  obtain ⟨-, -, status⟩ := h
  simpa only [ht] using status

/-- What a completed pipeline refines still runs, with the registers, memory and `pc` of the pipeline itself. -/
theorem refines_completed {t u : State} (h : t.Refines u) (ht : t.status = .completed) :
    u.status = .running ∧ t.arch = u.arch ∧ Outside u u.pc := by
  obtain ⟨arch, prog, status⟩ := h
  simp only [ht] at status
  obtain ⟨running, out⟩ := status
  obtain ⟨hif, hid, hex, hwb, outside⟩ := (drainedOut_iff t).1 out
  obtain ⟨regs, mem⟩ := drained_of_empty_back hid hex hwb
  have pc : t.programPc = t.pc := by simp [programPc_stay (exResolution_of_bubble hid), hif]
  have same : t.arch = u.arch := by
    rw [← arch, State.arch, State.arch, drained_regs, drained_mem, drained_pc, regs, mem, pc]
  refine ⟨running, same, ?_⟩
  rw [Outside, ← prog, ← show t.pc = u.pc from congrArg (fun a => a.2.2) same]
  exact outside

/-! ### An issue, or a JALR that will fault in execute -/

/-- Execute faults exactly when its resolution is a fault. -/
theorem exFaults_iff (s : State) : s.exFaults = true ↔ ∃ k p w, s.exResolution = .fault k p w := by
  unfold State.exFaults
  cases s.exResolution <;> simp

/-- The instruction that issues, alone in the pipeline of program order, resolves as it will in the next cycle's execute or
does now in decode, so it raises exactly if it will fault in execute. -/
theorem runAlone_of_issue {s : State} (h : s.Coherent) (hr : s.status = .running) (hf : s.faultOf = none)
    (hi : s.issues = true) :
    (s.flowCycle.exFaults = true → ∃ k p w, s.drained.runAlone s.ifid.instr = raise k p w s.drained) ∧
      (s.flowCycle.exFaults = false → (s.drained.runAlone s.ifid.instr).status = .running) := by
  obtain ⟨kind, op, bundle, -⟩ := kind_of_issue hi
  obtain ⟨inExecute, inDecode⟩ := issue_resolution h hr hi bundle
  have latch : decodeStage (fetchedLatch s.drained.pc s.ifid.instr) s.drained.regs = decodeStage s.ifid s.rf3 := by
    rw [drained_pc_of_issues hf hi]; rfl
  have accepted : decodeFault (decodeStage s.ifid s.rf3) = none := idFault_none_of_issues hi
  refine ⟨fun faults => ?_, fun noFault => ?_⟩
  · obtain ⟨k, p, w, fault⟩ := (exFaults_iff _).1 faults
    have hp : s.flowCycle.policy = .noForwarding := (exResolution_of_ne_stay (by simp [fault])).1
    rw [flowCycle_policy] at hp
    exact ⟨k, p, w, runAlone_of_resolve_fault latch accepted ((inExecute hp).symm.trans fault)⟩
  · refine (runAlone_status latch accepted fun k p w resolved => ?_).trans hr
    cases hp : s.policy with
    | noForwarding =>
      rw [(exFaults_iff _).2 ⟨k, p, w, (inExecute hp).trans resolved⟩] at noFault
      cases noFault
    | forwarding => exact ((faultOf_none s).1 hf).2.2 k p w ((inDecode hp).trans resolved)

/-- An instruction that issues is one sequential execution has to run, and its word is the one there. -/
theorem active_of_issue {s : State} (h : s.Coherent) (hr : s.status = .running) (hf : s.faultOf = none)
    (hi : s.issues = true) : s.drained.active ∧ s.drained.progWord s.drained.pc = s.ifid.instr := by
  obtain ⟨-, ⟨-, inside, word⟩, -⟩ := ifid_of_valid h ((issues_iff s).1 hi).1
  have pc := drained_pc_of_issues hf hi
  refine ⟨⟨hr, ?_⟩, ?_⟩ <;> rw [pc]
  · exact inside
  · exact word.symm

/-! ### The pipeline and the number of instructions it has executed -/

/-- The pipeline state `t` has executed `m` instructions of a program whose sequential execution starts in `s`: it meets
the invariants, refines `m` steps, and each of these had an instruction to run. -/
def State.Executed (s : State) (m : Nat) (t : State) : Prop :=
  t.Coherent ∧ t.operandsReady ∧ t.Refines (State.sequentialRun m s) ∧ ∀ i, i < m → (State.sequentialRun i s).active

/-- A core that does not halt runs on or completes with nothing left to do. -/
theorem flowCycle_running_or_completed {s : State} (hr : s.status = .running) :
    s.flowCycle.status = .running ∨ (s.flowCycle.status = .completed ∧ s.flowCycle.drainedOut = true) := by
  rw [flowCycle_status, hr]
  by_cases out : s.flowCycle.drainedOut = true
  · exact .inr ⟨if_pos out, out⟩
  · exact .inl (if_neg out)

/-- A cycle that leaves the state of program order has executed no instruction. -/
theorem executed_of_held {s t : State} {m : Nat} (h : s.Executed m t) (hr : t.status = .running)
    (hf : t.faultOf = none) (held : t.flowCycle.drained.arch = t.drained.arch) : s.Executed m t.flowCycle := by
  obtain ⟨coherent, -, refines, active⟩ := h
  obtain ⟨arch, prog, status⟩ := agrees_of_refines refines hr
  exact ⟨flowCycle_coherent coherent hr, flowCycle_operandsReady coherent hr hf,
    refines_of_running (held.trans arch) ((flowCycle_prog t).trans prog) (status.symm.trans hr)
      (flowCycle_running_or_completed hr), active⟩

/-- A cycle that refines the next step of program order has executed one instruction. -/
theorem executed_of_step {s t : State} {m : Nat} (h : s.Executed m t) (hr : t.status = .running)
    (active : t.drained.active) (refined : ∀ u, t.drained.sequentialStep.Agrees u → t.tick.Refines u) :
    s.Executed (m + 1) t.tick := by
  obtain ⟨coherent, ready, refines, before⟩ := h
  have agrees := agrees_of_refines refines hr
  refine ⟨tick_coherent coherent, tick_operandsReady coherent ready, ?_, fun i hi => ?_⟩
  · rw [sequentialRun_succ]
    exact refined _ (sequentialStep_agrees agrees)
  · rcases Nat.lt_succ_iff_lt_or_eq.1 hi with earlier | rfl
    · exact before i earlier
    · exact (active_congr agrees).1 active

/-- A halting cycle executes the instruction at fault. -/
theorem executed_of_fault {s t : State} {m : Nat} (h : s.Executed m t) (hr : t.status = .running) {k : FaultKind}
    {p w : Word} (hf : t.faultOf = some (k, p, w)) : s.Executed (m + 1) t.tick := by
  have ⟨coherent, ready, _, _⟩ := h
  obtain ⟨active, raised⟩ := sequentialStep_of_fault coherent ready hr hf
  refine executed_of_step h hr active fun u agrees => ?_
  obtain ⟨arch, prog, status⟩ := agrees
  rw [raised] at arch prog status
  rw [tick_of_fault hr hf]
  exact refines_of_halted ((halt_drained coherent k p w).trans arch) prog status.symm rfl

/-- A cycle in which an instruction issues that will not fault in execute executes it. -/
theorem executed_of_issue {s t : State} {m : Nat} (h : s.Executed m t) (hr : t.status = .running)
    (hf : t.faultOf = none) (hi : t.issues = true) (noFault : t.flowCycle.exFaults = false) :
    s.Executed (m + 1) t.tick := by
  have ⟨coherent, _, _, _⟩ := h
  obtain ⟨active, word⟩ := active_of_issue coherent hr hf hi
  refine executed_of_step h hr active fun u agrees => ?_
  have running := (runAlone_of_issue coherent hr hf hi).2 noFault
  have step := sequentialStep_of_active active
  rw [word] at step
  obtain ⟨arch, prog, status⟩ := agrees
  rw [step] at arch prog status
  rw [runAlone_prog] at prog
  rw [tick_of_no_fault hr hf]
  exact refines_of_running ((drained_issue_alone coherent hr hf hi).trans arch) ((flowCycle_prog t).trans prog)
    (status.symm.trans running) (flowCycle_running_or_completed hr)

/-- What one cycle adds to the number of instructions executed: at most one; and if the core runs on, an issue adds one,
unless it is that of a JALR that now faults in execute. -/
theorem executed_tick {s t : State} {m : Nat} (h : s.Executed m t) :
    ∃ m', m' ≤ m + 1 ∧ s.Executed m' t.tick ∧
      (t.tick.status = .running → m + t.issues.toNat ≤ m' + t.tick.exFaults.toNat) := by
  by_cases hr : t.status = .running
  · cases hf : t.faultOf with
    | some f =>
      obtain ⟨k, p, w⟩ := f
      refine ⟨m + 1, le_rfl, executed_of_fault h hr hf, fun running => ?_⟩
      rw [tick_status_of_fault hr hf] at running
      cases running
    | none =>
      have ⟨coherent, _, _, _⟩ := h
      have tick := tick_of_no_fault hr hf
      cases hi : t.issues with
      | false => exact ⟨m, Nat.le_succ m, tick ▸ executed_of_held h hr hf (drained_no_issue hf hi), by simp⟩
      | true =>
        cases hx : t.flowCycle.exFaults with
        | false => exact ⟨m + 1, le_rfl, executed_of_issue h hr hf hi hx, by simp⟩
        | true =>
          obtain ⟨k, p, w, raised⟩ := (runAlone_of_issue coherent hr hf hi).1 hx
          have held : t.flowCycle.drained.arch = t.drained.arch := by
            rw [drained_issue_alone coherent hr hf hi, raised]
            rfl
          exact ⟨m, Nat.le_succ m, tick ▸ executed_of_held h hr hf held, by simp [tick, hx]⟩
  · rw [tick_of_not_running hr]
    exact ⟨m, Nat.le_succ m, h, fun running => absurd running hr⟩

/-- After reset no instruction has been executed. -/
theorem executed_resetWith (policy : Policy) {prog : List Word} (h : prog.length ≤ maxProgramWords) :
    (State.resetWith policy prog).Executed 0 (State.resetWith policy prog) := by
  have arch : (State.resetWith policy prog).drained.arch = (State.resetWith policy prog).arch := by
    obtain ⟨regs, mem⟩ := drained_of_empty_back (s := State.resetWith policy prog) rfl rfl rfl
    have pc : (State.resetWith policy prog).programPc = 0 := programPc_stay (exResolution_of_bubble rfl)
    rw [State.arch, drained_regs, drained_mem, drained_pc, regs, mem, pc]
    rfl
  exact ⟨resetWith_coherent policy h, resetWith_operandsReady policy prog,
    refines_of_running arch rfl rfl (.inl rfl), fun i hi => absurd hi (Nat.not_lt_zero i)⟩

/-- After `n` cycles some number of instructions, at most `n`, has been executed. -/
theorem executed_runCycles {s : State} (h : s.Executed 0 s) (n : Nat) :
    ∃ m, m ≤ n ∧ s.Executed m (runCycles n s).2 := by
  induction n with
  | zero => exact ⟨0, le_rfl, h⟩
  | succ n ih =>
    obtain ⟨m, most, executed⟩ := ih
    obtain ⟨m', more, executed', -⟩ := executed_tick executed
    exact ⟨m', by omega, runCycles_succ n s ▸ executed'⟩

/-- Settles O58: a loaded program starts from the reset state, and its run executes instructions one after the other. -/
theorem everyRunRefinesSequentialExecution : Obligations.EveryRunRefinesSequentialExecution := by
  intro policy words s loaded n
  obtain ⟨-, length, rfl⟩ := (loadProgram_ok_iff ..).1 loaded
  obtain ⟨m, most, -, -, refines, -⟩ := executed_runCycles (executed_resetWith policy length) n
  exact ⟨m, most, refines⟩

/-! ### Progress: an instruction every three cycles (R233) -/

/-- Execute does not fault in a cycle after which the core runs. -/
theorem exFaults_of_tick_running {t : State} (h : t.tick.status = .running) : t.exFaults = false :=
  exFaults_of_no_fault (faultOf_of_tick_running (running_of_tick_running h) h)

/-- Three cycles after which the core still runs execute an instruction, or issue a JALR that faults in the next. -/
theorem executed_three_ticks {s t : State} {m : Nat} (h : s.Executed m t) (running : t.tick.tick.tick.status = .running) :
    ∃ m', s.Executed m' t.tick.tick.tick ∧ m + 1 ≤ m' + t.tick.tick.tick.exFaults.toNat := by
  have running2 := running_of_tick_running running
  have running1 := running_of_tick_running running2
  obtain ⟨m1, -, h1, count1⟩ := executed_tick h
  obtain ⟨m2, -, h2, count2⟩ := executed_tick h1
  obtain ⟨m3, -, h3, count3⟩ := executed_tick h2
  have issue : 1 ≤ t.issues.toNat + t.tick.issues.toNat + t.tick.tick.issues.toNat := by
    rcases anInstructionIssuesWithinThreeCycles t h.1 with issues | issues | issues | stopped
    · rw [issues, Bool.toNat_true]; omega
    · rw [issues, Bool.toNat_true]; omega
    · rw [issues, Bool.toNat_true]; omega
    · exact absurd running stopped
  have count1 := count1 running1
  have count2 := count2 running2
  have count3 := count3 running
  rw [exFaults_of_tick_running running2, Bool.toNat_false] at count1
  rw [exFaults_of_tick_running running, Bool.toNat_false] at count2
  exact ⟨m3, h3, by omega⟩

/-- After `3j` cycles the core has stopped, or it has executed `j` instructions, one of which may be a JALR about to fault
in execute. -/
theorem executed_or_stopped {s : State} (h : s.Executed 0 s) (j : Nat) :
    (runCycles (3 * j) s).2.status ≠ .running ∨
      ∃ m, s.Executed m (runCycles (3 * j) s).2 ∧ j ≤ m + (runCycles (3 * j) s).2.exFaults.toNat := by
  induction j with
  | zero => exact .inr ⟨0, h, Nat.zero_le _⟩
  | succ j ih =>
    by_cases running : (runCycles (3 * (j + 1)) s).2.status = .running
    · right
      have ticks : (runCycles (3 * (j + 1)) s).2 = (runCycles (3 * j) s).2.tick.tick.tick := by
        rw [← runCycles_succ, ← runCycles_succ, ← runCycles_succ]
        rfl
      rw [ticks] at running ⊢
      have running1 := running_of_tick_running (running_of_tick_running running)
      obtain ⟨m, executed, count⟩ := ih.resolve_left (not_not_intro (running_of_tick_running running1))
      rw [exFaults_of_tick_running running1, Bool.toNat_false] at count
      obtain ⟨m', executed', count'⟩ := executed_three_ticks executed running
      exact ⟨m', executed', by omega⟩
    · exact .inl running

/-- A JALR about to fault in execute is an instruction sequential execution has to run. -/
theorem active_of_exFaults {s t : State} {m : Nat} (h : s.Executed m t) (hr : t.status = .running)
    (hx : t.exFaults = true) : (State.sequentialRun m s).active := by
  obtain ⟨coherent, ready, refines, -⟩ := h
  obtain ⟨k, p, w, fault⟩ := (exFaults_iff t).1 hx
  exact (active_congr (agrees_of_refines refines hr)).1
    (sequentialStep_of_fault coherent ready hr (faultOf_of_ex fault)).1

/-- Settles O59: were the core still running after `3m + 3` cycles, it would have executed more than `m` instructions, and
sequential execution would have had one to run after `m`. -/
theorem programsEndWithinThreeCyclesAnInstruction : Obligations.ProgramsEndWithinThreeCyclesAnInstruction := by
  intro policy words s m loaded ended
  obtain ⟨-, length, rfl⟩ := (loadProgram_ok_iff ..).1 loaded
  refine (executed_or_stopped (executed_resetWith policy length) (m + 1)).elim id fun ⟨m', executed, count⟩ => ?_
  intro running
  have active : (State.sequentialRun m (State.resetWith policy words)).active := by
    by_cases more : m < m'
    · exact executed.2.2.2 m more
    · cases hx : (runCycles (3 * (m + 1)) (State.resetWith policy words)).2.exFaults with
      | false =>
        rw [hx, Bool.toNat_false] at count
        omega
      | true =>
        rw [hx, Bool.toNat_true] at count
        rw [show m = m' by omega]
        exact active_of_exFaults executed running hx
  obtain ⟨seqRunning, inside⟩ := active
  rcases ended with stopped | outside
  · exact stopped seqRunning
  · rw [(inBounds_eq_false_iff _ _).2 outside] at inside
    cases inside

/-! ### The two policies (R203) -/

/-- When the pipeline has stopped, sequential execution has no instruction to run. -/
theorem not_active_of_stopped {s t : State} {m : Nat} (h : s.Executed m t) (stopped : t.status ≠ .running) :
    ¬(State.sequentialRun m s).active := by
  obtain ⟨-, -, refines, -⟩ := h
  rintro ⟨running, inside⟩
  cases ht : t.status with
  | running => exact stopped ht
  | halted k p w =>
    rw [status_of_refines_halted refines ht] at running
    cases running
  | completed =>
    obtain ⟨-, -, outside⟩ := refines_completed refines ht
    rw [(inBounds_eq_false_iff _ _).2 outside] at inside
    cases inside

/-- Two runs from agreeing states that have both stopped have executed the same number of instructions: the least after
which none is left to run. -/
theorem executed_unique {s s' t t' : State} {m m' : Nat} (agrees : s.Agrees s') (h : s.Executed m t)
    (h' : s'.Executed m' t') (stopped : t.status ≠ .running) (stopped' : t'.status ≠ .running) : m = m' := by
  have together := fun n => active_congr (sequentialRun_agrees agrees n)
  rcases Nat.lt_trichotomy m m' with less | same | more
  · exact absurd ((together m).2 (h'.2.2.2 m less)) (not_active_of_stopped h stopped)
  · exact same
  · exact absurd ((together m').1 (h.2.2.2 m' more)) (not_active_of_stopped h' stopped')

/-- Two stopped pipelines that refine agreeing states of sequential execution have the same status and, if they have
completed, the same registers, memory and `pc`. -/
theorem stopped_refines_unique {t t' u u' : State} (agrees : u.Agrees u') (h : t.Refines u) (h' : t'.Refines u')
    (stopped : t.status ≠ .running) (stopped' : t'.status ≠ .running) :
    t.status = t'.status ∧ (t.status = .completed → t.arch = t'.arch) := by
  obtain ⟨arch, -, status⟩ := agrees
  cases ht : t.status with
  | running => exact absurd ht stopped
  | halted k p w =>
    have hu := status_of_refines_halted h ht
    cases ht' : t'.status with
    | running => exact absurd ht' stopped'
    | halted k' p' w' =>
      rw [← hu, status, status_of_refines_halted h' ht']
      exact ⟨rfl, by simp⟩
    | completed =>
      rw [status, (refines_completed h' ht').1] at hu
      cases hu
  | completed =>
    obtain ⟨hu, same, -⟩ := refines_completed h ht
    cases ht' : t'.status with
    | running => exact absurd ht' stopped'
    | halted k' p' w' =>
      rw [status, status_of_refines_halted h' ht'] at hu
      cases hu
    | completed =>
      obtain ⟨-, same', -⟩ := refines_completed h' ht'
      exact ⟨rfl, fun _ => same.trans (arch.trans same'.symm)⟩

/-- Settles O60: the reset states of the two policies agree in all that sequential execution reads, so both runs end after
the same number of its steps, in states that agree. -/
theorem policiesGiveTheSameResults : Obligations.PoliciesGiveTheSameResults := by
  intro words s s' n n' loaded loaded' stopped stopped'
  obtain ⟨-, length, rfl⟩ := (loadProgram_ok_iff ..).1 loaded
  obtain ⟨-, -, rfl⟩ := (loadProgram_ok_iff ..).1 loaded'
  have agrees : (State.resetWith .noForwarding words).Agrees (State.resetWith .forwarding words) := ⟨rfl, rfl, rfl⟩
  obtain ⟨m, -, executed⟩ := executed_runCycles (executed_resetWith .noForwarding length) n
  obtain ⟨m', -, executed'⟩ := executed_runCycles (executed_resetWith .forwarding length) n'
  obtain rfl := executed_unique agrees executed executed' stopped stopped'
  obtain ⟨status, arch⟩ := stopped_refines_unique (sequentialRun_agrees agrees m) executed.2.2.1 executed'.2.2.1
    stopped stopped'
  exact ⟨status, fun completed => ⟨congrArg Prod.fst (arch completed), congrArg (fun a => a.2.1) (arch completed)⟩⟩

end Sys2Proof.Machine
end
